-- ==== Sys2Proof/Word.lean ====
section
/-! DEFINITION. The value types of MMS-CORE (00_scope.md rules R10 to R12): bytes and nibbles of the
link, the binary64 pattern, and the output sample. -/

namespace Sys2Proof

/-- A byte of the link, u8 (R10, R11). -/
abbrev Byte := BitVec 8

/-- A channel number or type code, four bits of a status byte (R100). -/
abbrev Nibble := BitVec 4

/-- An IEEE 754 binary64 pattern (R12). Every real quantity of MMS-CORE is one. -/
abbrev F64 := BitVec 64

/-- One output sample. The sink takes blocks of integers (R75); that each is an i16 is a claim about
the machine (R243, R282), not a property of the type. -/
abbrev Sample := Int

/-- A block of samples handed to the sink whole (R78). -/
abbrev Block := List Sample

end Sys2Proof
end

