-- ==== Sys2Proof/Syntax.lean ====
section
/-! DEFINITION. The input language of MMS-CORE: the rows of spec/opcode_table.json as one inductive,
the host- and agent-triggered transactions (30_encoding.md rule R113), the draws an external call can
give (60_exceptions.md rule R313), and the events of the parser (30_encoding.md rule R103). -/

namespace Sys2Proof

/-- The four recognized status nibbles (R104): 0x8, 0x9, 0xB and 0xC. -/
inductive FrameType where
  | noteOff
  | noteOn
  | controlChange
  | programChange
  deriving DecidableEq, Repr, Inhabited

/-- One constructor per row of spec/opcode_table.json. The frame and drop rows carry every bit of
their bytes that the row does not fix, so that encoding drops no bit. -/
inductive Instr where
  /-- NOTE_OFF (R163): `1000cccc note relvel`. -/
  | noteOff (ch : Nibble) (note relvel : Byte)
  /-- NOTE_ON (R164): `1001cccc note vel` with `vel ≠ 0`. -/
  | noteOn (ch : Nibble) (note vel : Byte)
  /-- NOTE_ON_V0 (R165): `1001cccc note 00000000`. -/
  | noteOnV0 (ch : Nibble) (note : Byte)
  /-- CC_VOLUME (R166, R233): the controller CC_VOLUME, 7. -/
  | ccVolume (ch : Nibble) (value : Byte)
  /-- CC_PANIC (R166, R234): the controller CC_PANIC, 123. -/
  | ccPanic (ch : Nibble) (value : Byte)
  /-- CC_OTHER (R166, R235): any other controller. -/
  | ccOther (ch : Nibble) (controller value : Byte)
  /-- PROG (R167): `1100cccc program`. -/
  | prog (ch : Nibble) (program : Byte)
  /-- DROP_DATA (R168): a head byte 0x00..0x7F. -/
  | dropData (b : BitVec 7)
  /-- DROP_A (R168): a head byte 0xA0..0xAF. -/
  | dropA (n : Nibble)
  /-- DROP_D (R168): a head byte 0xD0..0xDF. -/
  | dropD (n : Nibble)
  /-- DROP_E (R168): a head byte 0xE0..0xEF. -/
  | dropE (n : Nibble)
  /-- DROP_SYS (R168): a head byte 0xF0..0xFF. -/
  | dropSys (n : Nibble)
  /-- DROP_BADDATA (R170): a recognized status byte with its whole frame buffered and a data byte
  whose bit 7 is 1. A ProgramChange frame has one data byte; its `d2` is written 0. -/
  | dropBadData (t : FrameType) (ch : Nibble) (d1 d2 : Byte)
  /-- WAIT (R169): a recognized status byte with fewer bytes buffered than its frame has. -/
  | wait (t : FrameType) (ch : Nibble) (d1 : Option Byte)
  /-- RAW_SAMPLE (R110): the low byte, then the high byte, of an i16. -/
  | rawSample (lo hi : Byte)
  /-- LINK_OPEN (R342). -/
  | linkOpen
  /-- PROBE_READ (R140). -/
  | probeRead
  /-- WINDOW_EXPIRE (R141). -/
  | windowExpire
  /-- CLASSIFY (R147). -/
  | classify
  /-- SINK_OPEN (R343). -/
  | sinkOpen
  /-- INGEST_READ (R160). -/
  | ingestRead
  /-- PARSE_APPLY (R162). -/
  | parseApply
  /-- GENERATE(n) (R238); the host's pull chooses `n`. -/
  | generate (n : Nat)
  /-- RAW_STEP (R270). -/
  | rawStep
  /-- STOP (R308). -/
  | stop
  /-- SINK_FAULT (R307). -/
  | sinkFault
  deriving DecidableEq, Repr, Inhabited

/-- The atomic steps a scheduler can fire (R321), one constructor per row of that rule's table. -/
inductive Txn where
  | linkOpen
  | probeRead
  | windowExpire
  | classify
  | sinkOpen
  | ingestRead
  | parseApply
  | generate (n : Nat)
  | rawStep
  | stop
  | sinkFault
  deriving DecidableEq, Repr, Inhabited

/-- The draw that decides one LinkRead (R72): `ok k` delivers the next `k` bytes of the link, cut to
the read's maximum and, on a finite link, to what it still holds; `err` is an unrecoverable link exception. -/
inductive ReadDraw where
  | ok (k : Nat)
  | err
  deriving DecidableEq, Repr, Inhabited

/-- What a LinkRead returns to the step that made it (R72). -/
inductive ReadResult where
  | ok (bs : List Byte)
  | err
  deriving DecidableEq, Repr, Inhabited

/-- The draw that decides one open of the link or of the sink (R313, R342, R343). -/
inductive OpenDraw where
  | ok
  | fail
  deriving DecidableEq, Repr, Inhabited

/-- The closed variant of decoded events (R103). -/
inductive MidiEvent where
  | noteOn (ch : Nibble) (note vel : Byte)
  | noteOff (ch : Nibble) (note : Byte)
  | controlChange (ch : Nibble) (controller value : Byte)
  | programChange (ch : Nibble) (program : Byte)
  deriving DecidableEq, Repr, Inhabited

end Sys2Proof
end

