-- ==== Sys2Proof/Config.lean ====
section
/-! DEFINITION. The configuration of 00_scope.md rule R6, an argument of the model fixed for a run, and
the free values: constants with no body, of which nothing can be proved but that they are some value. -/

namespace Sys2Proof

/-- DATA_CHECK (R6, R170). -/
inductive DataCheck where
  | strict
  | none
  deriving DecidableEq, Repr, Inhabited

/-- RESAMPLE_GRID (R6, R276, R277). -/
inductive ResampleGrid where
  | step
  | endpoint
  deriving DecidableEq, Repr, Inhabited

/-- FORCE_MODE (R6, R148). -/
inductive ForceMode where
  | auto
  | midi
  | raw
  deriving DecidableEq, Repr, Inhabited

/-- The default ATTACK_SAMPLES of R6, `floor(SAMPLE_RATE / 100)`. -/
def defaultAttackSamples (sampleRate : Nat) : Nat := sampleRate / 100

/-- The default RELEASE_SAMPLES of R6, `floor(SAMPLE_RATE / 20)`. -/
def defaultReleaseSamples (sampleRate : Nat) : Nat := sampleRate / 20

/-- The parameters of R6. Those whose value the source gives, or which R6 derives, carry it as a default, so
that a model can override it (93_implementation_defined.md, item 19, which names SUSTAIN_LEVEL, HEADROOM,
CC_VOLUME and CC_PANIC among them). The constants of R14 that item 19 does not name and the normative FREQ
table of R191 are definitions (notes/assumptions/1.md). -/
structure Config where
  maxVoices : Nat := 8
  probeMax : Nat := 50
  probeMin : Nat := 3
  midiPatternMin : Nat := 2
  audioDivisor : Nat := 4
  sampleRate : Nat
  attackSamples : Nat := defaultAttackSamples sampleRate
  releaseSamples : Nat := defaultReleaseSamples sampleRate
  /-- SUSTAIN_LEVEL (R6, R14), 0.8 -/
  sustainLevel : F64 := 0x3FE999999999999A#64
  /-- HEADROOM (R6, R14), 0.3 -/
  headroom : F64 := 0x3FD3333333333333#64
  /-- CC_VOLUME (R6, R233), a u7 -/
  ccVolume : BitVec 7 := 7#7
  /-- CC_PANIC (R6, R234), a u7 -/
  ccPanic : BitVec 7 := 123#7
  volumeReset : F64
  noiseLimit : Nat := 32000
  upsampleRatio : Nat
  sourceRate : Nat
  blockSamples : Nat
  blockFrames : Nat
  latencyHint : Int
  readChunk : Nat
  dataCheck : DataCheck
  resampleGrid : ResampleGrid
  forceMode : ForceMode
  exitFail : Int
  deriving DecidableEq, Repr, Inhabited

/-- The configuration TC1 of 95_test_vectors.md with the raw-path values it names; every parameter with a
default has it, so ATTACK_SAMPLES is 8 and RELEASE_SAMPLES is 40. R6 gives no reference
value for FORCE_MODE, BLOCK_FRAMES, LATENCY_HINT and EXIT_FAIL, and only an example for SOURCE_RATE:
those five are DESIGN CHOICE (notes/assumptions/2.md, unsafe). -/
def Config.reference : Config where
  sampleRate := 800
  volumeReset := 0x3FF0000000000000#64
  upsampleRatio := 2
  sourceRate := 4000
  blockSamples := 4
  blockFrames := 4
  latencyHint := 0
  readChunk := 16
  dataCheck := .strict
  resampleGrid := .step
  forceMode := .auto
  exitFail := 1

/-- The step a scheduler fires next when State scripts none (R321: "chosen by a scheduler the model
does not control"). A free value (notes/assumptions/4.md, safe). -/
opaque Config.freeTxn : Nat → Txn

/-- The draw of a LinkRead when State scripts none (R72: "a draw that the model does not choose").
A free value (notes/assumptions/5.md, safe). -/
opaque Config.freeRead : Nat → ReadDraw

/-- The draw of an open when State scripts none (R313). A free value (notes/assumptions/5.md, safe). -/
opaque Config.freeOpen : Nat → OpenDraw

/-- The byte of an unbounded link at an index where State lists none (R71: the link is "produced by the
external ByteSource"). A free value (notes/assumptions/6.md, safe). -/
opaque Config.freeByte : Nat → Byte

/-- Sign and payload of the quiet NaN that an invalid operation gives: R13 says none arises, and R12's
format leaves the payload open. A free value (notes/assumptions/8.md, safe). The first argument
tells the operations apart. -/
opaque Config.nanBits : Nat → F64 → F64 → BitVec 52

/-- The integer part of a NaN, which R13 does not state. A free value (notes/assumptions/8.md, safe). -/
opaque Config.nanToInt : F64 → Int

/-- `fmod x y` outside R13's domain (`x ≥ 0`, `y > 0`, both finite). A free value
(notes/assumptions/8.md, safe). -/
opaque Config.fmodUnstated : F64 → F64 → F64

end Sys2Proof
end

