-- ==== Sys2Proof/Decode.lean ====
section
/-! DEFINITION. From bytes to instructions and back: the fields of a frame (30_encoding.md rules R100 to
R102), the decoder of the MIDI path (rules R104, R105, 41_parser.md rule R161), the decoder of the raw
path (rule R110), and after them the encoder, written from the same rules. -/

namespace Sys2Proof

/-- Why a decoder gives no instruction: an empty parser buffer (R171), or fewer than two bytes where a raw
sample is read (R272). No other byte sequence is refused (R107). -/
inductive Reject where
  | emptyBuffer
  | shortRead
  deriving DecidableEq, Repr, Inhabited

/-- `b[7:4]` (R10). -/
def highNibble (b : Byte) : Nibble := b.extractLsb' 4 4

/-- `b[3:0]` (R10). -/
def lowNibble (b : Byte) : Nibble := b.extractLsb' 0 4

/-- `b[7]` (R10). -/
def bit7 (b : Byte) : Bool := b.getLsbD 7

/-- The type code of a recognized status byte (R104). -/
def typeNibble (t : FrameType) : Nibble :=
  match t with
  | .noteOff => 0x8#4
  | .noteOn => 0x9#4
  | .controlChange => 0xB#4
  | .programChange => 0xC#4

/-- The frame type a head byte's high nibble selects, if it is a recognized status byte (R104). -/
def frameTypeOf (hi : Nibble) : Option FrameType :=
  if hi = 0x8#4 then some .noteOff
  else if hi = 0x9#4 then some .noteOn
  else if hi = 0xB#4 then some .controlChange
  else if hi = 0xC#4 then some .programChange
  else none

/-- The length of a frame, from its head byte alone (R101). -/
def frameLength (t : FrameType) : Nat :=
  match t with
  | .noteOff => 3
  | .noteOn => 3
  | .controlChange => 3
  | .programChange => 2

/-- The data byte of the volume control's number CC_VOLUME (R6, R233). -/
def ccVolumeNumber (cfg : Config) : Byte := cfg.ccVolume.setWidth 8

/-- The data byte of panic's number CC_PANIC (R6, R234). -/
def ccPanicNumber (cfg : Config) : Byte := cfg.ccPanic.setWidth 8

/-- The drop row of a head byte that is no recognized status byte (R105, R107, R168). -/
def dropOf (b : Byte) : Instr :=
  if bit7 b = false then .dropData (b.setWidth 7)
  else if highNibble b = 0xA#4 then .dropA (lowNibble b)
  else if highNibble b = 0xD#4 then .dropD (lowNibble b)
  else if highNibble b = 0xE#4 then .dropE (lowNibble b)
  else .dropSys (lowNibble b)

/-- An accepted three-byte or two-byte frame with its operands (R102, R105, R163 to R167). The
second data byte of a ProgramChange is not looked at. -/
def frameOf (cfg : Config) (t : FrameType) (ch : Nibble) (d1 d2 : Byte) : Instr :=
  match t with
  | .noteOff => .noteOff ch d1 d2
  | .noteOn => if d2 = 0#8 then .noteOnV0 ch d1 else .noteOn ch d1 d2
  | .controlChange =>
    if d1 = ccVolumeNumber cfg then .ccVolume ch d2
    else if d1 = ccPanicNumber cfg then .ccPanic ch d2
    else .ccOther ch d1 d2
  | .programChange => .prog ch d1

/-- The data check of DATA_CHECK = strict (R170): true where a data byte has bit 7 = 1. -/
def badData (dc : DataCheck) (d : Byte) : Bool :=
  match dc with
  | .strict => bit7 d
  | .none => false

/-- The tests of R161 behind a recognized status byte, in their normative order: enough bytes (R169), the
data check (R170), the frame. -/
def decodeFrame (cfg : Config) (t : FrameType) (ch : Nibble) (rest : List Byte) : Instr :=
  match t, rest with
  | .programChange, [] => .wait .programChange ch none
  | .programChange, d1 :: _ =>
    if badData cfg.dataCheck d1 then .dropBadData .programChange ch d1 0#8
    else frameOf cfg .programChange ch d1 0#8
  | t, [] => .wait t ch none
  | t, [d1] => .wait t ch (some d1)
  | t, d1 :: d2 :: _ =>
    if badData cfg.dataCheck d1 || badData cfg.dataCheck d2 then .dropBadData t ch d1 d2
    else frameOf cfg t ch d1 d2

/-- The instruction at the head of the parser's buffer (R105, R161). Total on every byte sequence; only
the empty one has none. -/
def decodeMidi (cfg : Config) (bs : List Byte) : Except Reject Instr :=
  match bs with
  | [] => .error .emptyBuffer
  | b :: rest =>
    match frameTypeOf (highNibble b) with
    | none => .ok (dropOf b)
    | some t => .ok (decodeFrame cfg t (lowNibble b) rest)

/-- The two bytes of a full slot read, low byte first (R110, R271); `none` on a short read (R272). -/
def rawPair (bs : List Byte) : Option (Byte × Byte) :=
  match bs with
  | lo :: hi :: _ => some (lo, hi)
  | _ => none

/-- The instruction a raw slot read holds (R110). -/
def decodeRaw (bs : List Byte) : Except Reject Instr :=
  match rawPair bs with
  | some p => .ok (.rawSample p.1 p.2)
  | none => .error .shortRead

/-- The event of a decoded instruction (R161, R163 to R168); `none` for every instruction that emits
none. -/
def eventOf (cfg : Config) (i : Instr) : Option MidiEvent :=
  match i with
  | .noteOff ch note _ => some (.noteOff ch note)
  | .noteOn ch note vel => some (.noteOn ch note vel)
  | .noteOnV0 ch note => some (.noteOff ch note)
  | .ccVolume ch value => some (.controlChange ch (ccVolumeNumber cfg) value)
  | .ccPanic ch value => some (.controlChange ch (ccPanicNumber cfg) value)
  | .ccOther ch controller value => some (.controlChange ch controller value)
  | .prog ch program => some (.programChange ch program)
  | .dropData _ | .dropA _ | .dropD _ | .dropE _ | .dropSys _ => none
  | .dropBadData _ _ _ _ => none
  | .wait _ _ _ => none
  | .rawSample _ _ => none
  | .linkOpen | .probeRead | .windowExpire | .classify | .sinkOpen => none
  | .ingestRead | .parseApply | .generate _ | .rawStep | .stop | .sinkFault => none

/-- The number of bytes of the parser's buffer that an instruction consumes (R161). -/
def consumedBy (i : Instr) : Nat :=
  match i with
  | .noteOff _ _ _ | .noteOn _ _ _ | .noteOnV0 _ _ => 3
  | .ccVolume _ _ | .ccPanic _ _ | .ccOther _ _ _ => 3
  | .prog _ _ => 2
  | .dropData _ | .dropA _ | .dropD _ | .dropE _ | .dropSys _ => 1
  | .dropBadData _ _ _ _ => 1
  | .wait _ _ _ => 0
  | .rawSample _ _ => 0
  | .linkOpen | .probeRead | .windowExpire | .classify | .sinkOpen => 0
  | .ingestRead | .parseApply | .generate _ | .rawStep | .stop | .sinkFault => 0

/-- `parse(buf)` (R161): the event, if any, and the number of bytes consumed. -/
def parse (cfg : Config) (bs : List Byte) : Option MidiEvent × Nat :=
  match decodeMidi cfg bs with
  | .ok i => (eventOf cfg i, consumedBy i)
  | .error _ => (none, 0)

/-- A status byte from its two nibbles (R100). -/
def statusByte (hi lo : Nibble) : Byte := hi ++ lo

/-- The bytes of an instruction in link order (R100, R105, R110). A transaction has no byte encoding
(R113). -/
def encode (cfg : Config) (i : Instr) : List Byte :=
  match i with
  | .noteOff ch note relvel => [statusByte 0x8#4 ch, note, relvel]
  | .noteOn ch note vel => [statusByte 0x9#4 ch, note, vel]
  | .noteOnV0 ch note => [statusByte 0x9#4 ch, note, 0#8]
  | .ccVolume ch value => [statusByte 0xB#4 ch, ccVolumeNumber cfg, value]
  | .ccPanic ch value => [statusByte 0xB#4 ch, ccPanicNumber cfg, value]
  | .ccOther ch controller value => [statusByte 0xB#4 ch, controller, value]
  | .prog ch program => [statusByte 0xC#4 ch, program]
  | .dropData b => [b.setWidth 8]
  | .dropA n => [statusByte 0xA#4 n]
  | .dropD n => [statusByte 0xD#4 n]
  | .dropE n => [statusByte 0xE#4 n]
  | .dropSys n => [statusByte 0xF#4 n]
  | .dropBadData .programChange ch d1 _ => [statusByte 0xC#4 ch, d1]
  | .dropBadData t ch d1 d2 => [statusByte (typeNibble t) ch, d1, d2]
  | .wait t ch none => [statusByte (typeNibble t) ch]
  | .wait t ch (some d1) => [statusByte (typeNibble t) ch, d1]
  | .rawSample lo hi => [lo, hi]
  | .linkOpen | .probeRead | .windowExpire | .classify | .sinkOpen => []
  | .ingestRead | .parseApply | .generate _ | .rawStep | .stop | .sinkFault => []

/-- The bytes of a table word: spec/opcode_table.json numbers a frame's bits with byte 0, the first on
the link, at the top (its rows' notes), and a byte the word does not reach is 0. -/
def tableBytes (nbits w : Nat) : List Byte :=
  (List.range (nbits / 8)).map (fun i => BitVec.ofNat 8 (w / 2 ^ (8 * (nbits / 8 - 1 - i)))) ++
    List.replicate (3 - nbits / 8) 0#8

/-- The instruction this decoder reads from a table word, under the reference DATA_CHECK
and controller numbers, whose masks the table shows. -/
def decodeTableWord (nbits w : Nat) : Option Instr :=
  if nbits / 8 = 0 then none
  else
    match decodeMidi Config.reference (tableBytes nbits w) with
    | .ok i => some i
    | .error _ => none

end Sys2Proof
end

