-- ==== Sys2Proof/WellFormed.lean ====
section
/-! DEFINITION. Which terms of Instr stand for an encoding (30_encoding.md rules R100 to R108,
41_parser.md rules R163 to R170): the operand ranges DATA_CHECK admits, and the conditions that keep
the rows of spec/opcode_table.json apart. -/

namespace Sys2Proof

/-- The well-formed instructions under a configuration: its DATA_CHECK and its two controller numbers. -/
def wellFormed (cfg : Config) (i : Instr) : Bool :=
  match i with
  | .noteOff _ note relvel => !badData cfg.dataCheck note && !badData cfg.dataCheck relvel
  | .noteOn _ note vel => !badData cfg.dataCheck note && !badData cfg.dataCheck vel && vel != 0#8
  | .noteOnV0 _ note => !badData cfg.dataCheck note
  | .ccVolume _ value => !badData cfg.dataCheck value
  | .ccPanic _ value => !badData cfg.dataCheck value && ccPanicNumber cfg != ccVolumeNumber cfg
  | .ccOther _ controller value =>
    !badData cfg.dataCheck controller && !badData cfg.dataCheck value &&
      controller != ccVolumeNumber cfg && controller != ccPanicNumber cfg
  | .prog _ program => !badData cfg.dataCheck program
  | .dropData _ | .dropA _ | .dropD _ | .dropE _ | .dropSys _ => true
  | .dropBadData .programChange _ d1 d2 => badData cfg.dataCheck d1 && d2 == 0#8
  | .dropBadData _ _ d1 d2 => badData cfg.dataCheck d1 || badData cfg.dataCheck d2
  | .wait .programChange _ d1 => d1 == none
  | .wait _ _ _ => true
  | .rawSample _ _ => true
  | .linkOpen | .probeRead | .windowExpire | .classify | .sinkOpen => true
  | .ingestRead | .parseApply | .generate _ | .rawStep | .stop | .sinkFault => true

/-- The instructions whose bytes the parser reads (the F3, F2, B1 and partial rows of the table). -/
def onMidiPath (i : Instr) : Bool :=
  match i with
  | .noteOff _ _ _ | .noteOn _ _ _ | .noteOnV0 _ _ => true
  | .ccVolume _ _ | .ccPanic _ _ | .ccOther _ _ _ => true
  | .prog _ _ => true
  | .dropData _ | .dropA _ | .dropD _ | .dropE _ | .dropSys _ => true
  | .dropBadData _ _ _ _ => true
  | .wait _ _ _ => true
  | .rawSample _ _ => false
  | .linkOpen | .probeRead | .windowExpire | .classify | .sinkOpen => false
  | .ingestRead | .parseApply | .generate _ | .rawStep | .stop | .sinkFault => false

end Sys2Proof
end

