-- ==== Sys2Proof/Machine/State.lean ====
section
/-! DEFINITION. The state of MMS-CORE as plain data (10_state.md rules R30 to R49): the voice register
file, the pool and run-control registers, the input latches, the buffers; beside them the run's
configuration (R6), the environment that a deterministic step reads (the link, the draws, the schedule)
and the record of what the block hands out (sink blocks, calls of the two collaborators). -/

namespace Sys2Proof.Machine

/-- envelope_state (R32). -/
inductive Est where
  | attack
  | sustain
  | release
  deriving DecidableEq, Repr, Inhabited

/-- MODE, the ProtocolMode register (R36). -/
inductive Mode where
  | undecided
  | midi
  | rawAudio
  deriving DecidableEq, Repr, Inhabited

/-- RUN_STATE (R37). -/
inductive RunState where
  | init
  | probing
  | starting
  | running
  | stopped
  | failed
  deriving DecidableEq, Repr, Inhabited

/-- ING, the ingestion phase (R46). -/
inductive Ing where
  | read
  | parse
  deriving DecidableEq, Repr, Inhabited

/-- One voice slot V[i] (R31). -/
structure Voice where
  note : Byte
  freq : F64
  vel : F64
  phase : F64
  env : F64
  est : Est
  active : Bool
  rsl : F64
  deriving DecidableEq, Repr, Inhabited

/-- The calls made to the ByteSource and the AudioSink besides reads and blocks (R309, R318, R342,
R343). -/
inductive HostCall where
  /-- the open of the ByteSource (R342) -/
  | openLink
  /-- `open(sampleRate, channels, format=int16, blockSizeFrames, latencyHint)` of the sink (R343) -/
  | openSink (sampleRate channels blockSizeFrames : Nat) (latencyHint : Int)
  /-- `registerCallback(GENERATE)` on the MIDI path (R343) -/
  | registerCallback
  /-- stop and close the audio stream (R309) -/
  | closeSink
  /-- close the link (R309) -/
  | closeLink
  deriving DecidableEq, Repr, Inhabited

/-- No step of MMS-CORE ends in a machine fault: every input byte has a defined result (R325), and a
fatal cause is a next state with RUN_STATE = FAILED (R306). The type has no constructor, so nobody raises
one; a claim that leans on this is safe, because R325 says so. -/
inductive Fault where
  deriving DecidableEq, Repr

/-- Why the model gives a step no meaning. -/
inductive Refusal where
  /-- Raised by an arm of `exec` whose instruction has no meaning in this model. No arm raises it. Safe: a
  claim about the instruction is unprovable. -/
  | notModelled (mnemonic : String)
  /-- Raised by `step` in a state whose configuration R7 does not admit (R324: such a configuration "has no
  run"). Safe: the spec gives it no meaning either. -/
  | configNotAdmitted
  deriving DecidableEq, Repr

/-- What the link has yet to deliver (R71): these bytes, in link order; then, for an unbounded link, bytes
without end, which are the free values Config.freeByte from index `free` on; a finite link has no `free`. -/
structure Link where
  bytes : List Byte
  free : Option Nat
  deriving DecidableEq, Repr, Inhabited

/-- The state of R30, in its order, then the configuration and the model's own fields. -/
structure State where
  /-- V[0..MAX_VOICES−1] (R31) -/
  voices : List Voice
  /-- VOLUME (R35) -/
  volume : F64
  /-- RUN_STATE (R37) -/
  runState : RunState
  /-- MODE (R36) -/
  mode : Mode
  /-- FAULT_CAUSE, a u8 (R38) -/
  faultCause : Byte
  /-- LINK_OPEN (R39) -/
  linkOpen : Bool
  /-- SINK_OPEN (R39) -/
  sinkOpen : Bool
  /-- STOP_REQ (R43) -/
  stopReq : Bool
  /-- WINDOW_EXPIRED (R43) -/
  windowExpired : Bool
  /-- PBUF (R45) -/
  pbuf : List Byte
  /-- ING (R46) -/
  ing : Ing
  /-- PROBE_BUF (R47) -/
  probeBuf : List Byte
  /-- The configuration of the run (R6); no step writes it (R41). -/
  cfg : Config
  /-- What the link has yet to deliver, in link order (R71). -/
  link : Link
  /-- The draws of the coming LinkReads, first next (R72); when it is empty a draw is free. -/
  readDraws : List ReadDraw
  /-- The draws of the coming opens, first next (R313); when it is empty a draw is free. -/
  openDraws : List OpenDraw
  /-- The steps the scheduler fires next (R321); when it is empty the choice is free. -/
  schedule : List Txn
  /-- The MODEL's own counter: the index of the next free value of Config. -/
  oracle : Nat
  /-- The MODEL's own field for the local value `s` of a RAW_STEP in progress (R48, R270): the samples
  its slots have decoded so far. It is empty between steps. -/
  rawBlock : List Sample
  /-- The blocks delivered to the sink, oldest first (R78, R353). -/
  sink : List Block
  /-- The other calls made to the two collaborators, oldest first (R309, R318, R342, R343). -/
  calls : List HostCall
  deriving DecidableEq, Repr

/-- A voice slot at reset (R49). Its `est` is unspecified there ("a model may pick any of the three
codes"): ATTACK is a DESIGN CHOICE (notes/assumptions/3.md, unsafe). -/
def Voice.reset : Voice where
  note := 0#8
  freq := 0#64
  vel := 0#64
  phase := 0#64
  env := 0#64
  est := .attack
  active := false
  rsl := 0#64

/-- The machine right after reset under a configuration (R49, R340): nothing delivered, nothing drawn,
nothing scheduled, and a link without end of which no byte is known (notes/assumptions/6.md). -/
def State.resetWith (cfg : Config) : State where
  voices := List.replicate cfg.maxVoices Voice.reset
  volume := cfg.volumeReset
  runState := .init
  mode := .undecided
  faultCause := 0#8
  linkOpen := false
  sinkOpen := false
  stopReq := false
  windowExpired := false
  pbuf := []
  ing := .read
  probeBuf := []
  cfg := cfg
  link := { bytes := [], free := some 0 }
  readDraws := []
  openDraws := []
  schedule := []
  oracle := 0
  rawBlock := []
  sink := []
  calls := []

/-- The machine right after reset under the reference configuration. -/
def State.reset : State := State.resetWith Config.reference

end Sys2Proof.Machine
end

