-- ==== Sys2Proof/Machine/Flags.lean ====
section
/-! DEFINITION. The conditions that decide what can happen: which configurations are admitted
(00_scope.md rule R7), which step is enabled in which state (60_exceptions.md rule R321), what is terminal
(rule R310), and what the status registers show the host (10_state.md rule R32, 60_exceptions.md
rules R302, R311). -/

namespace Sys2Proof.Machine

/-- The ranges R6's type column gives the parameters that R7 does not name again. -/
def configTyped (c : Config) : Bool :=
  decide (1 ≤ c.sourceRate) && decide (1 ≤ c.blockFrames) && decide (c.exitFail ≠ 0)

/-- The admitted configurations (R7). R7 sets no upper bound on ATTACK_SAMPLES and RELEASE_SAMPLES, so
neither does the model; what i2f gives of one that is at least 2^53 is its own choice
(notes/assumptions/22.md). -/
def configAdmitted (c : Config) : Bool :=
  decide (1 ≤ c.maxVoices) && decide (1 ≤ c.sampleRate) && decide (1 ≤ c.attackSamples) &&
    decide (1 ≤ c.releaseSamples) && decide (1 ≤ c.upsampleRatio) && decide (1 ≤ c.blockSamples) &&
    decide (1 ≤ c.readChunk) && decide (c.sampleRate < 2 ^ 53) &&
    decide (c.sourceRate * c.upsampleRatio < 2 ^ 53) && configTyped c

/-- STOPPED and FAILED are terminal (R310). -/
def terminal (s : State) : Bool := s.runState == .stopped || s.runState == .failed

/-- LINK_OPEN is enabled (R321, R342). -/
def linkOpenEnabled (s : State) : Bool := s.runState == .init

/-- PROBE_READ is enabled (R321, R140). -/
def probeReadEnabled (s : State) : Bool :=
  s.runState == .probing && decide (s.probeBuf.length < s.cfg.probeMax) && !s.windowExpired

/-- WINDOW_EXPIRE is enabled (R321, R141). -/
def windowExpireEnabled (s : State) : Bool := s.runState == .probing && !s.windowExpired

/-- CLASSIFY is enabled (R321, R147). -/
def classifyEnabled (s : State) : Bool :=
  s.runState == .probing && (decide (s.probeBuf.length = s.cfg.probeMax) || s.windowExpired)

/-- SINK_OPEN is enabled (R321, R343). -/
def sinkOpenEnabled (s : State) : Bool := s.runState == .starting

/-- INGEST_READ is enabled (R321, R160). -/
def ingestReadEnabled (s : State) : Bool :=
  s.mode == .midi && s.runState == .running && s.ing == .read

/-- PARSE_APPLY is enabled (R321, R162). -/
def parseApplyEnabled (s : State) : Bool :=
  s.mode == .midi && s.runState == .running && s.ing == .parse

/-- GENERATE is enabled (R321, R238). -/
def generateEnabled (s : State) : Bool := s.mode == .midi && s.runState == .running && s.sinkOpen

/-- RAW_STEP is enabled (R321, R270). -/
def rawStepEnabled (s : State) : Bool :=
  s.mode == .rawAudio && s.runState == .running && s.sinkOpen

/-- SINK_FAULT is enabled (R321, R307). -/
def sinkFaultEnabled (s : State) : Bool := s.runState == .running

/-- STOP is enabled (R321, R308). -/
def stopEnabled (s : State) : Bool := !terminal s

/-- The enabling condition of a step (R321). -/
def enabled (t : Txn) (s : State) : Bool :=
  match t with
  | .linkOpen => linkOpenEnabled s
  | .probeRead => probeReadEnabled s
  | .windowExpire => windowExpireEnabled s
  | .classify => classifyEnabled s
  | .sinkOpen => sinkOpenEnabled s
  | .ingestRead => ingestReadEnabled s
  | .parseApply => parseApplyEnabled s
  | .generate _ => generateEnabled s
  | .rawStep => rawStepEnabled s
  | .stop => stopEnabled s
  | .sinkFault => sinkFaultEnabled s

/-- The codes of est (R32). Code 3 is never written. -/
def estCode (e : Est) : BitVec 2 :=
  match e with
  | .attack => 0#2
  | .sustain => 1#2
  | .release => 2#2

/-- Cause code NONE (R302). -/
def causeNone : Byte := 0#8
/-- Cause code LINK_OPEN_FAIL (R302, R303). -/
def causeLinkOpenFail : Byte := 1#8
/-- Cause code DEVICE_OPEN_FAIL (R302, R304). -/
def causeDeviceOpenFail : Byte := 2#8
/-- Cause code LINK_ERROR (R302, R305). -/
def causeLinkError : Byte := 3#8
/-- Cause code SINK_ERROR (R302, R307). -/
def causeSinkError : Byte := 4#8

/-- The exit status reported after a terminal state (R311); `none` while the run goes on. -/
def exitStatus (s : State) : Option Int :=
  match s.runState with
  | .stopped => some 0
  | .failed => some s.cfg.exitFail
  | .init | .probing | .starting | .running => none

end Sys2Proof.Machine
end

