-- ==== Sys2Proof/Machine/Ops.lean ====
section
/-! DEFINITION. The operations the steps share: the choice of the next step (60_exceptions.md rule R321),
the draws (rule R313), LinkRead and SinkWrite (20_memory.md rules R72, R78), the removal of parsed
bytes (41_parser.md rule R162), and the fatal sequence with its teardown (60_exceptions.md rules
R306, R309). A fatal condition has no return (rule R310), so there is none beside it. -/

namespace Sys2Proof.Machine

/-- The instruction that a scheduled step runs. -/
def txnInstr (t : Txn) : Instr :=
  match t with
  | .linkOpen => .linkOpen
  | .probeRead => .probeRead
  | .windowExpire => .windowExpire
  | .classify => .classify
  | .sinkOpen => .sinkOpen
  | .ingestRead => .ingestRead
  | .parseApply => .parseApply
  | .generate n => .generate n
  | .rawStep => .rawStep
  | .stop => .stop
  | .sinkFault => .sinkFault

/-- The scheduler's choice (R321): the next scripted step, or a free one. -/
def nextTxn (s : State) : Txn × State :=
  match s.schedule with
  | t :: ts => (t, { s with schedule := ts })
  | [] => (Config.freeTxn s.oracle, { s with oracle := s.oracle + 1 })

/-- The draw of a LinkRead (R72, R313): the next scripted one, or a free one. -/
def nextRead (s : State) : ReadDraw × State :=
  match s.readDraws with
  | d :: ds => (d, { s with readDraws := ds })
  | [] => (Config.freeRead s.oracle, { s with oracle := s.oracle + 1 })

/-- The draw of an open (R313): the next scripted one, or a free one. -/
def nextOpen (s : State) : OpenDraw × State :=
  match s.openDraws with
  | d :: ds => (d, { s with openDraws := ds })
  | [] => (Config.freeOpen s.oracle, { s with oracle := s.oracle + 1 })

/-- The next `k` bytes of the link (R71); fewer where a finite link holds fewer. -/
def Link.take (l : Link) (k : Nat) : List Byte :=
  match l.free with
  | none => l.bytes.take k
  | some p => l.bytes.take k ++ (List.range (k - l.bytes.length)).map (fun j => Config.freeByte (p + j))

/-- The link after its next `k` bytes (R71). A free byte's index is never used again. -/
def Link.drop (l : Link) (k : Nat) : Link :=
  match l.free with
  | none => { bytes := l.bytes.drop k, free := none }
  | some p => { bytes := l.bytes.drop k, free := some (p + (k - l.bytes.length)) }

/-- The next `k` bytes of the link, cut to `max`, leave it for good (R71, R72). -/
def deliver (max k : Nat) (s : State) : List Byte × State :=
  (s.link.take (min k max), { s with link := s.link.drop (min k max) })

/-- `LinkRead(max)` (R72). -/
def linkRead (max : Nat) (s : State) : ReadResult × State :=
  match nextRead s with
  | (.err, s1) => (.err, s1)
  | (.ok k, s1) => (.ok (deliver max k s1).1, (deliver max k s1).2)

/-- `SinkWrite(block)` (R78): the block is delivered whole, after every earlier one. -/
def sinkWrite (b : Block) (s : State) : State := { s with sink := s.sink ++ [b] }

/-- A call of a collaborator, recorded after every earlier one (R318). -/
def record (c : HostCall) (s : State) : State := { s with calls := s.calls ++ [c] }

/-- TEARDOWN (R309): the sink, then the link, each if it is open. -/
def teardown (s : State) : State :=
  let s1 := if s.sinkOpen then { record .closeSink s with sinkOpen := false } else s
  if s1.linkOpen then { record .closeLink s1 with linkOpen := false } else s1

/-- The fatal sequence `Fatal(c)` (R306). -/
def fatal (c : Byte) (s : State) : State :=
  { teardown { s with faultCause := c } with runState := .failed }

/-- The bytes a parse consumed leave the head of PBUF (R162). -/
def consume (k : Nat) (s : State) : State := { s with pbuf := s.pbuf.drop k }

/-- What PARSE_APPLY does with a decoded instruction (R162): its bytes leave PBUF and its effect happens,
in one step, where that step is enabled (R321); elsewhere nothing is parsed. -/
def onFrame (k : Nat) (act : State → State) (s : State) : State :=
  if parseApplyEnabled s then act (consume k s) else s

end Sys2Proof.Machine
end

