-- ==== Sys2Proof/Machine/Detector.lean ====
section
/-! DEFINITION. The protocol detector (40_detector.md): the probe, the end of its window, the
classification, and the one-time decision. -/

namespace Sys2Proof.Machine

/-- A triplet start of the pattern test (R142, R143). -/
def patternAt (p : List Byte) (i : Nat) : Bool :=
  (highNibble (p.getD i 0#8) == 0x9#4 || highNibble (p.getD i 0#8) == 0x8#4 ||
    highNibble (p.getD i 0#8) == 0xB#4) &&
    decide ((p.getD (i + 1) 0#8).toNat ≤ 0x7F) && decide ((p.getD (i + 2) 0#8).toNat ≤ 0x7F)

/-- midiPatterns (R143): every overlapping triplet start 0..L−3. -/
def midiPatterns (p : List Byte) : Nat := (List.range (p.length - 2)).countP (patternAt p)

/-- audioLike (R144): the bytes above 0x7F at odd offsets from the first probe byte. -/
def audioLike (p : List Byte) : Nat :=
  (List.range p.length).countP (fun i => i % 2 == 1 && decide (0x7F < (p.getD i 0#8).toNat))

/-- `classify(P)` (R142), its tests in the order of R145. -/
def classify (cfg : Config) (p : List Byte) : Mode :=
  if p.length < cfg.probeMin then .midi
  else if cfg.midiPatternMin ≤ midiPatterns p then .midi
  else if p.length < audioLike p * cfg.audioDivisor then .rawAudio
  else .midi

/-- PROBE_READ (R140). -/
def execProbeRead (s : State) : Host.Outcome State Fault Refusal :=
  if probeReadEnabled s then
    match linkRead (s.cfg.probeMax - s.probeBuf.length) s with
    | (.err, s1) => .next (fatal causeLinkError s1)
    | (.ok bs, s1) => .next { s1 with probeBuf := s1.probeBuf ++ bs }
  else .next s

/-- WINDOW_EXPIRE (R141): no effect outside PROBING. -/
def execWindowExpire (s : State) : Host.Outcome State Fault Refusal :=
  .next (if windowExpireEnabled s then { s with windowExpired := true } else s)

/-- CLASSIFY (R147). -/
def execClassify (s : State) : Host.Outcome State Fault Refusal :=
  .next
    (if classifyEnabled s then
      { s with mode := classify s.cfg s.probeBuf, probeBuf := [], runState := .starting }
    else s)

end Sys2Proof.Machine
end

