-- ==== Sys2Proof/Machine/Float64.lean ====
section
/-! DEFINITION. Binary64 arithmetic (00_scope.md rules R12 to R14): every operation computes its exact
result in integers and rounds it once, to nearest with ties to even. A finite pattern is an integer
number of quanta, one quantum being 2^-1074, the least positive value; an infinity counts as 2^2098 quanta,
above every finite pattern. -/

namespace Sys2Proof.Machine

/-- The number of quanta in 1.0: 2^1074. -/
def quantaPerOne : Nat := 2 ^ 1074

/-- The biased exponent field. -/
def expField (x : F64) : Nat := x.toNat / 2 ^ 52 % 2048

/-- The fraction field. -/
def fracField (x : F64) : Nat := x.toNat % 2 ^ 52

/-- The sign bit. -/
def signBit (x : F64) : Bool := x.msb

/-- The pattern is a NaN. -/
def isNaN (x : F64) : Bool := expField x == 2047 && fracField x != 0

/-- The pattern is an infinity. -/
def isInf (x : F64) : Bool := expField x == 2047 && fracField x == 0

/-- The pattern encodes a real number. -/
def isFinite (x : F64) : Bool := expField x != 2047

/-- The magnitude in quanta: subnormals have no hidden bit. -/
def mag (x : F64) : Nat :=
  if expField x = 0 then fracField x else (2 ^ 52 + fracField x) * 2 ^ (expField x - 1)

/-- The signed value in quanta; +0.0 and −0.0 are both 0. -/
def quanta (x : F64) : Int := if signBit x then -(mag x : Int) else (mag x : Int)

/-- `x < y` on values (R13). A NaN encodes no value; the comparison is then false: DESIGN CHOICE
(notes/assumptions/24.md, unsafe), as it is for `fle` and `feq`. -/
def flt (x y : F64) : Bool := !isNaN x && !isNaN y && decide (quanta x < quanta y)

/-- `x ≤ y` on values (R13); false on a NaN (notes/assumptions/24.md). -/
def fle (x y : F64) : Bool := !isNaN x && !isNaN y && decide (quanta x ≤ quanta y)

/-- `x = y` on values (R13): +0.0 and −0.0 compare equal; false on a NaN (notes/assumptions/24.md). -/
def feq (x y : F64) : Bool := !isNaN x && !isNaN y && decide (quanta x = quanta y)

/-- `num / den` rounded to an integer, to nearest with ties to even (R12). -/
def roundNearestEven (num den : Nat) : Nat :=
  if den < 2 * (num % den) ∨ (den = 2 * (num % den) ∧ num / den % 2 = 1) then num / den + 1
  else num / den

/-- The exponent shift of a value of `num / den` quanta: how many low bits of it lie below the 53 bits of
a significand. -/
def roundShift (num den : Nat) : Nat := Nat.log2 (num / den) - 52

/-- The magnitude bits of the pattern nearest to `num / den` quanta (R12). The significand carries its
hidden bit into the exponent field, which makes the subnormal, normal and carry cases one sum; a value
past the greatest finite pattern rounds to infinity. -/
def roundMag (num den : Nat) : Nat :=
  min (2 ^ 52 * roundShift num den + roundNearestEven num (den * 2 ^ roundShift num den))
    (2047 * 2 ^ 52)

/-- The pattern nearest to `num / den` quanta, with a sign (R12). -/
def roundQ (neg : Bool) (num den : Nat) : F64 :=
  BitVec.ofNat 64 (if neg then 2 ^ 63 + roundMag num den else roundMag num den)

/-- A signed infinity. -/
def fInf (neg : Bool) : F64 := if neg then 0xFFF0000000000000#64 else 0x7FF0000000000000#64

/-- A quiet NaN whose sign and payload are free (notes/assumptions/8.md): R13 says none arises from
admitted inputs. -/
def fNaN (op : Nat) (x y : F64) : F64 :=
  (Config.nanBits op x y).extractLsb' 51 1 ++ 0xFFF#12 ++ (Config.nanBits op x y).extractLsb' 0 51

/-- The same pattern with the other sign. -/
def fneg (x : F64) : F64 := x ^^^ 0x8000000000000000#64

/-- fadd (R12, R13). An exact zero sum is +0.0 unless both operands are −0.0. -/
def fadd (x y : F64) : F64 :=
  if isNaN x || isNaN y then fNaN 0 x y
  else if isInf x then (if isInf y && (signBit x != signBit y) then fNaN 0 x y else x)
  else if isInf y then y
  else if quanta x + quanta y = 0 then roundQ (signBit x && signBit y) 0 1
  else roundQ (decide (quanta x + quanta y < 0)) (quanta x + quanta y).natAbs 1

/-- fsub (R12, R13). -/
def fsub (x y : F64) : F64 := fadd x (fneg y)

/-- fmul (R12, R13). -/
def fmul (x y : F64) : F64 :=
  if isNaN x || isNaN y then fNaN 1 x y
  else if isInf x || isInf y then
    (if mag x = 0 ∨ mag y = 0 then fNaN 1 x y else fInf (signBit x != signBit y))
  else roundQ (signBit x != signBit y) (mag x * mag y) quantaPerOne

/-- fdiv (R12, R13). -/
def fdiv (x y : F64) : F64 :=
  if isNaN x || isNaN y then fNaN 2 x y
  else if isInf x then (if isInf y then fNaN 2 x y else fInf (signBit x != signBit y))
  else if isInf y then roundQ (signBit x != signBit y) 0 1
  else if mag y = 0 then (if mag x = 0 then fNaN 2 x y else fInf (signBit x != signBit y))
  else roundQ (signBit x != signBit y) (quantaPerOne * mag x) (mag y)

/-- `i2f(n)` (R13), exact for |n| < 2^53. R13 says R7 guarantees that for every use, but R7 does not bound
ATTACK_SAMPLES and RELEASE_SAMPLES (R195, R197). From 2^53 on, where R13 states no result for an n that no
F64 equals, the model rounds n once, to nearest with ties to even, and past the greatest finite value to
an infinity: DESIGN CHOICE (notes/assumptions/22.md, unsafe). -/
def i2f (n : Int) : F64 := roundQ (decide (n < 0)) (quantaPerOne * n.natAbs) 1

/-- `fmod(x, y)` for finite x ≥ 0 and y > 0 (R13): the exact remainder, which is always representable.
The rule states no result outside that domain; there it is free (notes/assumptions/8.md). -/
def fmod (x y : F64) : F64 :=
  if isFinite x && isFinite y && decide (0 ≤ quanta x) && decide (0 < quanta y) then
    roundQ (signBit x) (mag x % mag y) 1
  else Config.fmodUnstated x y

/-- `fmax(x, y)` (R13): the larger of the two. With a NaN operand, for which R13 states no result, it is the
first operand: DESIGN CHOICE (notes/assumptions/24.md, unsafe). -/
def fmax (x y : F64) : F64 := if flt x y then y else x

/-- `f2i_trunc(x)` (R13): the integer part, rounded toward zero. An infinity gives ±2^1024, past every
finite value, so that clipping it saturates (R240 clips before or after truncation alike; DEDUCED,
notes/assumptions/8.md); a NaN is free. -/
def f2iTrunc (x : F64) : Int :=
  if isNaN x then Config.nanToInt x
  else if signBit x then -((mag x / quantaPerOne : Nat) : Int)
  else ((mag x / quantaPerOne : Nat) : Int)

/-- PI (R14). -/
def fPI : F64 := 0x400921FB54442D18#64
/-- TWO_PI (R14). -/
def fTWO_PI : F64 := 0x401921FB54442D18#64
/-- FULL_SCALE, 32767.0 (R14). -/
def fFULL_SCALE : F64 := 0x40DFFFC000000000#64
/-- A4_FREQ, 440.0 (R14). -/
def fA4_FREQ : F64 := 0x407B800000000000#64
/-- ONE, 1.0 (R14). -/
def fONE : F64 := 0x3FF0000000000000#64
/-- ZERO, +0.0 (R14). -/
def fZERO : F64 := 0x0000000000000000#64
/-- F127, 127.0 (R14). -/
def f127 : F64 := 0x405FC00000000000#64
/-- F12, 12.0 (R14). -/
def f12 : F64 := 0x4028000000000000#64
/-- A4_NOTE (R6). -/
def a4Note : Int := 69

/-- The fractional bits of the fixed-point numbers that `pow2Cr` works with. -/
def pow2Precision : Nat := 192

/-- Newton's iteration for an integer square root, from above. -/
def isqrtFrom : Nat → Nat → Nat → Nat
  | 0, _, x => x
  | fuel + 1, n, x => isqrtFrom fuel n (min x ((x + n / x) / 2))

/-- 2^f in fixed point, for a fraction `f` in quanta: each binary digit of `f` multiplies in one more
repeated square root of 2. -/
def pow2Frac : Nat → Nat → Nat → Nat → Nat
  | 0, _, acc, _ => acc
  | fuel + 1, c, acc, f =>
    if f = 0 then acc
    else
      pow2Frac fuel
        (isqrtFrom 12 (c * 2 ^ pow2Precision) (2 ^ (pow2Precision + 1)))
        (if quantaPerOne ≤ 2 * f then
          acc * isqrtFrom 12 (c * 2 ^ pow2Precision) (2 ^ (pow2Precision + 1)) / 2 ^ pow2Precision
        else acc)
        (2 * f % quantaPerOne)

/-- `pow2_cr(t)` (R13): the pattern nearest to 2^t, for finite t. The rule uses it only to define the
normative FREQ table (R191). It is computed from 128 binary digits of t's fraction at 192 bits, which
bounds its error far below a rounding boundary on that table's arguments (DEDUCED,
notes/assumptions/9.md). -/
def pow2Cr (t : F64) : F64 :=
  let i := quanta t / (quantaPerOne : Int)
  let y := pow2Frac 128 (2 ^ (pow2Precision + 1)) (2 ^ pow2Precision)
    (quanta t % (quantaPerOne : Int)).toNat
  roundQ false (y * 2 ^ (i + 1074).toNat) (2 ^ (pow2Precision + (-(i + 1074)).toNat))

end Sys2Proof.Machine
end

