-- ==== Sys2Proof/Machine/FreqTable.lean ====
section
/-! DEFINITION. The FREQ table (42_voice.md rule R191): 256 binary64 patterns, normative, copied entry by
entry from the table at the end of that file. -/

namespace Sys2Proof.Machine

/-- FREQ[0..31] (R191). -/
def freqTable0 : List F64 :=
  [0x40205A0250C2B956#64, 0x402152EC0E758E6F#64, 0x40225AA2E3AF0B22#64, 0x4023720820155764#64,
   0x40249A0A791E127A#64, 0x4025D3A6D600CABD#64, 0x40271FE927CA0DE9#64, 0x40287FED4E47ADFE#64,
   0x4029F4E00A91D08F#64, 0x402B800000000000#64, 0x402D229EC465C8A0#64, 0x402EDE22007F791C#64,
   0x40305A0250C2B956#64, 0x403152EC0E758E6F#64, 0x40325AA2E3AF0B22#64, 0x4033720820155764#64,
   0x40349A0A791E127A#64, 0x4035D3A6D600CABD#64, 0x40371FE927CA0DE9#64, 0x40387FED4E47ADFE#64,
   0x4039F4E00A91D08F#64, 0x403B800000000000#64, 0x403D229EC465C8A2#64, 0x403EDE22007F7918#64,
   0x40405A0250C2B956#64, 0x404152EC0E758E6F#64, 0x40425AA2E3AF0B20#64, 0x4043720820155764#64,
   0x40449A0A791E127C#64, 0x4045D3A6D600CABC#64, 0x40471FE927CA0DE9#64, 0x40487FED4E47AE00#64]

/-- FREQ[32..63] (R191). -/
def freqTable1 : List F64 :=
  [0x4049F4E00A91D08E#64, 0x404B800000000000#64, 0x404D229EC465C8A2#64, 0x404EDE22007F7918#64,
   0x40505A0250C2B956#64, 0x405152EC0E758E6F#64, 0x40525AA2E3AF0B20#64, 0x4053720820155764#64,
   0x40549A0A791E127C#64, 0x4055D3A6D600CABC#64, 0x40571FE927CA0DE9#64, 0x40587FED4E47AE00#64,
   0x4059F4E00A91D08E#64, 0x405B800000000000#64, 0x405D229EC465C8A2#64, 0x405EDE22007F791A#64,
   0x40605A0250C2B956#64, 0x406152EC0E758E6F#64, 0x40625AA2E3AF0B21#64, 0x4063720820155764#64,
   0x40649A0A791E127B#64, 0x4065D3A6D600CABC#64, 0x40671FE927CA0DE9#64, 0x40687FED4E47ADFF#64,
   0x4069F4E00A91D08E#64, 0x406B800000000000#64, 0x406D229EC465C8A2#64, 0x406EDE22007F791A#64,
   0x40705A0250C2B956#64, 0x407152EC0E758E6F#64, 0x40725AA2E3AF0B21#64, 0x4073720820155764#64]

/-- FREQ[64..95] (R191). -/
def freqTable2 : List F64 :=
  [0x40749A0A791E127B#64, 0x4075D3A6D600CABC#64, 0x40771FE927CA0DE9#64, 0x40787FED4E47ADFF#64,
   0x4079F4E00A91D08E#64, 0x407B800000000000#64, 0x407D229EC465C8A2#64, 0x407EDE22007F791A#64,
   0x40805A0250C2B956#64, 0x408152EC0E758E6F#64, 0x40825AA2E3AF0B21#64, 0x4083720820155764#64,
   0x40849A0A791E127B#64, 0x4085D3A6D600CABC#64, 0x40871FE927CA0DE9#64, 0x40887FED4E47ADFF#64,
   0x4089F4E00A91D08E#64, 0x408B800000000000#64, 0x408D229EC465C8A2#64, 0x408EDE22007F791A#64,
   0x40905A0250C2B956#64, 0x409152EC0E758E6F#64, 0x40925AA2E3AF0B21#64, 0x4093720820155764#64,
   0x40949A0A791E127B#64, 0x4095D3A6D600CABC#64, 0x40971FE927CA0DE9#64, 0x40987FED4E47ADFF#64,
   0x4099F4E00A91D08E#64, 0x409B800000000000#64, 0x409D229EC465C8A2#64, 0x409EDE22007F7918#64]

/-- FREQ[96..127] (R191). -/
def freqTable3 : List F64 :=
  [0x40A05A0250C2B956#64, 0x40A152EC0E758E6F#64, 0x40A25AA2E3AF0B20#64, 0x40A3720820155764#64,
   0x40A49A0A791E127C#64, 0x40A5D3A6D600CABC#64, 0x40A71FE927CA0DE9#64, 0x40A87FED4E47AE00#64,
   0x40A9F4E00A91D08E#64, 0x40AB800000000000#64, 0x40AD229EC465C8A2#64, 0x40AEDE22007F7918#64,
   0x40B05A0250C2B956#64, 0x40B152EC0E758E6F#64, 0x40B25AA2E3AF0B20#64, 0x40B3720820155764#64,
   0x40B49A0A791E127C#64, 0x40B5D3A6D600CABC#64, 0x40B71FE927CA0DE9#64, 0x40B87FED4E47AE00#64,
   0x40B9F4E00A91D08E#64, 0x40BB800000000000#64, 0x40BD229EC465C8A0#64, 0x40BEDE22007F791C#64,
   0x40C05A0250C2B956#64, 0x40C152EC0E758E6F#64, 0x40C25AA2E3AF0B22#64, 0x40C3720820155764#64,
   0x40C49A0A791E127A#64, 0x40C5D3A6D600CABD#64, 0x40C71FE927CA0DE9#64, 0x40C87FED4E47ADFE#64]

/-- FREQ[128..159] (R191). -/
def freqTable4 : List F64 :=
  [0x40C9F4E00A91D08F#64, 0x40CB800000000000#64, 0x40CD229EC465C8A0#64, 0x40CEDE22007F791C#64,
   0x40D05A0250C2B956#64, 0x40D152EC0E758E6F#64, 0x40D25AA2E3AF0B22#64, 0x40D3720820155764#64,
   0x40D49A0A791E127A#64, 0x40D5D3A6D600CABD#64, 0x40D71FE927CA0DE9#64, 0x40D87FED4E47ADFE#64,
   0x40D9F4E00A91D08F#64, 0x40DB800000000000#64, 0x40DD229EC465C8A0#64, 0x40DEDE22007F791C#64,
   0x40E05A0250C2B956#64, 0x40E152EC0E758E6F#64, 0x40E25AA2E3AF0B22#64, 0x40E3720820155764#64,
   0x40E49A0A791E127A#64, 0x40E5D3A6D600CABD#64, 0x40E71FE927CA0DE9#64, 0x40E87FED4E47ADFE#64,
   0x40E9F4E00A91D08F#64, 0x40EB800000000000#64, 0x40ED229EC465C8A0#64, 0x40EEDE22007F791C#64,
   0x40F05A0250C2B956#64, 0x40F152EC0E758E6F#64, 0x40F25AA2E3AF0B22#64, 0x40F3720820155764#64]

/-- FREQ[160..191] (R191). -/
def freqTable5 : List F64 :=
  [0x40F49A0A791E127A#64, 0x40F5D3A6D600CABD#64, 0x40F71FE927CA0DE9#64, 0x40F87FED4E47ADFE#64,
   0x40F9F4E00A91D08F#64, 0x40FB800000000000#64, 0x40FD229EC465C8A6#64, 0x40FEDE22007F7917#64,
   0x41005A0250C2B956#64, 0x410152EC0E758E71#64, 0x41025AA2E3AF0B1F#64, 0x4103720820155764#64,
   0x41049A0A791E127E#64, 0x4105D3A6D600CABA#64, 0x41071FE927CA0DE9#64, 0x41087FED4E47AE03#64,
   0x4109F4E00A91D08B#64, 0x410B800000000000#64, 0x410D229EC465C8A6#64, 0x410EDE22007F7917#64,
   0x41105A0250C2B956#64, 0x411152EC0E758E71#64, 0x41125AA2E3AF0B1F#64, 0x4113720820155764#64,
   0x41149A0A791E127E#64, 0x4115D3A6D600CABA#64, 0x41171FE927CA0DE9#64, 0x41187FED4E47AE03#64,
   0x4119F4E00A91D08B#64, 0x411B800000000000#64, 0x411D229EC465C8A6#64, 0x411EDE22007F7917#64]

/-- FREQ[192..223] (R191). -/
def freqTable6 : List F64 :=
  [0x41205A0250C2B956#64, 0x412152EC0E758E71#64, 0x41225AA2E3AF0B1F#64, 0x4123720820155764#64,
   0x41249A0A791E127E#64, 0x4125D3A6D600CABA#64, 0x41271FE927CA0DE9#64, 0x41287FED4E47AE03#64,
   0x4129F4E00A91D08B#64, 0x412B800000000000#64, 0x412D229EC465C8A6#64, 0x412EDE22007F7917#64,
   0x41305A0250C2B956#64, 0x413152EC0E758E71#64, 0x41325AA2E3AF0B1F#64, 0x4133720820155764#64,
   0x41349A0A791E127E#64, 0x4135D3A6D600CABA#64, 0x41371FE927CA0DE9#64, 0x41387FED4E47AE03#64,
   0x4139F4E00A91D08B#64, 0x413B800000000000#64, 0x413D229EC465C8A6#64, 0x413EDE22007F7917#64,
   0x41405A0250C2B956#64, 0x414152EC0E758E71#64, 0x41425AA2E3AF0B1F#64, 0x4143720820155764#64,
   0x41449A0A791E127E#64, 0x4145D3A6D600CABA#64, 0x41471FE927CA0DE9#64, 0x41487FED4E47AE03#64]

/-- FREQ[224..255] (R191). -/
def freqTable7 : List F64 :=
  [0x4149F4E00A91D08B#64, 0x414B800000000000#64, 0x414D229EC465C8A6#64, 0x414EDE22007F7917#64,
   0x41505A0250C2B956#64, 0x415152EC0E758E71#64, 0x41525AA2E3AF0B1F#64, 0x4153720820155764#64,
   0x41549A0A791E127E#64, 0x4155D3A6D600CABA#64, 0x41571FE927CA0DE9#64, 0x41587FED4E47AE03#64,
   0x4159F4E00A91D08B#64, 0x415B800000000000#64, 0x415D229EC465C8A6#64, 0x415EDE22007F7917#64,
   0x41605A0250C2B956#64, 0x416152EC0E758E71#64, 0x41625AA2E3AF0B1F#64, 0x4163720820155764#64,
   0x41649A0A791E127E#64, 0x4165D3A6D600CABA#64, 0x41671FE927CA0DE9#64, 0x41687FED4E47AE03#64,
   0x4169F4E00A91D08B#64, 0x416B800000000000#64, 0x416D229EC465C8A6#64, 0x416EDE22007F7917#64,
   0x41705A0250C2B956#64, 0x417152EC0E758E71#64, 0x41725AA2E3AF0B1F#64, 0x4173720820155764#64]

/-- The whole table in note order (R191). -/
def freqTable : List F64 :=
  freqTable0 ++ freqTable1 ++ freqTable2 ++ freqTable3 ++
    freqTable4 ++ freqTable5 ++ freqTable6 ++ freqTable7

/-- FREQ[note] (R191), for every u8. -/
def freqOf (note : Byte) : F64 := freqTable.getD note.toNat fZERO

/-- The formula that defines an entry of the table (R191):
`440.0 × pow2_cr( i2f(n − 69) / 12.0 )`, each step rounded once. -/
def freqFormula (note : Byte) : F64 :=
  fmul fA4_FREQ (pow2Cr (fdiv (i2f ((note.toNat : Int) - a4Note)) f12))

end Sys2Proof.Machine
end

