-- ==== Sys2Proof/Machine/Operands.lean ====
section
/-! DEFINITION. From the bits of an operand to the value an operation uses: the normalisation of a velocity
or volume byte (42_voice.md rule R192, 43_pool.md rule R233), the assembly of a raw sample
(20_memory.md rule R74, 44_raw_resampler.md rules R273, R274), and the integer conversions of
00_scope.md rule R11. -/

namespace Sys2Proof.Machine

/-- `i2f(v) / 127.0`, one rounded division (R192, R233). -/
def normalise (v : Byte) : F64 := fdiv (i2f (v.toNat : Int)) f127

/-- `sext_16({hi, lo})` (R11, R74, R273). -/
def assembleSample (lo hi : Byte) : Sample :=
  if 32768 ≤ 256 * hi.toNat + lo.toNat then ((256 * hi.toNat + lo.toNat : Nat) : Int) - 65536
  else ((256 * hi.toNat + lo.toNat : Nat) : Int)

/-- The noise filter (R274): a magnitude above the limit becomes 0. -/
def noiseFilter (limit : Nat) (v : Sample) : Sample := if limit < v.natAbs then 0 else v

/-- The value of a slot whose read returned two bytes (R270, R273, R274). -/
def rawValue (limit : Nat) (lo hi : Byte) : Sample := noiseFilter limit (assembleSample lo hi)

/-- `clip(v, lo, hi)` (R11). -/
def clip (v lo hi : Int) : Int := min (max v lo) hi

/-- `trunc_div(a, b)` for `b > 0`: the quotient rounded toward zero (R11). -/
def truncDiv (a : Int) (b : Nat) : Int := if a < 0 then -((a.natAbs / b : Nat) : Int) else ((a.natAbs / b : Nat) : Int)

end Sys2Proof.Machine
end

