-- ==== Sys2Proof/Machine/Voice.lean ====
section
/-! DEFINITION. One voice slot (42_voice.md): note-on, note-off, kill, the envelope automaton, the sawtooth
oscillator, and a block of samples. -/

namespace Sys2Proof.Machine

/-- VOICE_NOTE_ON (R192). `phase` and `rsl` are not written. -/
def voiceNoteOn (note vel : Byte) (v : Voice) : Voice :=
  { v with
    note := note
    freq := freqOf note
    vel := normalise vel
    est := .attack
    env := fZERO
    active := true }

/-- VOICE_NOTE_OFF (R193). -/
def voiceNoteOff (v : Voice) : Voice :=
  if v.est = .release then v else { v with rsl := v.env, est := .release }

/-- VOICE_KILL (R205). -/
def voiceKill (v : Voice) : Voice := { v with active := false, env := fZERO }

/-- attack_update (R195). -/
def attackUpdate (cfg : Config) (v : Voice) : Voice :=
  let e := fadd v.env (fdiv fONE (i2f (cfg.attackSamples : Int)))
  if fle fONE e then { v with env := fONE, est := .sustain } else { v with env := e }

/-- sustain_update (R196). -/
def sustainUpdate (cfg : Config) (v : Voice) : Voice := { v with env := cfg.sustainLevel }

/-- release_update (R197). -/
def releaseUpdate (cfg : Config) (v : Voice) : Voice :=
  let e := fsub v.env (fdiv v.rsl (i2f (cfg.releaseSamples : Int)))
  if fle e fZERO then { v with env := fZERO, active := false } else { v with env := e }

/-- The envelope update of one sample (R194). -/
def envUpdate (cfg : Config) (v : Voice) : Voice :=
  match v.est with
  | .attack => attackUpdate cfg v
  | .sustain => sustainUpdate cfg v
  | .release => releaseUpdate cfg v

/-- The sawtooth `phase / PI − 1.0` (R198). -/
def waveform (v : Voice) : F64 := fsub (fdiv v.phase fPI) fONE

/-- The output of one sample, evaluated left to right (R199). -/
def voiceOut (cfg : Config) (v : Voice) : F64 :=
  fmul (fmul (fmul (waveform v) (fmax v.env fZERO)) v.vel) cfg.headroom

/-- The phase increment `(TWO_PI × freq) / i2f(SAMPLE_RATE)` (R200). -/
def phaseIncrement (cfg : Config) (v : Voice) : F64 :=
  fdiv (fmul fTWO_PI v.freq) (i2f (cfg.sampleRate : Int))

/-- The phase after one sample (R200). -/
def nextPhase (cfg : Config) (v : Voice) : F64 := fmod (fadd v.phase (phaseIncrement cfg v)) fTWO_PI

/-- VOICE_SAMPLE (R194): the envelope moves first, the output is taken from the phase before it
advances, and then the phase advances. -/
def voiceSample (cfg : Config) (v : Voice) : F64 × Voice :=
  let u := envUpdate cfg v
  (voiceOut cfg u, { u with phase := nextPhase cfg u })

/-- `n` samples in a row (the loop of R201). -/
def voiceRun (cfg : Config) : Nat → Voice → List F64 × Voice
  | 0, v => ([], v)
  | n + 1, v =>
    let p := voiceSample cfg v
    let q := voiceRun cfg n p.2
    (p.1 :: q.1, q.2)

/-- The test of the short-circuit, made once at the start of a block (R201). -/
def voiceSilent (v : Voice) : Bool := !v.active && fle v.env fZERO

/-- VOICE_BLOCK (R201). -/
def voiceBlock (cfg : Config) (n : Nat) (v : Voice) : List F64 × Voice :=
  if voiceSilent v then (List.replicate n fZERO, v) else voiceRun cfg n v

end Sys2Proof.Machine
end

