-- ==== Sys2Proof/Machine/Pool.lean ====
section
/-! DEFINITION. The voice pool (43_pool.md): allocation and steal, note-off, volume, panic, the dispatch of
events, and the generation of a block. -/

namespace Sys2Proof.Machine

/-- The slot a note-on takes: the first inactive one in ascending order, else slot 0 (R231). -/
def allocate (vs : List Voice) : Nat := (vs.findIdx? (fun v => !v.active)).getD 0

/-- pool_note_on (R231). -/
def poolNoteOn (note vel : Byte) (s : State) : State :=
  { s with voices := s.voices.modify (allocate s.voices) (voiceNoteOn note vel) }

/-- One slot of pool_note_off (R232). -/
def noteOffSlot (note : Byte) (v : Voice) : Voice :=
  if v.active && v.note == note then voiceNoteOff v else v

/-- pool_note_off (R232). -/
def poolNoteOff (note : Byte) (s : State) : State :=
  { s with voices := s.voices.map (noteOffSlot note) }

/-- The write of VOLUME (R233). -/
def setVolume (value : Byte) (s : State) : State := { s with volume := normalise value }

/-- pool_panic (R234). -/
def poolPanic (s : State) : State := { s with voices := s.voices.map voiceKill }

/-- `emit(ev)` (R230). The channel is ignored (R237), as are ProgramChange (R236) and every controller
other than CC_VOLUME and CC_PANIC (R235), 7 and 123 unless the configuration overrides them. Where it gives
both one number, the first case of the rule is taken (notes/assumptions/23.md). -/
def emit (ev : MidiEvent) (s : State) : State :=
  match ev with
  | .noteOn _ note vel => poolNoteOn note vel s
  | .noteOff _ note => poolNoteOff note s
  | .controlChange _ controller value =>
    if controller = ccVolumeNumber s.cfg then setVolume value s
    else if controller = ccPanicNumber s.cfg then poolPanic s
    else s
  | .programChange _ _ => s

/-- The mix of frame `j`, summed in slot order from +0.0 (R239). -/
def mixFrame (blocks : List (List F64)) (j : Nat) : F64 :=
  blocks.foldl (fun acc b => fadd acc (b.getD j fZERO)) fZERO

/-- The scale and conversion of a mixed frame (R240). -/
def toSample (volume acc : F64) : Sample :=
  clip (f2iTrunc (fmul (fmul acc volume) fFULL_SCALE)) (-32768) 32767

/-- The block of GENERATE(n) (R238). -/
def generateBlock (n : Nat) (s : State) : Block :=
  let blocks := s.voices.map (fun v => (voiceBlock s.cfg n v).1)
  (List.range n).map (fun j => toSample s.volume (mixFrame blocks j))

/-- Every slot after a block of `n` frames (R238). -/
def voicesAfter (n : Nat) (s : State) : List Voice :=
  s.voices.map (fun v => (voiceBlock s.cfg n v).2)

/-- GENERATE(n) (R238): one atomic step; the block is returned to the sink's pull. -/
def execGenerate (n : Nat) (s : State) : Host.Outcome State Fault Refusal :=
  if generateEnabled s then
    .next (sinkWrite (generateBlock n s) { s with voices := voicesAfter n s })
  else .next s

end Sys2Proof.Machine
end

