-- ==== Sys2Proof/Machine/Frames.lean ====
section
/-! DEFINITION. The meaning of each frame and drop row of spec/opcode_table.json, as PARSE_APPLY applies it
(41_parser.md rules R162 to R170): the row's bytes leave PBUF, and the row's event, if any, is dispatched
(43_pool.md rule R230). -/

namespace Sys2Proof.Machine

/-- NOTE_OFF (R163): the release velocity is consumed and discarded. -/
def execNoteOff (ch : Nibble) (note _relvel : Byte) (s : State) : Host.Outcome State Fault Refusal :=
  .next (onFrame 3 (emit (.noteOff ch note)) s)

/-- NOTE_ON (R164). -/
def execNoteOn (ch : Nibble) (note vel : Byte) (s : State) : Host.Outcome State Fault Refusal :=
  .next (onFrame 3 (emit (.noteOn ch note vel)) s)

/-- NOTE_ON_V0 (R165): a note-off. -/
def execNoteOnV0 (ch : Nibble) (note : Byte) (s : State) : Host.Outcome State Fault Refusal :=
  .next (onFrame 3 (emit (.noteOff ch note)) s)

/-- CC_VOLUME (R166, R233). -/
def execCcVolume (ch : Nibble) (value : Byte) (s : State) : Host.Outcome State Fault Refusal :=
  .next (onFrame 3 (emit (.controlChange ch (ccVolumeNumber s.cfg) value)) s)

/-- CC_PANIC (R166, R234). -/
def execCcPanic (ch : Nibble) (value : Byte) (s : State) : Host.Outcome State Fault Refusal :=
  .next (onFrame 3 (emit (.controlChange ch (ccPanicNumber s.cfg) value)) s)

/-- CC_OTHER (R166, R235). -/
def execCcOther (ch : Nibble) (controller value : Byte) (s : State) :
    Host.Outcome State Fault Refusal :=
  .next (onFrame 3 (emit (.controlChange ch controller value)) s)

/-- PROG (R167, R236). -/
def execProg (ch : Nibble) (program : Byte) (s : State) : Host.Outcome State Fault Refusal :=
  .next (onFrame 2 (emit (.programChange ch program)) s)

/-- DROP_DATA (R168): one byte is dropped, with no event. -/
def execDropData (_b : BitVec 7) (s : State) : Host.Outcome State Fault Refusal :=
  .next (onFrame 1 (fun t => t) s)

/-- DROP_A (R168). -/
def execDropA (_n : Nibble) (s : State) : Host.Outcome State Fault Refusal :=
  .next (onFrame 1 (fun t => t) s)

/-- DROP_D (R168). -/
def execDropD (_n : Nibble) (s : State) : Host.Outcome State Fault Refusal :=
  .next (onFrame 1 (fun t => t) s)

/-- DROP_E (R168). -/
def execDropE (_n : Nibble) (s : State) : Host.Outcome State Fault Refusal :=
  .next (onFrame 1 (fun t => t) s)

/-- DROP_SYS (R168). -/
def execDropSys (_n : Nibble) (s : State) : Host.Outcome State Fault Refusal :=
  .next (onFrame 1 (fun t => t) s)

/-- DROP_BADDATA (R170): the status byte alone is dropped. -/
def execDropBadData (_t : FrameType) (_ch : Nibble) (_d1 _d2 : Byte) (s : State) :
    Host.Outcome State Fault Refusal :=
  .next (onFrame 1 (fun t => t) s)

/-- WAIT (R169): nothing is consumed, and ingestion goes back to reading (R162, k = 0). -/
def execWait (_t : FrameType) (_ch : Nibble) (_d1 : Option Byte) (s : State) :
    Host.Outcome State Fault Refusal :=
  .next (onFrame 0 (fun t => { t with ing := .read }) s)

end Sys2Proof.Machine
end

