-- ==== Sys2Proof/Machine/Raw.lean ====
section
/-! DEFINITION. The raw path (44_raw_resampler.md): the sample decoder, the linear upsampler on both grids,
and the RAW_STEP. -/

namespace Sys2Proof.Machine

/-- A slot of the block in progress gets its value (R270, `s[j] <- …`). -/
def pushSample (v : Sample) (s : State) : State := { s with rawBlock := s.rawBlock ++ [v] }

/-- RAW_SAMPLE (R110): two link bytes fill one slot of the RAW_STEP in progress, through the assembly of R273
and the noise filter of R274. -/
def execRawSample (lo hi : Byte) (s : State) : Host.Outcome State Fault Refusal :=
  .next (if rawStepEnabled s then pushSample (rawValue s.cfg.noiseLimit lo hi) s else s)

/-- A slot from the bytes its read returned (R271, R272): a short read gives 0, and its odd byte is lost. -/
def rawSlot (bs : List Byte) (s : State) : State :=
  match rawPair bs with
  | some p => pushSample (rawValue s.cfg.noiseLimit p.1 p.2) s
  | none => pushSample 0 s

/-- The slots of a block, one LinkRead(2) each (R270, R271); false where a read returned err, after which
no later read happens (R312). -/
def rawSlots : Nat → State → Bool × State
  | 0, s => (true, s)
  | n + 1, s =>
    match linkRead 2 s with
    | (.err, s1) => (false, s1)
    | (.ok bs, s1) => rawSlots n (rawSlot bs s1)

/-- One output of the step grid (R276): output `i·r + k`. -/
def stepPoint (s : List Sample) (r i k : Nat) : Sample :=
  if i < s.length - 1 then
    truncDiv (s.getD i 0 * (r : Int) + (s.getD (i + 1) 0 - s.getD i 0) * (k : Int)) r
  else s.getD (s.length - 1) 0

/-- `upsample_step` (R276). -/
def upsampleStep (s : List Sample) (r : Nat) : Block :=
  (List.range (s.length * r)).map (fun j => stepPoint s r (j / r) (j % r))

/-- One output of the endpoint grid (R277), `q = N·r − 1`. -/
def endpointPoint (s : List Sample) (q j : Nat) : Sample :=
  let i := j * (s.length - 1) / q
  let rem := j * (s.length - 1) % q
  if i = s.length - 1 then s.getD (s.length - 1) 0
  else truncDiv (s.getD i 0 * (q : Int) + (s.getD (i + 1) 0 - s.getD i 0) * (rem : Int)) q

/-- `upsample_endpoint` (R277). -/
def upsampleEndpoint (s : List Sample) (r : Nat) : Block :=
  (List.range (s.length * r)).map (endpointPoint s (s.length * r - 1))

/-- `upsample(s, r)` (R276 to R278). -/
def upsample (grid : ResampleGrid) (s : List Sample) (r : Nat) : Block :=
  match s with
  | [] => []
  | [x] => List.replicate r x
  | _ =>
    match grid with
    | .step => upsampleStep s r
    | .endpoint => upsampleEndpoint s r

/-- The end of a RAW_STEP whose slots are all filled: the upsampled block is written (R270, R281), and the
local block ends with the step (R48). -/
def rawFinish (s : State) : State :=
  sinkWrite (upsample s.cfg.resampleGrid s.rawBlock s.cfg.upsampleRatio) { s with rawBlock := [] }

/-- RAW_STEP (R270): atomic; on a link error no block is written (R305, R306). -/
def execRawStep (s : State) : Host.Outcome State Fault Refusal :=
  if rawStepEnabled s then
    match rawSlots s.cfg.blockSamples { s with rawBlock := [] } with
    | (false, s1) => .next (fatal causeLinkError { s1 with rawBlock := [] })
    | (true, s1) => .next (rawFinish s1)
  else .next s

end Sys2Proof.Machine
end

