-- ==== Sys2Proof/Machine/Parser.lean ====
section
/-! DEFINITION. The ingestion steps (41_parser.md rules R160, R162). -/

namespace Sys2Proof.Machine

/-- INGEST_READ (R160). -/
def execIngestRead (s : State) : Host.Outcome State Fault Refusal :=
  if ingestReadEnabled s then
    match linkRead s.cfg.readChunk s with
    | (.err, s1) => .next (fatal causeLinkError s1)
    | (.ok bs, s1) => .next { s1 with pbuf := s1.pbuf ++ bs, ing := .parse }
  else .next s

/-- The meaning of an instruction read from PBUF. The decoder of the MIDI path gives neither a raw sample nor
a transaction (R113), so those leave the state as it is. -/
def execDecoded (i : Instr) (s : State) : Host.Outcome State Fault Refusal :=
  match i with
  | .noteOff ch note relvel => execNoteOff ch note relvel s
  | .noteOn ch note vel => execNoteOn ch note vel s
  | .noteOnV0 ch note => execNoteOnV0 ch note s
  | .ccVolume ch value => execCcVolume ch value s
  | .ccPanic ch value => execCcPanic ch value s
  | .ccOther ch controller value => execCcOther ch controller value s
  | .prog ch program => execProg ch program s
  | .dropData b => execDropData b s
  | .dropA n => execDropA n s
  | .dropD n => execDropD n s
  | .dropE n => execDropE n s
  | .dropSys n => execDropSys n s
  | .dropBadData t ch d1 d2 => execDropBadData t ch d1 d2 s
  | .wait t ch d1 => execWait t ch d1 s
  | .rawSample _ _ => .next s
  | .linkOpen | .probeRead | .windowExpire | .classify | .sinkOpen => .next s
  | .ingestRead | .parseApply | .generate _ | .rawStep | .stop | .sinkFault => .next s

/-- PARSE_APPLY (R162): the instruction at the head of PBUF is decoded and runs, in this one step; an empty
buffer ends the parse run (R171). -/
def execParseApply (s : State) : Host.Outcome State Fault Refusal :=
  if parseApplyEnabled s then
    match decodeMidi s.cfg s.pbuf with
    | .error _ => .next { s with ing := .read }
    | .ok i => execDecoded i s
  else .next s

/-- A run of parses over a byte sequence, at most `fuel` of them: the events in order and the bytes left
(R172, R175). -/
def parseRun (cfg : Config) : Nat → List Byte → List MidiEvent × List Byte
  | 0, bs => ([], bs)
  | fuel + 1, bs =>
    if (parse cfg bs).2 = 0 then ([], bs)
    else
      let p := parseRun cfg fuel (bs.drop (parse cfg bs).2)
      ((parse cfg bs).1.toList ++ p.1, p.2)

/-- A whole parse run: every parse with `k > 0` removes a byte, so as many as there are bytes are enough
(R172). -/
def parseAll (cfg : Config) (bs : List Byte) : List MidiEvent × List Byte :=
  parseRun cfg bs.length bs

end Sys2Proof.Machine
end

