-- ==== Sys2Proof/Machine/RunControl.lean ====
section
/-! DEFINITION. The run controller (60_exceptions.md, 70_reset_and_hazards.md): opening the link and the
sink, the host's STOP, and the host's SINK_FAULT. -/

namespace Sys2Proof.Machine

/-- What a successful open of the link does, by FORCE_MODE (R342, R148). -/
def linkOpened (s : State) : State :=
  match s.cfg.forceMode with
  | .auto => { s with linkOpen := true, runState := .probing }
  | .midi => { s with linkOpen := true, mode := .midi, runState := .starting }
  | .raw => { s with linkOpen := true, mode := .rawAudio, runState := .starting }

/-- LINK_OPEN (R342). -/
def execLinkOpen (s : State) : Host.Outcome State Fault Refusal :=
  if linkOpenEnabled s then
    match nextOpen s with
    | (.fail, s1) => .next (fatal causeLinkOpenFail (record .openLink s1))
    | (.ok, s1) => .next (linkOpened (record .openLink s1))
  else .next s

/-- The open call of the sink, by MODE (R343). -/
def sinkOpenCall (s : State) : HostCall :=
  match s.mode with
  | .midi => .openSink s.cfg.sampleRate 1 s.cfg.blockFrames s.cfg.latencyHint
  | .undecided | .rawAudio =>
    .openSink (s.cfg.sourceRate * s.cfg.upsampleRatio) 1
      (s.cfg.blockSamples * s.cfg.upsampleRatio) s.cfg.latencyHint

/-- What a successful open of the sink does (R343): on the MIDI path the callback is registered. -/
def sinkOpened (s : State) : State :=
  { s with
    calls := if s.mode = .midi then s.calls ++ [.registerCallback] else s.calls
    sinkOpen := true
    runState := .running }

/-- SINK_OPEN (R343). A failed callback registration is the failed draw too (R304). -/
def execSinkOpen (s : State) : Host.Outcome State Fault Refusal :=
  if sinkOpenEnabled s then
    match nextOpen s with
    | (.fail, s1) => .next (fatal causeDeviceOpenFail (record (sinkOpenCall s1) s1))
    | (.ok, s1) => .next (sinkOpened (record (sinkOpenCall s1) s1))
  else .next s

/-- STOP (R308). -/
def execStop (s : State) : Host.Outcome State Fault Refusal :=
  .next
    (if stopEnabled s then { teardown { s with stopReq := true } with runState := .stopped } else s)

/-- SINK_FAULT (R307). -/
def execSinkFault (s : State) : Host.Outcome State Fault Refusal :=
  .next (if sinkFaultEnabled s then fatal causeSinkError s else s)

end Sys2Proof.Machine
end

