-- ==== Sys2Proof/Machine/Dispatch.lean ====
section
/-! DEFINITION. One arm per row of spec/opcode_table.json. -/

namespace Sys2Proof.Machine

def exec (i : Instr) (s : State) : Host.Outcome State Fault Refusal :=
  match i with
  | .noteOff ch note relvel => Sys2Proof.Machine.execNoteOff ch note relvel s
  | .noteOn ch note vel => Sys2Proof.Machine.execNoteOn ch note vel s
  | .noteOnV0 ch note => Sys2Proof.Machine.execNoteOnV0 ch note s
  | .ccVolume ch value => Sys2Proof.Machine.execCcVolume ch value s
  | .ccPanic ch value => Sys2Proof.Machine.execCcPanic ch value s
  | .ccOther ch controller value => Sys2Proof.Machine.execCcOther ch controller value s
  | .prog ch program => Sys2Proof.Machine.execProg ch program s
  | .dropData b => Sys2Proof.Machine.execDropData b s
  | .dropA n => Sys2Proof.Machine.execDropA n s
  | .dropD n => Sys2Proof.Machine.execDropD n s
  | .dropE n => Sys2Proof.Machine.execDropE n s
  | .dropSys n => Sys2Proof.Machine.execDropSys n s
  | .dropBadData t ch d1 d2 => Sys2Proof.Machine.execDropBadData t ch d1 d2 s
  | .wait t ch d1 => Sys2Proof.Machine.execWait t ch d1 s
  | .rawSample lo hi => Sys2Proof.Machine.execRawSample lo hi s
  | .linkOpen => Sys2Proof.Machine.execLinkOpen s
  | .probeRead => Sys2Proof.Machine.execProbeRead s
  | .windowExpire => Sys2Proof.Machine.execWindowExpire s
  | .classify => Sys2Proof.Machine.execClassify s
  | .sinkOpen => Sys2Proof.Machine.execSinkOpen s
  | .ingestRead => Sys2Proof.Machine.execIngestRead s
  | .parseApply => Sys2Proof.Machine.execParseApply s
  | .generate n => Sys2Proof.Machine.execGenerate n s
  | .rawStep => Sys2Proof.Machine.execRawStep s
  | .stop => Sys2Proof.Machine.execStop s
  | .sinkFault => Sys2Proof.Machine.execSinkFault s

end Sys2Proof.Machine
end

