-- ==== Sys2Proof/Machine/Step.lean ====
section
/-! DEFINITION. One step of the machine: the scheduler's choice runs (60_exceptions.md rule R321). -/

namespace Sys2Proof.Machine

/-- One atomic step (R17, R321). A choice that is not enabled takes no step, so the state stays as it
is (R323). A configuration that R7 does not admit is refused (R324). -/
def step (s : State) : Host.Outcome State Fault Refusal :=
  if configAdmitted s.cfg then exec (txnInstr (nextTxn s).1) (nextTxn s).2
  else .refused .configNotAdmitted

/-- The state whose very next step is a PARSE_APPLY that finds the table word at the head of PBUF: the MIDI
path is running, ingestion is in its parse phase, and the scheduler's next choice is PARSE_APPLY (R162). -/
def State.withFetchWord (s : State) (nbits w : Nat) : State :=
  { s with
    mode := .midi
    runState := .running
    ing := .parse
    pbuf := tableBytes nbits w
    schedule := .parseApply :: s.schedule }

end Sys2Proof.Machine
end

