-- ==== Sys2Proof/Safety.lean ====
section
/-! DEFINITION. What a safe state is, in the terms the claims use: the invariants of the voice pool
(10_state.md rules R31, R34, R35, 44_raw_resampler.md rule R283), of the run control (10_state.md rules R36 to
R39, R43, 70_reset_and_hazards.md rule R341) and of the buffers (10_state.md rules R45 to R48, 41_parser.md
rule R172); and the observable result of a run (70_reset_and_hazards.md rule R353). -/

namespace Sys2Proof.Machine

/-- The greatest velocity and volume a data byte can give: 127/127 under strict, 255/127 under none (R31, R35). -/
def maxLevel (dc : DataCheck) : F64 :=
  match dc with
  | .strict => fONE
  | .none => normalise 255#8

/-- SUSTAIN_LEVEL in [0.0, 1.0], and HEADROOM a real number that is at least 0.0, as the source's 0.8 and 0.3 are
(R6, R14). R7 does not ask for it, so a claim that leans on R34's range of env, or on R199's range of the
output, has it as a premise (notes/assumptions/23.md). -/
def levelsInRange (cfg : Config) : Bool :=
  (fle fZERO cfg.sustainLevel && fle cfg.sustainLevel fONE) && (fle fZERO cfg.headroom && isFinite cfg.headroom)

/-- The note range DATA_CHECK gives (R31, R34(d)). -/
def noteInRange (dc : DataCheck) (note : Byte) : Bool :=
  match dc with
  | .strict => decide (note.toNat ≤ 127)
  | .none => true

/-- The legal values of a voice slot: (a) to (e) of R34, and R31's column for `freq`, which is 0 only in a
slot that no note has used. -/
def voiceSafe (dc : DataCheck) (v : Voice) : Bool :=
  (fle fZERO v.env && fle v.env fONE) &&
    (fle fZERO v.phase && flt v.phase fTWO_PI) &&
    (v.active || feq v.env fZERO) &&
    (noteInRange dc v.note && fle fZERO v.vel && fle v.vel (maxLevel dc)) &&
    (fle fZERO v.rsl && fle v.rsl fONE) &&
    (v.freq == freqOf v.note || (v.freq == fZERO && !v.active))

/-- VOLUME is its reset value or in the range of R35. -/
def volumeSafe (s : State) : Bool :=
  s.volume == s.cfg.volumeReset ||
    (fle fZERO s.volume && fle s.volume (maxLevel s.cfg.dataCheck))

/-- The invariant of the voice pool: R33's slot count, R34 for every slot, R35, and R283's reset values
until the MIDI path runs. -/
def poolInv (s : State) : Bool :=
  decide (s.voices.length = s.cfg.maxVoices) && s.voices.all (voiceSafe s.cfg.dataCheck) &&
    volumeSafe s &&
    (s.mode == .midi ||
      (s.voices == List.replicate s.cfg.maxVoices Voice.reset && s.volume == s.cfg.volumeReset))

/-- The invariant of the run control: what MODE, the open bits, FAULT_CAUSE and the latches are in each
RUN_STATE (R36 to R39, R43, R302, R341). -/
def runInv (s : State) : Bool :=
  match s.runState with
  | .init =>
    s.mode == .undecided && !s.linkOpen && !s.sinkOpen && s.faultCause == causeNone && !s.stopReq &&
      !s.windowExpired
  | .probing =>
    s.mode == .undecided && s.linkOpen && !s.sinkOpen && s.faultCause == causeNone && !s.stopReq
  | .starting =>
    s.mode != .undecided && s.linkOpen && !s.sinkOpen && s.faultCause == causeNone && !s.stopReq
  | .running =>
    s.mode != .undecided && s.linkOpen && s.sinkOpen && s.faultCause == causeNone && !s.stopReq
  | .stopped => !s.linkOpen && !s.sinkOpen && s.faultCause == causeNone && s.stopReq
  | .failed =>
    !s.linkOpen && !s.sinkOpen && !s.stopReq &&
      decide (1 ≤ s.faultCause.toNat ∧ s.faultCause.toNat ≤ 4)

/-- What a parse run leaves in PBUF (R172): nothing, a recognized status byte, or such a byte of a
three-byte frame with one data byte. -/
def isResidue (bs : List Byte) : Bool :=
  match bs with
  | [] => true
  | [b] => (frameTypeOf (highNibble b)).isSome
  | [b, _] =>
    match frameTypeOf (highNibble b) with
    | some t => frameLength t == 3
    | none => false
  | _ :: _ :: _ :: _ => false

/-- The invariant of the buffers: PROBE_BUF's bound and its life (R47), PBUF's bound and residue (R46, R172),
PBUF untouched off the MIDI path (R283), and no raw block between steps (R48). -/
def bufferInv (s : State) : Bool :=
  decide (s.probeBuf.length ≤ s.cfg.probeMax) &&
    (s.probeBuf == [] || (s.mode == .undecided && s.runState != .init)) &&
    decide (s.pbuf.length ≤ 2 + s.cfg.readChunk) &&
    (s.ing == .parse || isResidue s.pbuf) &&
    (s.mode == .midi || (s.pbuf == [] && s.ing == .read)) &&
    s.rawBlock == []

/-- The invariant of the whole machine. -/
def safeInv (s : State) : Bool := runInv s && bufferInv s && poolInv s

/-- What a run shows its environment (R353): the blocks delivered, the final RUN_STATE, FAULT_CAUSE and the
exit status. -/
def observable (s : State) : List Block × RunState × Byte × Option Int :=
  (s.sink, s.runState, s.faultCause, exitStatus s)

/-- A sample the sink's int16 format holds (R11, R243). -/
def isI16 (x : Sample) : Bool := decide (-32768 ≤ x) && decide (x ≤ 32767)

/-- `n` steps in a row, as far as steps answer a next state (R321). -/
def runSteps : Nat → State → State
  | 0, s => s
  | n + 1, s =>
    match step s with
    | .next t => runSteps n t
    | .fault _ => s
    | .refused _ => s

/-- `n` PARSE_APPLY steps in a row: a parse run (R162, R172). -/
def parseSteps : Nat → State → State
  | 0, s => s
  | n + 1, s =>
    match exec .parseApply s with
    | .next t => parseSteps n t
    | .fault _ => s
    | .refused _ => s

/-- The frames the parser accepts (R163 to R167): the instructions of the MIDI path that have an event. -/
def isFrame (cfg : Config) (i : Instr) : Bool := (eventOf cfg i).isSome

/-- The RUN_STATE transitions of R341, by the step that makes them. -/
def transition (t : Txn) (a b : RunState) : Bool :=
  match t with
  | .linkOpen => a == .init && (b == .probing || b == .starting || b == .failed)
  | .probeRead => a == .probing && b == .failed
  | .classify => a == .probing && b == .starting
  | .sinkOpen => a == .starting && (b == .running || b == .failed)
  | .ingestRead => a == .running && b == .failed
  | .rawStep => a == .running && b == .failed
  | .sinkFault => a == .running && b == .failed
  | .stop => a != .stopped && a != .failed && b == .stopped
  | .windowExpire => false
  | .parseApply => false
  | .generate _ => false

end Sys2Proof.Machine
end

