-- ==== Sys2Proof/Certificates/Slice0/Obligations.lean ====
section
/-! DEFINITION. The statements for the provers. Each formalises rules of spec/: what every instruction does and leaves
alone, where it completes, what ends a run, what every step keeps, and how bytes and instructions agree. -/

open Sys2Proof Sys2Proof.Machine

/-! ### Bytes and instructions -/

/-- 30_encoding.md R100 to R105, R110, 41_parser.md R163 to R170: the decoder reads back every well-formed
instruction from its own bytes, with every operand at every value, whatever bytes follow it (a WAIT is
what the decoder says of an incomplete frame, so nothing follows it), under every configuration. -/
def Obligations.DecodingAnEncodingGivesItBack : Prop :=
  ∀ (cfg : Config) (i : Instr) (rest : List Byte), wellFormed cfg i = true →
    (onMidiPath i = true → decodeMidi cfg (encode cfg i) = .ok i) ∧
      (onMidiPath i = true → (∀ t ch d1, i ≠ .wait t ch d1) → decodeMidi cfg (encode cfg i ++ rest) = .ok i) ∧
      (∀ lo hi, i = .rawSample lo hi → decodeRaw (encode cfg i ++ rest) = .ok i)

/-- 30_encoding.md R100 to R105, 41_parser.md R161: whatever the decoder gives is a well-formed row of the
MIDI path whose encoding stands at the head of the buffer, so no bit of the bytes read is dropped. -/
def Obligations.DecodedInstructionsAreWellFormedPrefixes : Prop :=
  ∀ (cfg : Config) (bs : List Byte) (i : Instr), decodeMidi cfg bs = .ok i →
    wellFormed cfg i = true ∧ onMidiPath i = true ∧ ∃ rest, bs = encode cfg i ++ rest

/-- 41_parser.md R163 to R170, R174, R176, R177, 30_encoding.md R110: the examples of those rules, one word of
each other row, and the streams without running status, with a status byte inside a frame, and with a
prefix that swallows a frame. -/
def Obligations.ExampleBytesDecode : Prop :=
  decodeMidi Config.reference [0x83#8, 0x45#8, 0x40#8] = .ok (.noteOff 3#4 69#8 64#8) ∧
    decodeMidi Config.reference [0x90#8, 0x45#8, 0x7F#8] = .ok (.noteOn 0#4 69#8 127#8) ∧
    decodeMidi Config.reference [0x90#8, 0x45#8, 0x00#8] = .ok (.noteOnV0 0#4 69#8) ∧
    decodeMidi Config.reference [0xB0#8, 0x07#8, 0x40#8] = .ok (.ccVolume 0#4 64#8) ∧
    decodeMidi Config.reference [0xB2#8, 0x7B#8, 0x00#8] = .ok (.ccPanic 2#4 0#8) ∧
    decodeMidi Config.reference [0xB0#8, 0x40#8, 0x7F#8] = .ok (.ccOther 0#4 64#8 127#8) ∧
    decodeMidi Config.reference [0xC5#8, 0x10#8] = .ok (.prog 5#4 16#8) ∧
    decodeMidi Config.reference [0x3E#8] = .ok (.dropData 0x3E#7) ∧
    decodeMidi Config.reference [0xA1#8] = .ok (.dropA 1#4) ∧
    decodeMidi Config.reference [0xD2#8] = .ok (.dropD 2#4) ∧
    decodeMidi Config.reference [0xE3#8] = .ok (.dropE 3#4) ∧
    decodeMidi Config.reference [0xF8#8, 0x80#8, 0x40#8, 0x00#8] = .ok (.dropSys 8#4) ∧
    decodeMidi Config.reference [0x90#8, 0x40#8, 0x80#8] = .ok (.dropBadData .noteOn 0#4 0x40#8 0x80#8) ∧
    decodeMidi Config.reference [0x90#8, 0xFF#8] = .ok (.wait .noteOn 0#4 (some 0xFF#8)) ∧
    decodeRaw [0xF0#8, 0xFF#8] = .ok (.rawSample 0xF0#8 0xFF#8) ∧
    parseAll Config.reference [0x90#8, 0x3C#8, 0x64#8, 0x3E#8, 0x64#8] = ([.noteOn 0#4 60#8 100#8], []) ∧
    parseAll Config.reference [0x90#8, 0xF8#8, 0x3C#8, 0x64#8] = ([], []) ∧
    parseAll { Config.reference with dataCheck := .none } [0x90#8, 0xF8#8, 0x3C#8, 0x64#8] = ([.noteOn 0#4 248#8 60#8], []) ∧
    parseAll { Config.reference with dataCheck := .none } [0x90#8, 0x80#8, 0x40#8, 0x00#8] = ([.noteOn 0#4 128#8 64#8], [])

/-- 41_parser.md R161: parse is the rule's own pseudocode, its tests in their order, on every byte sequence;
the nibbles and bit 7 are read here by division, not by the decoder's field operations. -/
def Obligations.ParseFollowsItsPseudocode : Prop :=
  ∀ cfg : Config, parse cfg [] = (none, 0) ∧
    ∀ (b : Byte) (rest : List Byte),
      parse cfg (b :: rest) =
        (let hi := b.toNat / 16
         let len := if hi = 8 ∨ hi = 9 ∨ hi = 11 then 3 else 2
         let ch := BitVec.ofNat 4 (b.toNat % 16)
         let d1 := rest.getD 0 0#8
         let d2 := rest.getD 1 0#8
         if hi ≠ 8 ∧ hi ≠ 9 ∧ hi ≠ 11 ∧ hi ≠ 12 then (none, 1)
         else if rest.length + 1 < len then (none, 0)
         else if cfg.dataCheck = .strict ∧ (128 ≤ d1.toNat ∨ (len = 3 ∧ 128 ≤ d2.toNat)) then (none, 1)
         else if hi = 8 then (some (.noteOff ch d1), 3)
         else if hi = 9 ∧ d2.toNat ≠ 0 then (some (.noteOn ch d1 d2), 3)
         else if hi = 9 then (some (.noteOff ch d1), 3)
         else if hi = 11 then (some (.controlChange ch d1 d2), 3)
         else (some (.programChange ch d1), 2))

/-- 41_parser.md R173: what parse emits on any bytes: every NoteOn has a velocity that is not 0, under strict
every data operand is at most 127, and bytes that give no event leave one at a time or not at all. -/
def Obligations.ParsedEventsKeepTheirRanges : Prop :=
  ∀ (cfg : Config) (bs : List Byte),
    ((parse cfg bs).1 = none → (parse cfg bs).2 ≤ 1) ∧
      (∀ ch note vel, (parse cfg bs).1 = some (.noteOn ch note vel) →
        vel ≠ 0#8 ∧ (cfg.dataCheck = .strict → note.toNat ≤ 127 ∧ vel.toNat ≤ 127)) ∧
      (∀ ch note, (parse cfg bs).1 = some (.noteOff ch note) → cfg.dataCheck = .strict → note.toNat ≤ 127) ∧
      (∀ ch c v, (parse cfg bs).1 = some (.controlChange ch c v) →
        cfg.dataCheck = .strict → c.toNat ≤ 127 ∧ v.toNat ≤ 127) ∧
      (∀ ch p, (parse cfg bs).1 = some (.programChange ch p) → cfg.dataCheck = .strict → p.toNat ≤ 127)

/-- 41_parser.md R174: under strict, whatever bytes come first, a concatenation of valid frames that follows
them gives the events of all its frames, exactly and in order, and nothing is left over; what comes before
them is what the first bytes give alone. Under none this fails, as the rule's own example shows. -/
def Obligations.ParserResynchronizesOnValidFrames : Prop :=
  (∀ (cfg : Config) (junk : List Byte) (frames : List Instr), cfg.dataCheck = .strict → frames ≠ [] →
    (∀ i ∈ frames, isFrame cfg i = true ∧ wellFormed cfg i = true) →
    parseAll cfg (junk ++ frames.flatMap (encode cfg)) =
      ((parseAll cfg junk).1 ++ frames.filterMap (eventOf cfg), [])) ∧
    parseAll { Config.reference with dataCheck := .none } ([0x90#8] ++ [0x80#8, 0x40#8, 0x00#8]) = ([.noteOn 0#4 128#8 64#8], [])

/-- 41_parser.md R175: the events of a byte stream, and the bytes left, are those of parsing its first part
and then what that left together with its second part, wherever the stream is split. -/
def Obligations.SplittingTheStreamChangesNoEvent : Prop :=
  ∀ (cfg : Config) (a b : List Byte),
    parseAll cfg (a ++ b) =
      ((parseAll cfg a).1 ++ (parseAll cfg ((parseAll cfg a).2 ++ b)).1,
        (parseAll cfg ((parseAll cfg a).2 ++ b)).2)

/-! ### The step -/

/-- 60_exceptions.md R325, R324, 00_scope.md R6, R7: under an admitted configuration every step answers a next
state, and under any other the model refuses; what admitted means is written out. That step itself refuses, as
configNotAdmitted, and that the ranges of R6's type column (SOURCE_RATE, BLOCK_FRAMES, EXIT_FAIL) are part of
admission beside R7's list, is the model's choice (notes/assumptions/14.md). -/
def Obligations.EveryAdmittedStepAnswersNext : Prop :=
  (∀ s : State, configAdmitted s.cfg = true → ∃ t, step s = .next t) ∧
    (∀ s : State, configAdmitted s.cfg = false → step s = .refused .configNotAdmitted) ∧
    (∀ c : Config, configAdmitted c = true ↔
      1 ≤ c.maxVoices ∧ 1 ≤ c.sampleRate ∧ 1 ≤ c.attackSamples ∧ 1 ≤ c.releaseSamples ∧
        1 ≤ c.upsampleRatio ∧ 1 ≤ c.blockSamples ∧ 1 ≤ c.readChunk ∧ c.sampleRate < 2 ^ 53 ∧
        c.sourceRate * c.upsampleRatio < 2 ^ 53 ∧ 1 ≤ c.sourceRate ∧ 1 ≤ c.blockFrames ∧ c.exitFail ≠ 0)

/-- 60_exceptions.md R321: a step is the instruction of the scheduler's choice. That the choice is read from a
list in State, and is the free value Config.freeTxn when the list is empty, is the model's choice
(notes/assumptions/4.md). -/
def Obligations.StepRunsTheScheduledInstruction : Prop :=
  ∀ s : State, configAdmitted s.cfg = true →
    (∀ t ts, s.schedule = t :: ts → step s = exec (txnInstr t) { s with schedule := ts }) ∧
      (s.schedule = [] →
        step s = exec (txnInstr (Config.freeTxn s.oracle)) { s with oracle := s.oracle + 1 })

/-- 41_parser.md R162: when PARSE_APPLY is next and enabled and the bytes of PBUF decode to an instruction,
the step is that instruction's own meaning; the only thing around it is that the scheduled choice is used
up. So a table word placed by withFetchWord is what the very next step runs; that it is placed in PBUF
under the MIDI path is the model's choice (notes/assumptions/11.md). -/
def Obligations.StepRunsTheDecodedInstruction : Prop :=
  (∀ (s : State) (ts : List Txn) (i : Instr), configAdmitted s.cfg = true → s.schedule = .parseApply :: ts →
    s.mode = .midi → s.runState = .running → s.ing = .parse →
    decodeMidi s.cfg s.pbuf = .ok i → wellFormed s.cfg i = true →
    step s = exec i { s with schedule := ts }) ∧
    ∀ (s : State) (nbits w : Nat) (i : Instr), configAdmitted s.cfg = true → s.cfg.dataCheck = .strict →
      s.cfg.ccVolume = 7#7 → s.cfg.ccPanic = 123#7 → decodeTableWord nbits w = some i →
      step (s.withFetchWord nbits w) = exec i { s.withFetchWord nbits w with schedule := s.schedule }

/-- 60_exceptions.md R321, R323: exec of a step that is not enabled answers the same state; the enabling conditions
are the rule's table. The rules only say that such a step is not taken: that exec still answers there, with the same
state, is the model's choice (notes/assumptions/4.md, and notes/assumptions/7.md for rows run by themselves). -/
def Obligations.DisabledStepsChangeNothing : Prop :=
  ∀ s : State,
    (s.runState ≠ .init → exec .linkOpen s = .next s) ∧
      (s.runState ≠ .probing ∨ s.cfg.probeMax ≤ s.probeBuf.length ∨ s.windowExpired = true →
        exec .probeRead s = .next s) ∧
      (s.runState ≠ .probing ∨ s.windowExpired = true → exec .windowExpire s = .next s) ∧
      (s.runState ≠ .probing ∨ (s.probeBuf.length ≠ s.cfg.probeMax ∧ s.windowExpired = false) →
        exec .classify s = .next s) ∧
      (s.runState ≠ .starting → exec .sinkOpen s = .next s) ∧
      (s.mode ≠ .midi ∨ s.runState ≠ .running ∨ s.ing ≠ .read → exec .ingestRead s = .next s) ∧
      (s.mode ≠ .midi ∨ s.runState ≠ .running ∨ s.ing ≠ .parse → exec .parseApply s = .next s) ∧
      (s.mode ≠ .midi ∨ s.runState ≠ .running ∨ s.sinkOpen = false →
        ∀ n, exec (.generate n) s = .next s) ∧
      (s.mode ≠ .rawAudio ∨ s.runState ≠ .running ∨ s.sinkOpen = false → exec .rawStep s = .next s) ∧
      (s.runState ≠ .running → exec .sinkFault s = .next s) ∧
      (s.runState = .stopped ∨ s.runState = .failed → exec .stop s = .next s)

/-- 60_exceptions.md R310, R311: in STOPPED and in FAILED no instruction of any kind changes anything, and the
exit status is 0 after STOPPED, the configured nonzero value after FAILED, and none before. -/
def Obligations.TerminalStatesNeverMove : Prop :=
  (∀ (i : Instr) (s : State), s.runState = .stopped ∨ s.runState = .failed → exec i s = .next s) ∧
    ∀ s : State, configAdmitted s.cfg = true →
      (s.runState = .stopped → exitStatus s = some 0) ∧
        (s.runState = .failed → exitStatus s = some s.cfg.exitFail ∧ s.cfg.exitFail ≠ 0) ∧
        (s.runState ≠ .stopped → s.runState ≠ .failed → exitStatus s = none)

/-! ### The frames and drops of the MIDI path -/

/-- 43_pool.md R231, 42_voice.md R192: NOTE_ON takes the lowest inactive slot, or slot 0 when every slot is
active, and writes six fields of it; its phase and rsl, every other slot, and all else but the three bytes
of PBUF stay. -/
def Obligations.NoteOnStartsTheRightSlot : Prop :=
  ∀ (s : State) (ch : Nibble) (note vel : Byte), s.mode = .midi → s.runState = .running → s.ing = .parse →
    (∀ before v after, s.voices = before ++ v :: after → (∀ u ∈ before, u.active = true) → v.active = false →
      exec (.noteOn ch note vel) s = .next { s with
        pbuf := s.pbuf.drop 3
        voices := before ++
          { v with
            note := note
            freq := freqOf note
            vel := fdiv (i2f (vel.toNat : Int)) f127
            est := .attack
            env := fZERO
            active := true } :: after }) ∧
      (∀ v after, s.voices = v :: after → (∀ u ∈ s.voices, u.active = true) →
        exec (.noteOn ch note vel) s = .next { s with
          pbuf := s.pbuf.drop 3
          voices :=
            { v with
              note := note
              freq := freqOf note
              vel := fdiv (i2f (vel.toNat : Int)) f127
              est := .attack
              env := fZERO
              active := true } :: after })

/-- 43_pool.md R232, 42_voice.md R193, 41_parser.md R163, R165: NOTE_OFF and NOTE_ON_V0 release every active
slot that holds the note and is not released yet; nothing else changes but the three bytes of PBUF. -/
def Obligations.NoteOffReleasesEveryMatchingSlot : Prop :=
  ∀ (s : State) (ch : Nibble) (note relvel : Byte), s.mode = .midi → s.runState = .running → s.ing = .parse →
    let t := { s with
      pbuf := s.pbuf.drop 3
      voices := s.voices.map fun v =>
        if v.active = true ∧ v.note = note ∧ v.est ≠ .release then { v with rsl := v.env, est := .release }
        else v }
    exec (.noteOff ch note relvel) s = .next t ∧ exec (.noteOnV0 ch note) s = .next t

/-- 43_pool.md R233: CC_VOLUME writes VOLUME alone, with the value divided by 127.0, beside the three bytes of
PBUF. -/
def Obligations.VolumeControlWritesVolumeAlone : Prop :=
  ∀ (s : State) (ch : Nibble) (value : Byte), s.mode = .midi → s.runState = .running → s.ing = .parse →
    exec (.ccVolume ch value) s = .next { s with
      pbuf := s.pbuf.drop 3
      volume := fdiv (i2f (value.toNat : Int)) f127 }

/-- 43_pool.md R234, 42_voice.md R205: CC_PANIC makes every slot inactive with an envelope of 0.0 and changes
no other field of it, no VOLUME, and nothing else but the three bytes of PBUF. The premise is the model's: under
a configuration that gives both controllers one number there is no such frame (notes/assumptions/23.md). -/
def Obligations.PanicKillsEverySlot : Prop :=
  ∀ (s : State) (ch : Nibble) (value : Byte), s.mode = .midi → s.runState = .running → s.ing = .parse →
    s.cfg.ccPanic ≠ s.cfg.ccVolume →
    exec (.ccPanic ch value) s = .next { s with
      pbuf := s.pbuf.drop 3
      voices := s.voices.map fun v => { v with active := false, env := fZERO } }

/-- 43_pool.md R235, R236, 41_parser.md R168, R169, R170: the frames without an effect remove their bytes
alone (three for CC_OTHER under well-formedness, two for PROG), every drop removes one byte alone, and
WAIT removes none and ends the parse run. -/
def Obligations.SilentRowsOnlyMoveTheBuffer : Prop :=
  ∀ s : State, s.mode = .midi → s.runState = .running → s.ing = .parse →
    (∀ ch c v, wellFormed s.cfg (.ccOther ch c v) = true →
      exec (.ccOther ch c v) s = .next { s with pbuf := s.pbuf.drop 3 }) ∧
      (∀ ch p, exec (.prog ch p) s = .next { s with pbuf := s.pbuf.drop 2 }) ∧
      (∀ b, exec (.dropData b) s = .next { s with pbuf := s.pbuf.drop 1 }) ∧
      (∀ n, exec (.dropA n) s = .next { s with pbuf := s.pbuf.drop 1 }) ∧
      (∀ n, exec (.dropD n) s = .next { s with pbuf := s.pbuf.drop 1 }) ∧
      (∀ n, exec (.dropE n) s = .next { s with pbuf := s.pbuf.drop 1 }) ∧
      (∀ n, exec (.dropSys n) s = .next { s with pbuf := s.pbuf.drop 1 }) ∧
      (∀ t ch d1 d2, exec (.dropBadData t ch d1 d2) s = .next { s with pbuf := s.pbuf.drop 1 }) ∧
      (∀ t ch d1, exec (.wait t ch d1) s = .next { s with ing := .read })

/-- 30_encoding.md R106: the channel of a frame never selects anything. -/
def Obligations.ChannelNeverMatters : Prop :=
  ∀ (s : State) (ch ch' : Nibble) (d1 d2 : Byte),
    exec (.noteOff ch d1 d2) s = exec (.noteOff ch' d1 d2) s ∧
      exec (.noteOn ch d1 d2) s = exec (.noteOn ch' d1 d2) s ∧
      exec (.noteOnV0 ch d1) s = exec (.noteOnV0 ch' d1) s ∧
      exec (.ccVolume ch d2) s = exec (.ccVolume ch' d2) s ∧
      exec (.ccPanic ch d2) s = exec (.ccPanic ch' d2) s ∧
      exec (.ccOther ch d1 d2) s = exec (.ccOther ch' d1 d2) s ∧
      exec (.prog ch d1) s = exec (.prog ch' d1) s

/-- 41_parser.md R162: PARSE_APPLY is one parse and the application of its event: with k = 0 only ING changes,
and otherwise k bytes leave PBUF and the event, if any, is dispatched. -/
def Obligations.ParseApplyIsOneParseAndItsEvent : Prop :=
  ∀ s : State, s.mode = .midi → s.runState = .running → s.ing = .parse →
    ((parse s.cfg s.pbuf).2 = 0 → exec .parseApply s = .next { s with ing := .read }) ∧
      ((parse s.cfg s.pbuf).2 ≠ 0 → (parse s.cfg s.pbuf).1 = none →
        exec .parseApply s =
          .next { s with pbuf := s.pbuf.drop (parse s.cfg s.pbuf).2 }) ∧
      (∀ ev, (parse s.cfg s.pbuf).1 = some ev →
        exec .parseApply s =
          .next (emit ev { s with pbuf := s.pbuf.drop (parse s.cfg s.pbuf).2 }))

/-- 41_parser.md R172: a parse run is back in READ after at most len(PBUF) + 1 PARSE_APPLY steps, and what it
leaves is empty, a lone recognized status byte, or the status byte of a three-byte frame with one byte
after it. -/
def Obligations.ParseRunsEndWithShortResidue : Prop :=
  ∀ s : State, s.mode = .midi → s.runState = .running → s.ing = .parse →
    ∃ n, n ≤ s.pbuf.length + 1 ∧ (parseSteps n s).ing = .read ∧
      ((parseSteps n s).pbuf = [] ∨
        (∃ b, (parseSteps n s).pbuf = [b] ∧
          (b.toNat / 16 = 8 ∨ b.toNat / 16 = 9 ∨ b.toNat / 16 = 11 ∨ b.toNat / 16 = 12)) ∨
        ∃ b x, (parseSteps n s).pbuf = [b, x] ∧
          (b.toNat / 16 = 8 ∨ b.toNat / 16 = 9 ∨ b.toNat / 16 = 11))

/-- 41_parser.md R162, R172, 20_memory.md R82: the steps of a parse run apply the events that parseAll lists,
in its order, and change nothing else but PBUF and ING, so what R174 and R175 say of byte streams holds of
the machine. -/
def Obligations.ParseRunAppliesItsEventsInOrder : Prop :=
  ∀ s : State, s.mode = .midi → s.runState = .running → s.ing = .parse →
    parseSteps (s.pbuf.length + 1) s =
      { (parseAll s.cfg s.pbuf).1.foldl (fun t ev => emit ev t) s with
        pbuf := (parseAll s.cfg s.pbuf).2
        ing := .read }

/-! ### Reading the link -/

/-- 41_parser.md R160, 40_detector.md R140: INGEST_READ moves the bytes its LinkRead returns from the link to
the tail of PBUF, and PROBE_READ at most the remaining room of bytes to the tail of PROBE_BUF. The form of
a draw, and how it is cut, is the model's choice (notes/assumptions/6.md). -/
def Obligations.LinkReadsAppendLinkBytes : Prop :=
  ∀ (s : State) (k : Nat), (nextRead s).1 = .ok k →
    (s.mode = .midi → s.runState = .running → s.ing = .read →
      exec .ingestRead s = .next { s with
        readDraws := s.readDraws.tail
        oracle := if s.readDraws = [] then s.oracle + 1 else s.oracle
        link := s.link.drop (min k s.cfg.readChunk)
        pbuf := s.pbuf ++ s.link.take (min k s.cfg.readChunk)
        ing := .parse }) ∧
      (s.runState = .probing → s.probeBuf.length < s.cfg.probeMax → s.windowExpired = false →
        exec .probeRead s = .next { s with
          readDraws := s.readDraws.tail
          oracle := if s.readDraws = [] then s.oracle + 1 else s.oracle
          link := s.link.drop (min k (s.cfg.probeMax - s.probeBuf.length))
          probeBuf := s.probeBuf ++ s.link.take (min k (s.cfg.probeMax - s.probeBuf.length)) })

/-- 60_exceptions.md R305, R306, R309: an err draw in PROBE_READ or INGEST_READ ends the run: cause 3, what is
open is closed, sink before link, no link byte is taken, and nothing else changes. The record of the calls
is the model's choice (notes/assumptions/10.md). -/
def Obligations.LinkErrorEndsTheRun : Prop :=
  ∀ (s : State) (i : Instr), (nextRead s).1 = .err →
    (i = .probeRead ∧ s.runState = .probing ∧ s.probeBuf.length < s.cfg.probeMax ∧ s.windowExpired = false) ∨
      (i = .ingestRead ∧ s.mode = .midi ∧ s.runState = .running ∧ s.ing = .read) →
    exec i s = .next { s with
      readDraws := s.readDraws.tail
      oracle := if s.readDraws = [] then s.oracle + 1 else s.oracle
      faultCause := 3#8
      linkOpen := false
      sinkOpen := false
      runState := .failed
      calls := s.calls ++ (if s.sinkOpen = true then [.closeSink] else []) ++
        (if s.linkOpen = true then [.closeLink] else []) }

/-! ### The detector -/

/-- 40_detector.md R142 to R145: classify answers RAW_AUDIO exactly when the probe is long enough, has too few
patterns, and too many large bytes at odd offsets; otherwise it answers MIDI. The two counts are written
as the sizes of sets of offsets, with nibbles read by division. -/
def Obligations.ClassifyCountsPatternsAndLargeBytes : Prop :=
  ∀ (cfg : Config) (p : List Byte),
    let patterns := ((Finset.range (p.length - 2)).filter fun i =>
      ((p.getD i 0#8).toNat / 16 = 9 ∨ (p.getD i 0#8).toNat / 16 = 8 ∨ (p.getD i 0#8).toNat / 16 = 11) ∧
        (p.getD (i + 1) 0#8).toNat ≤ 0x7F ∧ (p.getD (i + 2) 0#8).toNat ≤ 0x7F).card
    let large := ((Finset.range p.length).filter fun i =>
      i % 2 = 1 ∧ 0x7F < (p.getD i 0#8).toNat).card
    classify cfg p =
      if cfg.probeMin ≤ p.length ∧ patterns < cfg.midiPatternMin ∧ p.length < large * cfg.audioDivisor then
        .rawAudio
      else .midi

/-- 40_detector.md R142, R143, R145: a probe that holds two valid three-byte frames anywhere is MIDI, whatever
the other bytes are, and whatever controller numbers the frames use. -/
def Obligations.TwoFramesMakeTheProbeMidi : Prop :=
  ∀ (cfg frames : Config) (before between after : List Byte) (f g : Instr), cfg.midiPatternMin ≤ 2 →
    frames.dataCheck = .strict → wellFormed frames f = true → wellFormed frames g = true →
    isFrame frames f = true → isFrame frames g = true →
    (encode frames f).length = 3 → (encode frames g).length = 3 →
    classify cfg (before ++ encode frames f ++ between ++ encode frames g ++ after) = .midi

/-- 40_detector.md R150: the worked example, and the probes that R151 writes out. R151's case of one pattern
with five large bytes in ten has no such probe, because a pattern needs a byte of at most 0x7F at an odd
offset. -/
def Obligations.ClassifyExamples : Prop :=
  (let p := [0x90#8, 0x40#8, 0x64#8, 0x3C#8, 0x80#8, 0x40#8, 0x00#8, 0x90#8, 0x41#8, 0x60#8];
    (List.range 8).filter (patternAt p) = [0, 4, 7] ∧ midiPatterns p = 3 ∧ audioLike p = 1 ∧ classify Config.reference p = .midi) ∧
    classify Config.reference [] = .midi ∧
    classify Config.reference [0x00#8, 0xFF#8] = .midi ∧
    classify Config.reference [0x00#8, 0xFF#8, 0x00#8] = .rawAudio ∧
    classify Config.reference [0x00#8, 0xFF#8, 0x00#8, 0x00#8] = .midi ∧
    classify Config.reference [0x90#8, 0x40#8, 0x64#8, 0x90#8, 0x40#8, 0x64#8] = .midi ∧
    classify Config.reference (List.replicate 50 0xC0#8) = .rawAudio ∧
    classify Config.reference (List.replicate 50 0x00#8) = .midi ∧
    classify Config.reference
      [0x12#8, 0x80#8, 0x34#8, 0x90#8, 0x56#8, 0xA0#8, 0x78#8, 0xB0#8, 0x11#8, 0xC0#8] = .rawAudio

/-- 40_detector.md R141, R147: WINDOW_EXPIRE sets its latch alone, and CLASSIFY decides the mode, discards the
probe, and goes to STARTING; nothing else changes, so no probe byte reaches PBUF. -/
def Obligations.ProbeEndsInOneDecision : Prop :=
  ∀ s : State, s.runState = .probing →
    (s.windowExpired = false → exec .windowExpire s = .next { s with windowExpired := true }) ∧
      (s.probeBuf.length = s.cfg.probeMax ∨ s.windowExpired = true →
        exec .classify s = .next { s with
          mode := classify s.cfg s.probeBuf
          probeBuf := []
          runState := .starting })

/-! ### Opening and ending a run -/

/-- 70_reset_and_hazards.md R342, R341, 40_detector.md R148: a successful LINK_OPEN, for each FORCE_MODE; no
link byte is consumed. The record of the call is the model's choice (notes/assumptions/10.md). -/
def Obligations.LinkOpenFollowsForceMode : Prop :=
  ∀ s : State, s.runState = .init → (nextOpen s).1 = .ok →
    exec .linkOpen s = .next { s with
      openDraws := s.openDraws.tail
      oracle := if s.openDraws = [] then s.oracle + 1 else s.oracle
      calls := s.calls ++ [.openLink]
      linkOpen := true
      mode := if s.cfg.forceMode = .midi then .midi else if s.cfg.forceMode = .raw then .rawAudio else s.mode
      runState := if s.cfg.forceMode = .auto then .probing else .starting }

/-- 70_reset_and_hazards.md R343: a successful SINK_OPEN, with the open parameters of the mode, and the
callback on the MIDI path. The record of the calls is the model's choice (notes/assumptions/10.md). -/
def Obligations.SinkOpenStartsTheRun : Prop :=
  ∀ s : State, s.runState = .starting → (nextOpen s).1 = .ok →
    (s.mode = .midi →
      exec .sinkOpen s = .next { s with
        openDraws := s.openDraws.tail
        oracle := if s.openDraws = [] then s.oracle + 1 else s.oracle
        calls := s.calls ++
          [.openSink s.cfg.sampleRate 1 s.cfg.blockFrames s.cfg.latencyHint, .registerCallback]
        sinkOpen := true
        runState := .running }) ∧
      (s.mode = .rawAudio →
        exec .sinkOpen s = .next { s with
          openDraws := s.openDraws.tail
          oracle := if s.openDraws = [] then s.oracle + 1 else s.oracle
          calls := s.calls ++
            [.openSink (s.cfg.sourceRate * s.cfg.upsampleRatio) 1 (s.cfg.blockSamples * s.cfg.upsampleRatio)
              s.cfg.latencyHint]
          sinkOpen := true
          runState := .running })

/-- 60_exceptions.md R303, R304, R306, R309: a failed open ends the run with its own cause, and what is open
is closed. The record of the calls is the model's choice (notes/assumptions/10.md). -/
def Obligations.OpenFailureEndsTheRun : Prop :=
  ∀ s : State, (nextOpen s).1 = .fail →
    (s.runState = .init →
      exec .linkOpen s = .next { s with
        openDraws := s.openDraws.tail
        oracle := if s.openDraws = [] then s.oracle + 1 else s.oracle
        faultCause := 1#8
        linkOpen := false
        sinkOpen := false
        runState := .failed
        calls := s.calls ++ [.openLink] ++ (if s.sinkOpen = true then [.closeSink] else []) ++
          (if s.linkOpen = true then [.closeLink] else []) }) ∧
      (s.runState = .starting →
        exec .sinkOpen s = .next { s with
          openDraws := s.openDraws.tail
          oracle := if s.openDraws = [] then s.oracle + 1 else s.oracle
          faultCause := 2#8
          linkOpen := false
          sinkOpen := false
          runState := .failed
          calls := s.calls ++ [sinkOpenCall s] ++ (if s.sinkOpen = true then [.closeSink] else []) ++
            (if s.linkOpen = true then [.closeLink] else []) })

/-- 60_exceptions.md R307, R308, R306, R309: STOP from any state that is not terminal, and SINK_FAULT while
RUNNING: what each writes, what it closes, and that nothing else changes, PBUF, PROBE_BUF, the voices and
VOLUME among it. The record of the calls is the model's choice (notes/assumptions/10.md). -/
def Obligations.StopAndSinkFaultEndTheRun : Prop :=
  ∀ s : State,
    (s.runState ≠ .stopped → s.runState ≠ .failed →
      exec .stop s = .next { s with
        stopReq := true
        linkOpen := false
        sinkOpen := false
        runState := .stopped
        calls := s.calls ++ (if s.sinkOpen = true then [.closeSink] else []) ++
          (if s.linkOpen = true then [.closeLink] else []) }) ∧
      (s.runState = .running →
        exec .sinkFault s = .next { s with
          faultCause := 4#8
          linkOpen := false
          sinkOpen := false
          runState := .failed
          calls := s.calls ++ (if s.sinkOpen = true then [.closeSink] else []) ++
            (if s.linkOpen = true then [.closeLink] else []) })

/-- 60_exceptions.md R314, R306: a step that ends in FAILED leaves the state as it was but for FAULT_CAUSE,
LINK_OPEN, SINK_OPEN, RUN_STATE and the link bytes it consumed, and the model's own fields for the
schedule, the draws and the calls; no block is delivered. The premise is R48's: no raw block is held
between steps. -/
def Obligations.FatalStepsArePrecise : Prop :=
  ∀ s t : State, s.rawBlock = [] → s.runState ≠ .failed → step s = .next t → t.runState = .failed →
    (∃ k, t.link = s.link.drop k) ∧ 1 ≤ t.faultCause.toNat ∧ t.faultCause.toNat ≤ 4 ∧
      t = { s with
        faultCause := t.faultCause
        linkOpen := false
        sinkOpen := false
        runState := .failed
        link := t.link
        schedule := t.schedule
        readDraws := t.readDraws
        openDraws := t.openDraws
        oracle := t.oracle
        calls := t.calls }

/-! ### The voices -/

/-- 42_voice.md R191: the FREQ table is the rule's formula on all 256 notes, and the named entries are exact.
The right side computes 2^t by the model's own pow2Cr; that this is R13's correctly rounded pow2_cr on these
arguments is an inference of the model (notes/assumptions/9.md). -/
def Obligations.FrequencyTableIsItsFormula : Prop :=
  (∀ n : Byte, freqOf n = fmul fA4_FREQ (pow2Cr (fdiv (i2f ((n.toNat : Int) - 69)) f12))) ∧
    freqOf 69#8 = 0x407B800000000000#64 ∧ freqOf 57#8 = 0x406B800000000000#64 ∧
    freqOf 81#8 = 0x408B800000000000#64

/-- 42_voice.md R194 to R200: one sample of a slot, for each est: the envelope moves first, the output is
taken from the new envelope and the old phase, and then the phase advances; SUSTAIN_LEVEL and HEADROOM are the
configuration's, 0.8 and 0.3 unless it overrides them. -/
def Obligations.SampleFollowsTheEnvelope : Prop :=
  Config.reference.sustainLevel = 0x3FE999999999999A#64 ∧ Config.reference.headroom = 0x3FD3333333333333#64 ∧
  ∀ (cfg : Config) (v : Voice),
    let out := fun e => fmul (fmul (fmul (fsub (fdiv v.phase fPI) fONE) (fmax e fZERO)) v.vel) cfg.headroom
    let phase := fmod (fadd v.phase (fdiv (fmul fTWO_PI v.freq) (i2f (cfg.sampleRate : Int)))) fTWO_PI
    let up := fadd v.env (fdiv fONE (i2f (cfg.attackSamples : Int)))
    let down := fsub v.env (fdiv v.rsl (i2f (cfg.releaseSamples : Int)))
    (v.est = .attack → fle fONE up = true →
      voiceSample cfg v = (out fONE, { v with env := fONE, est := .sustain, phase := phase })) ∧
      (v.est = .attack → fle fONE up = false →
        voiceSample cfg v = (out up, { v with env := up, phase := phase })) ∧
      (v.est = .sustain →
        voiceSample cfg v = (out cfg.sustainLevel, { v with env := cfg.sustainLevel, phase := phase })) ∧
      (v.est = .release → fle down fZERO = true →
        voiceSample cfg v = (out fZERO, { v with env := fZERO, active := false, phase := phase })) ∧
      (v.est = .release → fle down fZERO = false →
        voiceSample cfg v = (out down, { v with env := down, phase := phase }))

/-- 42_voice.md R201: a block of a slot is silence without any change when the slot is inactive and its
envelope is at most 0.0 at the block's start; otherwise it is exactly that many samples in a row, even
past the sample that ends the voice. -/
def Obligations.VoiceBlockRunsItsSamples : Prop :=
  ∀ (cfg : Config) (n : Nat) (v : Voice),
    (v.active = false → fle v.env fZERO = true → voiceBlock cfg n v = (List.replicate n fZERO, v)) ∧
      (v.active = true ∨ fle v.env fZERO = false →
        (voiceBlock cfg n v).2 = (fun u => (voiceSample cfg u).2)^[n] v ∧
          (voiceBlock cfg n v).1 =
            (List.range n).map fun j => (voiceSample cfg ((fun u => (voiceSample cfg u).2)^[j] v)).1)

/-- 42_voice.md R206: the whole table of the worked example under TC1, ten samples of a fresh slot after note
69 at velocity 127, and the phase after the last. -/
def Obligations.WorkedVoiceExample : Prop :=
  let v := fun j => (fun u => (voiceSample Config.reference u).2)^[j] (voiceNoteOn 69#8 127#8 Voice.reset)
  let row := fun j =>
    ((v (j + 1)).est, (v (j + 1)).env, (v j).phase, (voiceSample Config.reference (v j)).1)
  (List.range 10).map row = [
      (.attack, 0x3FC0000000000000#64, 0x0000000000000000#64, 0xBFA3333333333333#64),
      (.attack, 0x3FD0000000000000#64, 0x400BA5614317CB34#64, 0x3F7EB851EB851EC0#64),
      (.attack, 0x3FD8000000000000#64, 0x3FE41B2F769CF0E0#64, 0xBFB70A3D70A3D70B#64),
      (.attack, 0x3FE0000000000000#64, 0x40105616905F83B6#64, 0x3FA70A3D70A3D70B#64),
      (.attack, 0x3FE4000000000000#64, 0x3FF41B2F769CF0E0#64, 0xBFBCCCCCCCCCCCCC#64),
      (.attack, 0x3FE8000000000000#64, 0x4012D97C7F3321D2#64, 0x3FBCCCCCCCCCCCCC#64),
      (.attack, 0x3FEC000000000000#64, 0x3FFE28C731EB6950#64, 0xBFBAE147AE147AE2#64),
      (.sustain, 0x3FF0000000000000#64, 0x40155CE26E06BFEE#64, 0x3FCAE147AE147AE1#64),
      (.sustain, 0x3FE999999999999A#64, 0x40041B2F769CF0E0#64, 0xBFA89374BC6A7EF9#64),
      (.sustain, 0x3FE999999999999A#64, 0x4017E0485CDA5E0A#64, 0x3FCBA5E353F7CED9#64)] ∧ (v 10).phase = fPI

/-- 42_voice.md R199, R202, R204, R198: under strict, every output of a slot that meets R34 lies in
[−HEADROOM, HEADROOM]. The premise on the two levels holds of the source's 0.8 and 0.3; without it a configuration
that overrides them breaks R34 (notes/assumptions/23.md). -/
def Obligations.VoiceOutputStaysWithinHeadroom : Prop :=
  ∀ (cfg : Config) (v : Voice), configAdmitted cfg = true → levelsInRange cfg = true → voiceSafe .strict v = true →
    fle (fneg cfg.headroom) (voiceSample cfg v).1 = true ∧ fle (voiceSample cfg v).1 cfg.headroom = true

/-- 42_voice.md R203: a release sample of a slot that meets R34 never raises its envelope. -/
def Obligations.ReleaseNeverRaisesTheEnvelope : Prop :=
  ∀ (dc : DataCheck) (cfg : Config) (v : Voice), configAdmitted cfg = true → voiceSafe dc v = true →
    v.est = .release → fle (voiceSample cfg v).2.env v.env = true

/-! ### Blocks of the MIDI path -/

/-- 43_pool.md R238 to R240: GENERATE(n) replaces every slot by the slot after its block, delivers one block
of n samples, each the scaled, truncated and clipped sum of the slots' samples in slot order, and changes
nothing else. -/
def Obligations.GenerateDeliversTheMixedBlock : Prop :=
  ∀ (s : State) (n : Nat), s.mode = .midi → s.runState = .running → s.sinkOpen = true →
    ∃ block : Block, block.length = n ∧
      (∀ j, j < n → block[j]? = some (clip (f2iTrunc (fmul (fmul
        (s.voices.foldl (fun acc v => fadd acc ((voiceBlock s.cfg n v).1.getD j fZERO)) fZERO)
        s.volume) fFULL_SCALE)) (-32768) 32767)) ∧
      exec (.generate n) s = .next { s with
        voices := s.voices.map fun v => (voiceBlock s.cfg n v).2
        sink := s.sink ++ [block] }

/-- 43_pool.md R241: GENERATE(0) delivers an empty block and changes nothing else. -/
def Obligations.GeneratingNoFramesChangesNoVoice : Prop :=
  ∀ s : State, s.mode = .midi → s.runState = .running → s.sinkOpen = true →
    exec (.generate 0) s = .next { s with sink := s.sink ++ [[]] }

/-- 43_pool.md R234: after a panic a GENERATE delivers exact zeros and moves no slot. The premise on VOLUME is
the model's: a VOLUME_RESET is any F64, and an infinite one times 0.0 has no stated value
(notes/assumptions/12.md); so is that on the controller numbers (notes/assumptions/23.md). -/
def Obligations.PanicSilencesTheNextBlock : Prop :=
  ∀ (s : State) (ch : Nibble) (value : Byte) (n : Nat), s.mode = .midi → s.runState = .running → s.ing = .parse →
    s.cfg.ccPanic ≠ s.cfg.ccVolume → s.sinkOpen = true → isFinite s.volume = true →
    ∃ t, exec (.ccPanic ch value) s = .next t ∧
      exec (.generate n) t = .next { t with sink := t.sink ++ [List.replicate n 0] }

/-! ### The raw path -/

/-- 44_raw_resampler.md R273, R274, R110: RAW_SAMPLE fills one slot of the block in progress with the
two's-complement value of its bytes, low byte first, or with 0 where that value's magnitude is above the
limit; nothing else changes. A slot of a RAW_STEP whose read returned these bytes (R270, R271) is that
instruction. R270 writes no state of its own for a slot: that RAW_SAMPLE run by itself appends to a field of State
(rawBlock) is the model's choice (notes/assumptions/7.md). -/
def Obligations.RawSampleAssemblesAndFilters : Prop :=
  ∀ (s : State) (lo hi : Byte), s.mode = .rawAudio → s.runState = .running → s.sinkOpen = true →
    exec (.rawSample lo hi) s = .next { s with
      rawBlock := s.rawBlock ++
        [if (s.cfg.noiseLimit : Int) < |(hi ++ lo).toInt| then 0 else (hi ++ lo).toInt] } ∧
      ∀ bs, decodeRaw bs = .ok (.rawSample lo hi) → exec (.rawSample lo hi) s = .next (rawSlot bs s)

/-- 44_raw_resampler.md R270 to R274: a RAW_STEP whose reads are all ok, full, short or mixed, fills one slot from
each read: the filtered value of its two bytes, or 0 where the read returned fewer, whose odd byte is lost; it
writes the upsampled block of the slots, consumes exactly the bytes read, and changes nothing else. A draw of more
than 2 is cut to 2, and on a finite link that ends the reads return what is left. In the second part every read is
full. The form of a draw and of the link is the model's choice (notes/assumptions/6.md). -/
def Obligations.RawStepWritesTheUpsampledBlock : Prop :=
  (∀ (s : State) (ks : List Nat) (ds : List ReadDraw),
    s.mode = .rawAudio → s.runState = .running → s.sinkOpen = true →
    ks.length = s.cfg.blockSamples → s.readDraws = ks.map .ok ++ ds →
    let offset := fun j => ((ks.take j).map (min · 2)).sum
    let slot := fun j =>
      let bs := (s.link.drop (offset j)).take (min (ks.getD j 0) 2)
      if bs.length = 2 then rawValue s.cfg.noiseLimit (bs.getD 0 0#8) (bs.getD 1 0#8) else 0
    exec .rawStep s = .next { s with
      link := s.link.drop (offset ks.length)
      readDraws := ds
      rawBlock := []
      sink := s.sink ++
        [upsample s.cfg.resampleGrid ((List.range s.cfg.blockSamples).map slot) s.cfg.upsampleRatio] }) ∧
  ∀ (s : State) (pairs : List (Byte × Byte)) (rest : List Byte) (ds : List ReadDraw),
    s.mode = .rawAudio → s.runState = .running → s.sinkOpen = true →
    pairs.length = s.cfg.blockSamples → s.link.bytes = pairs.flatMap (fun p => [p.1, p.2]) ++ rest →
    s.readDraws = List.replicate s.cfg.blockSamples (.ok 2) ++ ds →
    exec .rawStep s = .next { s with
      link := { s.link with bytes := rest }
      readDraws := ds
      rawBlock := []
      sink := s.sink ++ [upsample s.cfg.resampleGrid
        (pairs.map fun p => rawValue s.cfg.noiseLimit p.1 p.2) s.cfg.upsampleRatio] }

/-- 44_raw_resampler.md R272, R275: a RAW_STEP whose reads are all short writes a block of zeros of the full
length, and every odd byte is lost, whatever the link holds. The form of a draw is the model's choice (notes/assumptions/6.md). -/
def Obligations.ShortReadsGiveSilence : Prop :=
  ∀ (s : State) (short ds : List ReadDraw), s.mode = .rawAudio → s.runState = .running → s.sinkOpen = true →
    short.length = s.cfg.blockSamples → (∀ d ∈ short, d = .ok 0 ∨ d = .ok 1) →
    s.readDraws = short ++ ds →
    exec .rawStep s = .next { s with
      link := s.link.drop (short.count (.ok 1))
      readDraws := ds
      rawBlock := []
      sink := s.sink ++ [List.replicate (s.cfg.blockSamples * s.cfg.upsampleRatio) 0] }

/-- 44_raw_resampler.md R270, 60_exceptions.md R305, R306, R312: the first err among the reads of a RAW_STEP
ends the run with cause 3; no block is written, the bytes of the earlier reads are lost, and the later
reads do not happen. The form of a draw is the model's choice (notes/assumptions/6.md). -/
def Obligations.RawLinkErrorWritesNoBlock : Prop :=
  ∀ (s : State) (ks : List Nat) (ds : List ReadDraw), s.mode = .rawAudio → s.runState = .running →
    s.sinkOpen = true → ks.length < s.cfg.blockSamples → s.readDraws = ks.map .ok ++ .err :: ds →
    exec .rawStep s = .next { s with
      link := s.link.drop (ks.map (min · 2)).sum
      readDraws := ds
      rawBlock := []
      faultCause := 3#8
      linkOpen := false
      sinkOpen := false
      runState := .failed
      calls := s.calls ++ [.closeSink] ++ (if s.linkOpen = true then [.closeLink] else []) }

/-- 44_raw_resampler.md R276 to R279: upsample returns exactly N·r samples on both grids, returns s unchanged
for r = 1, repeats a single sample, and keeps every sample of the step grid at its place. -/
def Obligations.UpsampleKeepsLengthAndSamples : Prop :=
  ∀ (grid : ResampleGrid) (s : List Sample) (r : Nat),
    (upsample grid s r).length = s.length * r ∧ upsample grid s 1 = s ∧
      (∀ x, upsample grid [x] r = List.replicate r x) ∧
      (∀ i, i < s.length → 1 ≤ r → (upsample .step s r)[i * r]? = s[i]?)

/-- 44_raw_resampler.md R276, R277: the value of each output between samples, on both grids, as the rounding
toward zero of the rule's quotient. -/
def Obligations.UpsampleInterpolatesLinearly : Prop :=
  ∀ (s : List Sample) (r : Nat), 2 ≤ s.length → 1 ≤ r →
    (∀ i k, i + 1 < s.length → k < r →
      (upsample .step s r)[i * r + k]? =
        some ((s.getD i 0 * r + (s.getD (i + 1) 0 - s.getD i 0) * k).tdiv r)) ∧
      (∀ k, k < r → (upsample .step s r)[(s.length - 1) * r + k]? = s.getLast?) ∧
      (∀ j, j + 1 < s.length * r →
        (upsample .endpoint s r)[j]? =
          some ((s.getD (j * (s.length - 1) / (s.length * r - 1)) 0 * ((s.length * r - 1 : Nat) : Int) +
            (s.getD (j * (s.length - 1) / (s.length * r - 1) + 1) 0 -
              s.getD (j * (s.length - 1) / (s.length * r - 1)) 0) *
            ((j * (s.length - 1) % (s.length * r - 1) : Nat) : Int)).tdiv ((s.length * r - 1 : Nat) : Int))) ∧
      (upsample .endpoint s r)[s.length * r - 1]? = s.getLast?

/-- 44_raw_resampler.md R282: whatever the draws, a RAW_STEP writes no block or one block of B·r samples, none
of magnitude above the noise limit. -/
def Obligations.RawBlocksStayWithinTheNoiseLimit : Prop :=
  ∀ s t : State, exec .rawStep s = .next t →
    t.sink = s.sink ∨ ∃ block : Block, t.sink = s.sink ++ [block] ∧
      block.length = s.cfg.blockSamples * s.cfg.upsampleRatio ∧ ∀ x ∈ block, |x| ≤ (s.cfg.noiseLimit : Int)

/-! ### What every step keeps -/

/-- 10_state.md R49: what reset leaves, for every configuration; est is left out, because the rule leaves it
open. -/
def Obligations.ResetLeavesTheStatedValues : Prop :=
  ∀ cfg : Config, (State.resetWith cfg).voices.length = cfg.maxVoices ∧
    (∀ v ∈ (State.resetWith cfg).voices, v.note = 0#8 ∧ v.freq = 0#64 ∧ v.vel = 0#64 ∧ v.phase = 0#64 ∧
      v.env = 0#64 ∧ v.active = false ∧ v.rsl = 0#64) ∧
    (State.resetWith cfg).volume = cfg.volumeReset ∧ (State.resetWith cfg).mode = .undecided ∧
    (State.resetWith cfg).runState = .init ∧ (State.resetWith cfg).faultCause = 0#8 ∧
    (State.resetWith cfg).linkOpen = false ∧ (State.resetWith cfg).sinkOpen = false ∧
    (State.resetWith cfg).stopReq = false ∧ (State.resetWith cfg).windowExpired = false ∧
    (State.resetWith cfg).pbuf = [] ∧ (State.resetWith cfg).ing = .read ∧ (State.resetWith cfg).probeBuf = []

/-- 10_state.md R34, R36 to R39, R45 to R48: the invariants hold at reset under every configuration, the
model's own reset among them. Off the MIDI path poolInv compares whole slots with Voice.reset, est included,
whose value there is the model's choice (notes/assumptions/3.md); that VOLUME's clause admits any reset value is
the model's reading (notes/assumptions/12.md). -/
def Obligations.ResetMeetsEveryInvariant : Prop :=
  (∀ cfg : Config, safeInv (State.resetWith cfg) = true) ∧ safeInv State.reset = true

/-- 70_reset_and_hazards.md R341, 10_state.md R36 to R39, R43, 60_exceptions.md R302: MODE, the open bits, the
latches and FAULT_CAUSE stay what each RUN_STATE allows, over every step. -/
def Obligations.StepKeepsTheRunControl : Prop :=
  ∀ s t : State, runInv s = true → step s = .next t → runInv t = true

/-- 10_state.md R45 to R48, 41_parser.md R172, 44_raw_resampler.md R283: the bounds and residues of PBUF and
PROBE_BUF hold over every step. -/
def Obligations.StepKeepsTheBuffers : Prop :=
  ∀ s t : State, runInv s = true → bufferInv s = true → step s = .next t → bufferInv t = true

/-- 10_state.md R33, R34, R31, 42_voice.md R202, R204, 43_pool.md R244, 44_raw_resampler.md R283: the slot count,
R34's ranges of every slot, and the reset values of the pool off the MIDI path hold over every step, whatever the
link, the draws and the schedule. VOLUME stays in R35's range or at its reset value, which the model lets lie outside
that range (notes/assumptions/12.md). The premise on the two levels holds of the source's 0.8 and 0.3
(notes/assumptions/23.md). -/
def Obligations.StepKeepsThePool : Prop :=
  ∀ s t : State, levelsInRange s.cfg = true → runInv s = true → poolInv s = true → step s = .next t → poolInv t = true

/-- 43_pool.md R243, 44_raw_resampler.md R282, 20_memory.md R78: every sample delivered is an i16, over every
step from any state. -/
def Obligations.DeliveredSamplesAreSixteenBit : Prop :=
  ∀ s t : State, (∀ b ∈ s.sink, ∀ x ∈ b, isI16 x = true) → step s = .next t →
    ∀ b ∈ t.sink, ∀ x ∈ b, isI16 x = true

/-- 20_memory.md R71, R78, 10_state.md R33, R41: over every step link bytes leave only from the head of the
link (Link.drop, which never goes back), at most one block is added, after all earlier ones, and the number of slots and the configuration
stay. -/
def Obligations.StreamsOnlyMoveForward : Prop :=
  ∀ s t : State, step s = .next t →
    (∃ k, t.link = s.link.drop k) ∧
      (t.sink = s.sink ∨ ∃ block, t.sink = s.sink ++ [block]) ∧
      t.voices.length = s.voices.length ∧ t.cfg = s.cfg

/-- 40_detector.md R149: once decided, MODE is the same after any number of steps. The premise is the
run-control invariant. -/
def Obligations.ModeNeverChangesOnceDecided : Prop :=
  ∀ (s : State) (n : Nat), runInv s = true → s.mode ≠ .undecided → (runSteps n s).mode = s.mode

/-- 70_reset_and_hazards.md R341: RUN_STATE stays, or moves as the rule's table says for the step that ran. -/
def Obligations.RunStateMovesAsTheTableSays : Prop :=
  ∀ (x : Txn) (s t : State), exec (txnInstr x) s = .next t →
    t.runState = s.runState ∨ transition x s.runState t.runState = true

/-- 20_memory.md R82, R85, 10_state.md R36 to R39, R42, R43: which step may write what: PBUF and ING the ingestion
steps, PROBE_BUF the probe steps, the pool PARSE_APPLY and GENERATE, MODE the decision, each latch its own
event, the sink the two generators. RUN_STATE is not written by the three steps that neither start, decide nor end;
FAULT_CAUSE only by a step that can fail, once, as the run fails; LINK_OPEN and SINK_OPEN are set only by their own
open, in INIT and in STARTING, and cleared only as the run ends. -/
def Obligations.EachRegisterHasItsWriters : Prop :=
  ∀ (x : Txn) (s t : State), exec (txnInstr x) s = .next t →
    (x ≠ .ingestRead → x ≠ .parseApply → t.pbuf = s.pbuf ∧ t.ing = s.ing) ∧
      (x ≠ .probeRead → x ≠ .classify → t.probeBuf = s.probeBuf) ∧
      (x ≠ .parseApply → (∀ n, x ≠ .generate n) → t.voices = s.voices) ∧
      (x ≠ .parseApply → t.volume = s.volume) ∧
      (x ≠ .linkOpen → x ≠ .classify → t.mode = s.mode) ∧
      (x ≠ .stop → t.stopReq = s.stopReq) ∧ (x ≠ .windowExpire → t.windowExpired = s.windowExpired) ∧
      ((∀ n, x ≠ .generate n) → x ≠ .rawStep → t.sink = s.sink) ∧
      (x = .windowExpire ∨ x = .parseApply ∨ (∃ n, x = .generate n) → t.runState = s.runState) ∧
      (t.faultCause ≠ s.faultCause →
        (x = .linkOpen ∨ x = .probeRead ∨ x = .sinkOpen ∨ x = .ingestRead ∨ x = .rawStep ∨ x = .sinkFault) ∧
          s.runState ≠ .failed ∧ t.runState = .failed) ∧
      (t.linkOpen ≠ s.linkOpen →
        (x = .linkOpen ∧ t.linkOpen = true ∧ s.runState = .init) ∨
          (t.linkOpen = false ∧ (t.runState = .stopped ∨ t.runState = .failed))) ∧
      (t.sinkOpen ≠ s.sinkOpen →
        (x = .sinkOpen ∧ t.sinkOpen = true ∧ s.runState = .starting) ∨
          (t.sinkOpen = false ∧ (t.runState = .stopped ∨ t.runState = .failed)))

/-- 44_raw_resampler.md R283: over any number of steps of a raw run, the voices, VOLUME, PBUF and ING never
change. The premise is the run-control invariant. -/
def Obligations.RawRunsLeaveThePoolAlone : Prop :=
  ∀ (s : State) (n : Nat), runInv s = true → s.mode = .rawAudio →
    (runSteps n s).voices = s.voices ∧ (runSteps n s).volume = s.volume ∧ (runSteps n s).pbuf = s.pbuf ∧
      (runSteps n s).ing = s.ing
end

