-- ==== Sys2Proof/Laws/Decode.lean ====
section
/-! SUPPORT. What the decoder's parts do, each said once: the nibbles of a status byte, the recognized
status codes, when the decoder refuses, and which instructions it gives. -/

namespace Sys2Proof

@[simp] theorem highNibble_statusByte : ∀ hi lo : Nibble, highNibble (statusByte hi lo) = hi := by decide

@[simp] theorem lowNibble_statusByte : ∀ hi lo : Nibble, lowNibble (statusByte hi lo) = lo := by decide

@[simp] theorem statusByte_nibbles : ∀ b : Byte, statusByte (highNibble b) (lowNibble b) = b := by decide

@[simp] theorem frameTypeOf_typeNibble (t : FrameType) : frameTypeOf (typeNibble t) = some t := by
  cases t <;> rfl

theorem frameTypeOf_eq_some {hi : Nibble} {t : FrameType} (h : frameTypeOf hi = some t) :
    hi = typeNibble t := by
  revert hi; cases t <;> decide

/-- The head bytes that are dropped are those of no frame type (R105). -/
theorem frameTypeOf_eq_none_iff (hi : Nibble) :
    frameTypeOf hi = none ↔ hi ≠ 0x8#4 ∧ hi ≠ 0x9#4 ∧ hi ≠ 0xB#4 ∧ hi ≠ 0xC#4 := by
  revert hi; decide

/-- A status byte's bit 7 is 1. -/
theorem bit7_of_frameType : ∀ b : Byte, (frameTypeOf (highNibble b)).isSome = true → bit7 b = true := by
  decide

theorem bit7_eq_false_iff (b : Byte) : bit7 b = false ↔ b.toNat ≤ 0x7F := by revert b; decide

/-- A drop's encoding names no controller, so no configuration matters to it. -/
theorem encode_dropOf (cfg cfg' : Config) (b : Byte) : encode cfg (dropOf b) = encode cfg' (dropOf b) := by
  unfold dropOf; repeat (first | rfl | split)

@[simp] theorem dropOf_bytes (cfg : Config) (b : Byte) (h : frameTypeOf (highNibble b) = none) :
    encode cfg (dropOf b) = [b] := by
  rw [encode_dropOf cfg Config.reference]
  revert b; decide

theorem dropOf_dropData : ∀ b : BitVec 7, dropOf (b.setWidth 8) = .dropData b := by decide

theorem dropOf_statusByte :
    ∀ n : Nibble, dropOf (statusByte 0xA#4 n) = .dropA n ∧ dropOf (statusByte 0xD#4 n) = .dropD n ∧
      dropOf (statusByte 0xE#4 n) = .dropE n ∧ dropOf (statusByte 0xF#4 n) = .dropSys n := by decide

/-- A drop has no event and consumes one byte. -/
theorem dropOf_parse (cfg : Config) (b : Byte) : eventOf cfg (dropOf b) = none ∧ consumedBy (dropOf b) = 1 := by
  unfold dropOf; repeat (first | split | exact ⟨rfl, rfl⟩)

/-- Only the empty buffer has no instruction at its head (R107, R171). -/
theorem decodeMidi_error_iff (cfg : Config) (bs : List Byte) (r : Reject) :
    decodeMidi cfg bs = .error r ↔ bs = [] ∧ r = .emptyBuffer := by
  cases bs with
  | nil => simp [decodeMidi, eq_comm]
  | cons b rest => simp only [decodeMidi]; split <;> simp

/-- The decoder of the MIDI path reads three parameters of the configuration and no other (R6). -/
theorem decodeMidi_congr {c d : Config} (hd : c.dataCheck = d.dataCheck) (hv : c.ccVolume = d.ccVolume)
    (hp : c.ccPanic = d.ccPanic) (bs : List Byte) : decodeMidi c bs = decodeMidi d bs := by
  have h1 : ccVolumeNumber c = ccVolumeNumber d := congrArg (BitVec.setWidth 8) hv
  have h2 : ccPanicNumber c = ccPanicNumber d := congrArg (BitVec.setWidth 8) hp
  have hf : frameOf c = frameOf d := by funext t ch d1 d2; unfold frameOf; rw [h1, h2]
  have hr : decodeFrame c = decodeFrame d := by funext t ch rest; unfold decodeFrame; rw [hd, hf]
  unfold decodeMidi
  rw [hr]

theorem dropOf_onMidiPath (b : Byte) : onMidiPath (dropOf b) = true := by
  unfold dropOf; repeat (first | split | rfl)

theorem frameOf_onMidiPath (cfg : Config) (t : FrameType) (ch : Nibble) (d1 d2 : Byte) :
    onMidiPath (frameOf cfg t ch d1 d2) = true := by
  cases t <;> simp only [frameOf] <;> repeat (first | rfl | split)

theorem decodeFrame_onMidiPath (cfg : Config) (t : FrameType) (ch : Nibble) (rest : List Byte) :
    onMidiPath (decodeFrame cfg t ch rest) = true := by
  unfold decodeFrame
  split <;> (try split) <;> first | rfl | exact frameOf_onMidiPath _ _ _ _ _

/-- The decoder of the MIDI path gives only rows that the parser reads. -/
theorem decodeMidi_onMidiPath {cfg : Config} {bs : List Byte} {i : Instr}
    (h : decodeMidi cfg bs = .ok i) : onMidiPath i = true := by
  cases bs with
  | nil => cases h
  | cons b rest =>
    simp only [decodeMidi] at h
    split at h <;> cases h
    · exact dropOf_onMidiPath b
    · exact decodeFrame_onMidiPath _ _ _ _

/-- A row of the MIDI path run from PBUF is the row run by `exec`. -/
theorem execDecoded_eq_exec {i : Instr} (h : onMidiPath i = true) (s : Machine.State) :
    Machine.execDecoded i s = Machine.exec i s := by
  cases i <;> first | rfl | cases h

end Sys2Proof
end

