-- ==== Sys2Proof/Laws/Float64.lean ====
section
/-! SUPPORT. The laws of binary64 rounding (00_scope.md rule R12): rounding keeps its place among the
representable values (`le_roundMag`, `roundMag_le`), so it is monotone, and exact on a representable value;
from that, the sign and the range of sums, differences, quotients and remainders. -/

namespace Sys2Proof.Machine

/-- The quanta of a magnitude pattern: what `mag` reads from the low 63 bits. -/
def magBits (b : Nat) : Nat :=
  if b / 2 ^ 52 = 0 then b % 2 ^ 52 else (2 ^ 52 + b % 2 ^ 52) * 2 ^ (b / 2 ^ 52 - 1)

theorem roundNearestEven_ge (n d : Nat) : n / d ≤ roundNearestEven n d := by
  unfold roundNearestEven; split <;> omega

/-- Rounding never passes an integer that bounds the value from above. -/
theorem roundNearestEven_le {n d c : Nat} (hd : 0 < d) (h : n ≤ c * d) : roundNearestEven n d ≤ c := by
  have hdm := Nat.div_add_mod n d
  have hq : n / d ≤ c := by
    calc n / d ≤ c * d / d := Nat.div_le_div_right h
      _ = c := Nat.mul_div_cancel c hd
  unfold roundNearestEven
  split
  · rename_i hr
    have hpos : 0 < n % d := by omega
    rcases Nat.lt_or_ge (n / d) c with hlt | hge
    · omega
    · exfalso
      have : d * c ≤ d * (n / d) := Nat.mul_le_mul_left d hge
      rw [Nat.mul_comm] at h
      omega
  · exact hq

theorem roundShift_spec (n d : Nat) :
    (roundShift n d = 0 ∧ n / d < 2 ^ 53) ∨
      (0 < roundShift n d ∧ 2 ^ (52 + roundShift n d) ≤ n / d ∧ n / d < 2 ^ (53 + roundShift n d)) := by
  unfold roundShift
  rcases Nat.eq_zero_or_pos (n / d) with h0 | hpos
  · left; simp [h0]
  · have h1 := Nat.log2_self_le (by omega : n / d ≠ 0)
    have h2 : n / d < 2 ^ ((n / d).log2 + 1) := Nat.lt_log2_self
    rcases Nat.lt_or_ge 52 (n / d).log2 with h | h
    · right
      refine ⟨by omega, ?_, ?_⟩
      · rwa [show 52 + ((n / d).log2 - 52) = (n / d).log2 by omega]
      · rwa [show 53 + ((n / d).log2 - 52) = (n / d).log2 + 1 by omega]
    · left
      refine ⟨by omega, lt_of_lt_of_le h2 (Nat.pow_le_pow_right (by norm_num) (by omega))⟩

theorem div_mul_pow (n d k : Nat) : n / (d * 2 ^ k) = n / d / 2 ^ k := (Nat.div_div_eq_div_mul n d _).symm

theorem magBits_of_exp_zero {b : Nat} (h : b / 2 ^ 52 = 0) : magBits b = b := by
  simp only [magBits, h, if_true]; omega

theorem magBits_of_exp_succ {b e : Nat} (h : b / 2 ^ 52 = e + 1) :
    magBits b = (2 ^ 52 + b % 2 ^ 52) * 2 ^ e := by
  rw [magBits, if_neg (by omega), h, Nat.add_sub_cancel]

/-- A representable value at most the exact one is at most the rounded one. -/
theorem le_roundMag {b n d : Nat} (hd : 0 < d) (hb : b ≤ 2047 * 2 ^ 52) (h : magBits b * d ≤ n) :
    b ≤ roundMag n d := by
  have hq : magBits b ≤ n / d := (Nat.le_div_iff_mul_le hd).mpr h
  have hge := roundNearestEven_ge n (d * 2 ^ roundShift n d)
  rw [div_mul_pow] at hge
  have hbdm := Nat.div_add_mod b (2 ^ 52)
  have hf : b % 2 ^ 52 < 2 ^ 52 := Nat.mod_lt _ (by norm_num)
  suffices hs : b ≤ 2 ^ 52 * roundShift n d + n / d / 2 ^ roundShift n d by
    unfold roundMag; omega
  have hk := roundShift_spec n d
  generalize roundShift n d = k at *
  generalize n / d = q at *
  have hm : 0 < k → 2 ^ 52 ≤ q / 2 ^ k := fun h0 => by
    rw [Nat.le_div_iff_mul_le (Nat.two_pow_pos k), ← Nat.pow_add]
    rcases hk with hk | hk <;> omega
  rcases Nat.eq_zero_or_pos (b / 2 ^ 52) with he | he
  · rw [magBits_of_exp_zero he] at hq
    rcases Nat.eq_zero_or_pos k with h0 | h0
    · subst h0; simpa using hq
    · have : 2 ^ 52 * 1 ≤ 2 ^ 52 * k := Nat.mul_le_mul_left _ h0
      omega
  · obtain ⟨e, he⟩ : ∃ e, b / 2 ^ 52 = e + 1 := ⟨b / 2 ^ 52 - 1, by omega⟩
    rw [magBits_of_exp_succ he] at hq
    rw [he] at hbdm
    have hke : e ≤ k := by
      by_contra hlt
      have h2 : q < 2 ^ (53 + k) := by
        rcases hk with hk | hk
        · simpa [hk.1] using hk.2
        · exact hk.2.2
      have h3 : 2 ^ (53 + k) ≤ 2 ^ (52 + e) := Nat.pow_le_pow_right (by norm_num) (by omega)
      have h4 : 2 ^ 52 * 2 ^ e ≤ (2 ^ 52 + b % 2 ^ 52) * 2 ^ e := Nat.mul_le_mul_right _ (by omega)
      rw [← Nat.pow_add] at h4
      omega
    rcases Nat.lt_or_ge e k with h0 | h0
    · have h5 := hm (by omega)
      have h6 : 2 ^ 52 * (e + 1) ≤ 2 ^ 52 * k := Nat.mul_le_mul_left _ h0
      omega
    · obtain rfl : e = k := by omega
      have h5 : 2 ^ 52 + b % 2 ^ 52 ≤ q / 2 ^ e :=
        (Nat.le_div_iff_mul_le (Nat.two_pow_pos e)).mpr hq
      omega

/-- A representable value at least the exact one is at least the rounded one. -/
theorem roundMag_le {b n d : Nat} (hd : 0 < d) (h : n ≤ magBits b * d) : roundMag n d ≤ b := by
  rcases Nat.lt_or_ge (2047 * 2 ^ 52) b with hbig | hb
  · unfold roundMag; omega
  have hq : n / d ≤ magBits b := by
    calc n / d ≤ magBits b * d / d := Nat.div_le_div_right h
      _ = magBits b := Nat.mul_div_cancel _ hd
  have hbdm := Nat.div_add_mod b (2 ^ 52)
  have hf : b % 2 ^ 52 < 2 ^ 52 := Nat.mod_lt _ (by norm_num)
  suffices hs : 2 ^ 52 * roundShift n d + roundNearestEven n (d * 2 ^ roundShift n d) ≤ b by
    unfold roundMag; omega
  have hk := roundShift_spec n d
  have hD : 0 < d * 2 ^ roundShift n d := Nat.mul_pos hd (Nat.two_pow_pos _)
  have hup : ∀ c, n ≤ c * (d * 2 ^ roundShift n d) →
      roundNearestEven n (d * 2 ^ roundShift n d) ≤ c := fun c hc => roundNearestEven_le hD hc
  generalize roundShift n d = k at *
  have hn : n < d * (n / d + 1) := Nat.lt_mul_div_succ n hd
  generalize n / d = q at *
  generalize roundNearestEven n (d * 2 ^ k) = m at *
  rcases Nat.eq_zero_or_pos (b / 2 ^ 52) with he | he
  · rw [magBits_of_exp_zero he] at hq h
    have hk0 : k = 0 := by
      rcases hk with hk | hk
      · exact hk.1
      · have : 2 ^ 52 ≤ 2 ^ (52 + k) := Nat.pow_le_pow_right (by norm_num) (by omega)
        omega
    subst hk0
    have := hup b (by simpa using h)
    omega
  · obtain ⟨e, he⟩ : ∃ e, b / 2 ^ 52 = e + 1 := ⟨b / 2 ^ 52 - 1, by omega⟩
    rw [magBits_of_exp_succ he] at hq h
    rw [he] at hbdm
    have hke : k ≤ e := by
      rcases hk with hk | hk
      · omega
      · by_contra hlt
        have h3 : 2 ^ (53 + e) ≤ 2 ^ (52 + k) := Nat.pow_le_pow_right (by norm_num) (by omega)
        have h4 : (2 ^ 52 + b % 2 ^ 52) * 2 ^ e < 2 ^ 53 * 2 ^ e :=
          Nat.mul_lt_mul_of_pos_right (by omega) (Nat.two_pow_pos e)
        rw [← Nat.pow_add] at h4
        omega
    rcases Nat.lt_or_ge k e with h0 | h0
    · have h5 : m ≤ 2 ^ 53 := by
        apply hup
        have h2 : q + 1 ≤ 2 ^ (53 + k) := by
          rcases hk with hk | hk
          · simpa [hk.1] using hk.2
          · exact hk.2.2
        calc n ≤ d * (q + 1) := hn.le
          _ ≤ d * 2 ^ (53 + k) := Nat.mul_le_mul_left _ h2
          _ = 2 ^ 53 * (d * 2 ^ k) := by rw [Nat.pow_add]; ring
      have h6 : 2 ^ 52 * (k + 1) ≤ 2 ^ 52 * e := Nat.mul_le_mul_left _ h0
      omega
    · obtain rfl : k = e := by omega
      have := hup (2 ^ 52 + b % 2 ^ 52) (h.trans_eq (by ring))
      omega

/-- Rounding is exact on a representable value. -/
theorem roundMag_exact {b d : Nat} (hd : 0 < d) (hb : b ≤ 2047 * 2 ^ 52) :
    roundMag (magBits b * d) d = b :=
  le_antisymm (roundMag_le hd le_rfl) (le_roundMag hd hb le_rfl)

theorem roundMag_bound (n d : Nat) : roundMag n d ≤ 2047 * 2 ^ 52 := Nat.min_le_right _ _

/-- The order of magnitude patterns is the order of their values. -/
theorem magBits_lt {a b : Nat} (hb : b ≤ 2047 * 2 ^ 52) (h : a < b) : magBits a < magBits b := by
  by_contra hle
  have := roundMag_le (b := a) (n := magBits b * 1) (d := 1) (by norm_num) (by simpa using Nat.le_of_not_lt hle)
  rw [roundMag_exact (by norm_num) hb] at this
  omega

theorem magBits_le {a b : Nat} (hb : b ≤ 2047 * 2 ^ 52) (h : a ≤ b) : magBits a ≤ magBits b := by
  rcases Nat.lt_or_eq_of_le h with h | rfl
  · exact (magBits_lt hb h).le
  · exact le_rfl

/-- Rounding a value at most a representable one gives at most that one. -/
theorem magBits_roundMag_le {b n d : Nat} (hd : 0 < d) (hb : b ≤ 2047 * 2 ^ 52)
    (h : n ≤ magBits b * d) : magBits (roundMag n d) ≤ magBits b :=
  magBits_le hb (roundMag_le hd h)

/-- Rounding a value at least a representable one gives at least that one. -/
theorem le_magBits_roundMag {b n d : Nat} (hd : 0 < d) (hb : b ≤ 2047 * 2 ^ 52)
    (h : magBits b * d ≤ n) : magBits b ≤ magBits (roundMag n d) :=
  magBits_le (roundMag_bound n d) (le_roundMag hd hb h)

/-- The quanta of an infinity, above every finite pattern. -/
def infQuanta : Nat := 2 ^ 52 * 2 ^ 2046

/-! ### Patterns -/

theorem mag_eq_magBits (x : F64) : mag x = magBits (x.toNat % 2 ^ 63) := by
  have he : x.toNat % 2 ^ 63 / 2 ^ 52 = expField x := by unfold expField; omega
  have hf : x.toNat % 2 ^ 63 % 2 ^ 52 = fracField x := by unfold fracField; omega
  simp only [mag, magBits, he, hf]

theorem roundQ_toNat (neg : Bool) (n d : Nat) :
    (roundQ neg n d).toNat = (if neg then 2 ^ 63 else 0) + roundMag n d := by
  have := roundMag_bound n d
  cases neg
  · simp only [roundQ, BitVec.toNat_ofNat]
    rw [if_neg (by simp), if_neg (by simp), Nat.mod_eq_of_lt (by omega), Nat.zero_add]
  · simp only [roundQ, BitVec.toNat_ofNat]
    rw [if_pos trivial, if_pos trivial, Nat.mod_eq_of_lt (by omega)]

@[simp] theorem mag_roundQ (neg : Bool) (n d : Nat) :
    mag (roundQ neg n d) = magBits (roundMag n d) := by
  have := roundMag_bound n d
  rw [mag_eq_magBits, roundQ_toNat]
  congr 1
  split <;> omega

@[simp] theorem signBit_roundQ (neg : Bool) (n d : Nat) : signBit (roundQ neg n d) = neg := by
  have := roundMag_bound n d
  rw [signBit, BitVec.msb_eq_decide, roundQ_toNat]
  cases neg
  · simp; omega
  · simp

@[simp] theorem isNaN_roundQ (neg : Bool) (n d : Nat) : isNaN (roundQ neg n d) = false := by
  have hb := roundMag_bound n d
  simp only [isNaN, expField, fracField, roundQ_toNat, Bool.and_eq_false_imp, beq_iff_eq, bne_eq_false_iff_eq]
  intro h
  cases neg <;> simp at * <;> omega

/-- The value of a rounded result. -/
theorem quanta_roundQ (neg : Bool) (n d : Nat) :
    quanta (roundQ neg n d) =
      if neg then -(magBits (roundMag n d) : Int) else (magBits (roundMag n d) : Int) := by
  simp [quanta]

theorem toNat_le_of_not_nan {x : F64} (h : isNaN x = false) : x.toNat % 2 ^ 63 ≤ 2047 * 2 ^ 52 := by
  simp only [isNaN, expField, fracField, Bool.and_eq_false_imp, beq_iff_eq, bne_eq_false_iff_eq] at h
  omega

theorem isInf_mag {x : F64} (h : isInf x = true) : mag x = infQuanta := by
  simp only [isInf, Bool.and_eq_true, beq_iff_eq] at h
  rw [mag, if_neg (by omega), h.1, h.2, Nat.add_zero, infQuanta]

/-- A pattern that is no NaN and lies below the infinities is finite. -/
theorem isInf_eq_false {x : F64} (h : mag x < infQuanta) : isInf x = false := by
  cases hi : isInf x
  · rfl
  · rw [isInf_mag hi] at h; omega

theorem isFinite_of_mag_lt {x : F64} (hn : isNaN x = false) (h : mag x < infQuanta) :
    isFinite x = true := by
  have hi := isInf_eq_false h
  simp only [isNaN, isInf, isFinite] at *
  cases he : (expField x == 2047) <;> cases hf : (fracField x == 0) <;> simp_all

theorem fle_iff (x y : F64) :
    fle x y = true ↔ isNaN x = false ∧ isNaN y = false ∧ quanta x ≤ quanta y := by
  simp [fle, and_assoc]

theorem flt_iff (x y : F64) :
    flt x y = true ↔ isNaN x = false ∧ isNaN y = false ∧ quanta x < quanta y := by
  simp [flt, and_assoc]

theorem feq_iff (x y : F64) :
    feq x y = true ↔ isNaN x = false ∧ isNaN y = false ∧ quanta x = quanta y := by
  simp [feq, and_assoc]

theorem quanta_natAbs (x : F64) : (quanta x).natAbs = mag x := by
  unfold quanta; split <;> omega

theorem quanta_of_nonneg {x : F64} (h : 0 ≤ quanta x) : quanta x = (mag x : Int) := by
  have := quanta_natAbs x; omega

@[simp] theorem quanta_fZERO : quanta fZERO = 0 := by decide
@[simp] theorem isNaN_fZERO : isNaN fZERO = false := by decide
@[simp] theorem isNaN_fONE : isNaN fONE = false := by decide
theorem mag_fONE : mag fONE = quantaPerOne := by decide +kernel
theorem quanta_fONE : quanta fONE = (quantaPerOne : Int) := by
  rw [quanta, show signBit fONE = false by decide, mag_fONE]; rfl

/-! ### Rounding against powers of two and against 1.0 -/

theorem magBits_pow {e : Nat} : magBits (2 ^ 52 * (e + 1)) = 2 ^ (52 + e) := by
  rw [magBits_of_exp_succ (e := e) (by omega), Nat.mul_mod_right, Nat.add_zero, ← Nat.pow_add]

theorem quantaPerOne_eq : quantaPerOne = magBits (2 ^ 52 * 1023) := by
  rw [show (1023 : Nat) = 1022 + 1 from rfl, magBits_pow, quantaPerOne]

theorem quantaPerOne_pos : 0 < quantaPerOne := Nat.two_pow_pos _

/-- Rounding a value at most a power of two gives at most that power. -/
theorem magBits_roundMag_le_pow {n d e : Nat} (hd : 0 < d) (he : e < 2046) (h : n ≤ 2 ^ (52 + e) * d) :
    magBits (roundMag n d) ≤ 2 ^ (52 + e) := by
  rw [← magBits_pow (e := e)] at h ⊢
  exact magBits_roundMag_le hd (by omega) h

theorem magBits_roundMag_le_one {n d : Nat} (hd : 0 < d) (h : n ≤ quantaPerOne * d) :
    magBits (roundMag n d) ≤ quantaPerOne := by
  rw [quantaPerOne_eq] at h ⊢
  exact magBits_roundMag_le hd (by norm_num) h

theorem one_le_magBits_roundMag {n d : Nat} (hd : 0 < d) (h : quantaPerOne * d ≤ n) :
    quantaPerOne ≤ magBits (roundMag n d) := by
  rw [quantaPerOne_eq] at h ⊢
  exact le_magBits_roundMag hd (by norm_num) h

theorem infQuanta_eq : infQuanta = 2 ^ (52 + 2046) := by rw [infQuanta, Nat.pow_add]

theorem quantaPerOne_lt_inf : quantaPerOne < infQuanta := by
  rw [infQuanta_eq]; exact Nat.pow_lt_pow_right (by norm_num) (by norm_num)

/-- A significand of 53 bits at any exponent of the format is representable. -/
theorem representable {e : Nat} : ∀ {m : Nat}, m < 2 ^ 53 → m * 2 ^ e < infQuanta →
    ∃ b, b ≤ 2047 * 2 ^ 52 ∧ magBits b = m * 2 ^ e := by
  induction e with
  | zero =>
    intro m hm _
    refine ⟨m, by omega, ?_⟩
    rw [Nat.pow_zero, Nat.mul_one]
    rcases Nat.lt_or_ge m (2 ^ 52) with h | h
    · exact magBits_of_exp_zero (Nat.div_eq_of_lt h)
    · rw [magBits_of_exp_succ (e := 0) (by omega)]; omega
  | succ e ih =>
    intro m hm hlt
    rcases Nat.lt_or_ge m (2 ^ 52) with h | h
    · have heq : m * 2 ^ (e + 1) = 2 * m * 2 ^ e := by rw [Nat.pow_succ]; ring
      rw [heq] at hlt ⊢
      exact ih (by omega) hlt
    · have hee : e + 1 < 2046 := by
        by_contra hge
        have h1 : 2 ^ 2046 ≤ 2 ^ (e + 1) := Nat.pow_le_pow_right (by norm_num) (by omega)
        have h2 := Nat.mul_le_mul h h1
        rw [infQuanta] at hlt
        exact Nat.not_le.mpr hlt h2
      refine ⟨2 ^ 52 * (e + 1) + m, by omega, ?_⟩
      rw [magBits_of_exp_succ (e := e + 1) (by omega)]
      congr 1
      omega

/-- The magnitude of a pattern is a significand of 53 bits at some exponent. -/
theorem mag_form (x : F64) : ∃ m e, m < 2 ^ 53 ∧ mag x = m * 2 ^ e := by
  have hf : fracField x < 2 ^ 52 := Nat.mod_lt _ (by norm_num)
  unfold mag
  split
  · exact ⟨fracField x, 0, by omega, by simp⟩
  · exact ⟨2 ^ 52 + fracField x, _, by omega, rfl⟩

/-- The remainder of two representable values is representable (R13: fmod needs no rounding). -/
theorem mod_representable {x y : F64} (hy : 0 < mag y) (hyf : mag y < infQuanta) :
    ∃ b, b ≤ 2047 * 2 ^ 52 ∧ magBits b = mag x % mag y := by
  obtain ⟨mx, ex, hmx, hx⟩ := mag_form x
  obtain ⟨my, ey, hmy, hyy⟩ := mag_form y
  have hlt : mag x % mag y < mag y := Nat.mod_lt _ hy
  rcases Nat.le_total ey ex with h | h
  · have hr : mag x % mag y = mx * 2 ^ (ex - ey) % my * 2 ^ ey := by
      rw [hx, hyy, show mx * 2 ^ ex = mx * 2 ^ (ex - ey) * 2 ^ ey by
        rw [Nat.mul_assoc, ← Nat.pow_add, Nat.sub_add_cancel h], Nat.mul_mod_mul_right]
    rw [hr] at hlt ⊢
    rw [hyy] at hy
    have hmy0 : 0 < my := Nat.pos_of_mul_pos_right hy
    exact representable (lt_trans (Nat.mod_lt _ hmy0) hmy) (hlt.trans hyf)
  · have hr : mag x % mag y = mx % (my * 2 ^ (ey - ex)) * 2 ^ ex := by
      rw [hx, hyy, show my * 2 ^ ey = my * 2 ^ (ey - ex) * 2 ^ ex by
        rw [Nat.mul_assoc, ← Nat.pow_add, Nat.sub_add_cancel h], Nat.mul_mod_mul_right]
    rw [hr] at hlt ⊢
    exact representable (lt_of_le_of_lt (Nat.mod_le _ _) hmx) (hlt.trans hyf)

end Sys2Proof.Machine
end

