-- ==== Sys2Proof/Laws/State.lean ====
section
/-! SUPPORT. One lemma per field for every named update of State, so that no later proof unfolds one; for
the two updates with conditions, teardown and fatal, the same by one case split. -/

namespace Sys2Proof.Machine

@[simp] theorem consume_voices (k : Nat) (s : State) : (consume k s).voices = s.voices := rfl
@[simp] theorem consume_volume (k : Nat) (s : State) : (consume k s).volume = s.volume := rfl
@[simp] theorem consume_runState (k : Nat) (s : State) : (consume k s).runState = s.runState := rfl
@[simp] theorem consume_mode (k : Nat) (s : State) : (consume k s).mode = s.mode := rfl
@[simp] theorem consume_faultCause (k : Nat) (s : State) : (consume k s).faultCause = s.faultCause := rfl
@[simp] theorem consume_linkOpen (k : Nat) (s : State) : (consume k s).linkOpen = s.linkOpen := rfl
@[simp] theorem consume_sinkOpen (k : Nat) (s : State) : (consume k s).sinkOpen = s.sinkOpen := rfl
@[simp] theorem consume_stopReq (k : Nat) (s : State) : (consume k s).stopReq = s.stopReq := rfl
@[simp] theorem consume_windowExpired (k : Nat) (s : State) : (consume k s).windowExpired = s.windowExpired := rfl
@[simp] theorem consume_pbuf (k : Nat) (s : State) : (consume k s).pbuf = s.pbuf.drop k := rfl
@[simp] theorem consume_ing (k : Nat) (s : State) : (consume k s).ing = s.ing := rfl
@[simp] theorem consume_probeBuf (k : Nat) (s : State) : (consume k s).probeBuf = s.probeBuf := rfl
@[simp] theorem consume_cfg (k : Nat) (s : State) : (consume k s).cfg = s.cfg := rfl
@[simp] theorem consume_link (k : Nat) (s : State) : (consume k s).link = s.link := rfl
@[simp] theorem consume_readDraws (k : Nat) (s : State) : (consume k s).readDraws = s.readDraws := rfl
@[simp] theorem consume_openDraws (k : Nat) (s : State) : (consume k s).openDraws = s.openDraws := rfl
@[simp] theorem consume_schedule (k : Nat) (s : State) : (consume k s).schedule = s.schedule := rfl
@[simp] theorem consume_oracle (k : Nat) (s : State) : (consume k s).oracle = s.oracle := rfl
@[simp] theorem consume_rawBlock (k : Nat) (s : State) : (consume k s).rawBlock = s.rawBlock := rfl
@[simp] theorem consume_sink (k : Nat) (s : State) : (consume k s).sink = s.sink := rfl
@[simp] theorem consume_calls (k : Nat) (s : State) : (consume k s).calls = s.calls := rfl

@[simp] theorem pushSample_voices (v : Sample) (s : State) : (pushSample v s).voices = s.voices := rfl
@[simp] theorem pushSample_volume (v : Sample) (s : State) : (pushSample v s).volume = s.volume := rfl
@[simp] theorem pushSample_runState (v : Sample) (s : State) : (pushSample v s).runState = s.runState := rfl
@[simp] theorem pushSample_mode (v : Sample) (s : State) : (pushSample v s).mode = s.mode := rfl
@[simp] theorem pushSample_faultCause (v : Sample) (s : State) : (pushSample v s).faultCause = s.faultCause := rfl
@[simp] theorem pushSample_linkOpen (v : Sample) (s : State) : (pushSample v s).linkOpen = s.linkOpen := rfl
@[simp] theorem pushSample_sinkOpen (v : Sample) (s : State) : (pushSample v s).sinkOpen = s.sinkOpen := rfl
@[simp] theorem pushSample_stopReq (v : Sample) (s : State) : (pushSample v s).stopReq = s.stopReq := rfl
@[simp] theorem pushSample_windowExpired (v : Sample) (s : State) : (pushSample v s).windowExpired = s.windowExpired := rfl
@[simp] theorem pushSample_pbuf (v : Sample) (s : State) : (pushSample v s).pbuf = s.pbuf := rfl
@[simp] theorem pushSample_ing (v : Sample) (s : State) : (pushSample v s).ing = s.ing := rfl
@[simp] theorem pushSample_probeBuf (v : Sample) (s : State) : (pushSample v s).probeBuf = s.probeBuf := rfl
@[simp] theorem pushSample_cfg (v : Sample) (s : State) : (pushSample v s).cfg = s.cfg := rfl
@[simp] theorem pushSample_link (v : Sample) (s : State) : (pushSample v s).link = s.link := rfl
@[simp] theorem pushSample_readDraws (v : Sample) (s : State) : (pushSample v s).readDraws = s.readDraws := rfl
@[simp] theorem pushSample_openDraws (v : Sample) (s : State) : (pushSample v s).openDraws = s.openDraws := rfl
@[simp] theorem pushSample_schedule (v : Sample) (s : State) : (pushSample v s).schedule = s.schedule := rfl
@[simp] theorem pushSample_oracle (v : Sample) (s : State) : (pushSample v s).oracle = s.oracle := rfl
@[simp] theorem pushSample_rawBlock (v : Sample) (s : State) : (pushSample v s).rawBlock = s.rawBlock ++ [v] := rfl
@[simp] theorem pushSample_sink (v : Sample) (s : State) : (pushSample v s).sink = s.sink := rfl
@[simp] theorem pushSample_calls (v : Sample) (s : State) : (pushSample v s).calls = s.calls := rfl

@[simp] theorem sinkWrite_voices (b : Block) (s : State) : (sinkWrite b s).voices = s.voices := rfl
@[simp] theorem sinkWrite_volume (b : Block) (s : State) : (sinkWrite b s).volume = s.volume := rfl
@[simp] theorem sinkWrite_runState (b : Block) (s : State) : (sinkWrite b s).runState = s.runState := rfl
@[simp] theorem sinkWrite_mode (b : Block) (s : State) : (sinkWrite b s).mode = s.mode := rfl
@[simp] theorem sinkWrite_faultCause (b : Block) (s : State) : (sinkWrite b s).faultCause = s.faultCause := rfl
@[simp] theorem sinkWrite_linkOpen (b : Block) (s : State) : (sinkWrite b s).linkOpen = s.linkOpen := rfl
@[simp] theorem sinkWrite_sinkOpen (b : Block) (s : State) : (sinkWrite b s).sinkOpen = s.sinkOpen := rfl
@[simp] theorem sinkWrite_stopReq (b : Block) (s : State) : (sinkWrite b s).stopReq = s.stopReq := rfl
@[simp] theorem sinkWrite_windowExpired (b : Block) (s : State) : (sinkWrite b s).windowExpired = s.windowExpired := rfl
@[simp] theorem sinkWrite_pbuf (b : Block) (s : State) : (sinkWrite b s).pbuf = s.pbuf := rfl
@[simp] theorem sinkWrite_ing (b : Block) (s : State) : (sinkWrite b s).ing = s.ing := rfl
@[simp] theorem sinkWrite_probeBuf (b : Block) (s : State) : (sinkWrite b s).probeBuf = s.probeBuf := rfl
@[simp] theorem sinkWrite_cfg (b : Block) (s : State) : (sinkWrite b s).cfg = s.cfg := rfl
@[simp] theorem sinkWrite_link (b : Block) (s : State) : (sinkWrite b s).link = s.link := rfl
@[simp] theorem sinkWrite_readDraws (b : Block) (s : State) : (sinkWrite b s).readDraws = s.readDraws := rfl
@[simp] theorem sinkWrite_openDraws (b : Block) (s : State) : (sinkWrite b s).openDraws = s.openDraws := rfl
@[simp] theorem sinkWrite_schedule (b : Block) (s : State) : (sinkWrite b s).schedule = s.schedule := rfl
@[simp] theorem sinkWrite_oracle (b : Block) (s : State) : (sinkWrite b s).oracle = s.oracle := rfl
@[simp] theorem sinkWrite_rawBlock (b : Block) (s : State) : (sinkWrite b s).rawBlock = s.rawBlock := rfl
@[simp] theorem sinkWrite_sink (b : Block) (s : State) : (sinkWrite b s).sink = s.sink ++ [b] := rfl
@[simp] theorem sinkWrite_calls (b : Block) (s : State) : (sinkWrite b s).calls = s.calls := rfl

@[simp] theorem record_voices (c : HostCall) (s : State) : (record c s).voices = s.voices := rfl
@[simp] theorem record_volume (c : HostCall) (s : State) : (record c s).volume = s.volume := rfl
@[simp] theorem record_runState (c : HostCall) (s : State) : (record c s).runState = s.runState := rfl
@[simp] theorem record_mode (c : HostCall) (s : State) : (record c s).mode = s.mode := rfl
@[simp] theorem record_faultCause (c : HostCall) (s : State) : (record c s).faultCause = s.faultCause := rfl
@[simp] theorem record_linkOpen (c : HostCall) (s : State) : (record c s).linkOpen = s.linkOpen := rfl
@[simp] theorem record_sinkOpen (c : HostCall) (s : State) : (record c s).sinkOpen = s.sinkOpen := rfl
@[simp] theorem record_stopReq (c : HostCall) (s : State) : (record c s).stopReq = s.stopReq := rfl
@[simp] theorem record_windowExpired (c : HostCall) (s : State) : (record c s).windowExpired = s.windowExpired := rfl
@[simp] theorem record_pbuf (c : HostCall) (s : State) : (record c s).pbuf = s.pbuf := rfl
@[simp] theorem record_ing (c : HostCall) (s : State) : (record c s).ing = s.ing := rfl
@[simp] theorem record_probeBuf (c : HostCall) (s : State) : (record c s).probeBuf = s.probeBuf := rfl
@[simp] theorem record_cfg (c : HostCall) (s : State) : (record c s).cfg = s.cfg := rfl
@[simp] theorem record_link (c : HostCall) (s : State) : (record c s).link = s.link := rfl
@[simp] theorem record_readDraws (c : HostCall) (s : State) : (record c s).readDraws = s.readDraws := rfl
@[simp] theorem record_openDraws (c : HostCall) (s : State) : (record c s).openDraws = s.openDraws := rfl
@[simp] theorem record_schedule (c : HostCall) (s : State) : (record c s).schedule = s.schedule := rfl
@[simp] theorem record_oracle (c : HostCall) (s : State) : (record c s).oracle = s.oracle := rfl
@[simp] theorem record_rawBlock (c : HostCall) (s : State) : (record c s).rawBlock = s.rawBlock := rfl
@[simp] theorem record_sink (c : HostCall) (s : State) : (record c s).sink = s.sink := rfl
@[simp] theorem record_calls (c : HostCall) (s : State) : (record c s).calls = s.calls ++ [c] := rfl

@[simp] theorem setVolume_voices (x : Byte) (s : State) : (setVolume x s).voices = s.voices := rfl
@[simp] theorem setVolume_volume (x : Byte) (s : State) : (setVolume x s).volume = normalise x := rfl
@[simp] theorem setVolume_runState (x : Byte) (s : State) : (setVolume x s).runState = s.runState := rfl
@[simp] theorem setVolume_mode (x : Byte) (s : State) : (setVolume x s).mode = s.mode := rfl
@[simp] theorem setVolume_faultCause (x : Byte) (s : State) : (setVolume x s).faultCause = s.faultCause := rfl
@[simp] theorem setVolume_linkOpen (x : Byte) (s : State) : (setVolume x s).linkOpen = s.linkOpen := rfl
@[simp] theorem setVolume_sinkOpen (x : Byte) (s : State) : (setVolume x s).sinkOpen = s.sinkOpen := rfl
@[simp] theorem setVolume_stopReq (x : Byte) (s : State) : (setVolume x s).stopReq = s.stopReq := rfl
@[simp] theorem setVolume_windowExpired (x : Byte) (s : State) : (setVolume x s).windowExpired = s.windowExpired := rfl
@[simp] theorem setVolume_pbuf (x : Byte) (s : State) : (setVolume x s).pbuf = s.pbuf := rfl
@[simp] theorem setVolume_ing (x : Byte) (s : State) : (setVolume x s).ing = s.ing := rfl
@[simp] theorem setVolume_probeBuf (x : Byte) (s : State) : (setVolume x s).probeBuf = s.probeBuf := rfl
@[simp] theorem setVolume_cfg (x : Byte) (s : State) : (setVolume x s).cfg = s.cfg := rfl
@[simp] theorem setVolume_link (x : Byte) (s : State) : (setVolume x s).link = s.link := rfl
@[simp] theorem setVolume_readDraws (x : Byte) (s : State) : (setVolume x s).readDraws = s.readDraws := rfl
@[simp] theorem setVolume_openDraws (x : Byte) (s : State) : (setVolume x s).openDraws = s.openDraws := rfl
@[simp] theorem setVolume_schedule (x : Byte) (s : State) : (setVolume x s).schedule = s.schedule := rfl
@[simp] theorem setVolume_oracle (x : Byte) (s : State) : (setVolume x s).oracle = s.oracle := rfl
@[simp] theorem setVolume_rawBlock (x : Byte) (s : State) : (setVolume x s).rawBlock = s.rawBlock := rfl
@[simp] theorem setVolume_sink (x : Byte) (s : State) : (setVolume x s).sink = s.sink := rfl
@[simp] theorem setVolume_calls (x : Byte) (s : State) : (setVolume x s).calls = s.calls := rfl

@[simp] theorem poolNoteOn_voices (note vel : Byte) (s : State) : (poolNoteOn note vel s).voices = s.voices.modify (allocate s.voices) (voiceNoteOn note vel) := rfl
@[simp] theorem poolNoteOn_volume (note vel : Byte) (s : State) : (poolNoteOn note vel s).volume = s.volume := rfl
@[simp] theorem poolNoteOn_runState (note vel : Byte) (s : State) : (poolNoteOn note vel s).runState = s.runState := rfl
@[simp] theorem poolNoteOn_mode (note vel : Byte) (s : State) : (poolNoteOn note vel s).mode = s.mode := rfl
@[simp] theorem poolNoteOn_faultCause (note vel : Byte) (s : State) : (poolNoteOn note vel s).faultCause = s.faultCause := rfl
@[simp] theorem poolNoteOn_linkOpen (note vel : Byte) (s : State) : (poolNoteOn note vel s).linkOpen = s.linkOpen := rfl
@[simp] theorem poolNoteOn_sinkOpen (note vel : Byte) (s : State) : (poolNoteOn note vel s).sinkOpen = s.sinkOpen := rfl
@[simp] theorem poolNoteOn_stopReq (note vel : Byte) (s : State) : (poolNoteOn note vel s).stopReq = s.stopReq := rfl
@[simp] theorem poolNoteOn_windowExpired (note vel : Byte) (s : State) : (poolNoteOn note vel s).windowExpired = s.windowExpired := rfl
@[simp] theorem poolNoteOn_pbuf (note vel : Byte) (s : State) : (poolNoteOn note vel s).pbuf = s.pbuf := rfl
@[simp] theorem poolNoteOn_ing (note vel : Byte) (s : State) : (poolNoteOn note vel s).ing = s.ing := rfl
@[simp] theorem poolNoteOn_probeBuf (note vel : Byte) (s : State) : (poolNoteOn note vel s).probeBuf = s.probeBuf := rfl
@[simp] theorem poolNoteOn_cfg (note vel : Byte) (s : State) : (poolNoteOn note vel s).cfg = s.cfg := rfl
@[simp] theorem poolNoteOn_link (note vel : Byte) (s : State) : (poolNoteOn note vel s).link = s.link := rfl
@[simp] theorem poolNoteOn_readDraws (note vel : Byte) (s : State) : (poolNoteOn note vel s).readDraws = s.readDraws := rfl
@[simp] theorem poolNoteOn_openDraws (note vel : Byte) (s : State) : (poolNoteOn note vel s).openDraws = s.openDraws := rfl
@[simp] theorem poolNoteOn_schedule (note vel : Byte) (s : State) : (poolNoteOn note vel s).schedule = s.schedule := rfl
@[simp] theorem poolNoteOn_oracle (note vel : Byte) (s : State) : (poolNoteOn note vel s).oracle = s.oracle := rfl
@[simp] theorem poolNoteOn_rawBlock (note vel : Byte) (s : State) : (poolNoteOn note vel s).rawBlock = s.rawBlock := rfl
@[simp] theorem poolNoteOn_sink (note vel : Byte) (s : State) : (poolNoteOn note vel s).sink = s.sink := rfl
@[simp] theorem poolNoteOn_calls (note vel : Byte) (s : State) : (poolNoteOn note vel s).calls = s.calls := rfl

@[simp] theorem poolNoteOff_voices (note : Byte) (s : State) : (poolNoteOff note s).voices = s.voices.map (noteOffSlot note) := rfl
@[simp] theorem poolNoteOff_volume (note : Byte) (s : State) : (poolNoteOff note s).volume = s.volume := rfl
@[simp] theorem poolNoteOff_runState (note : Byte) (s : State) : (poolNoteOff note s).runState = s.runState := rfl
@[simp] theorem poolNoteOff_mode (note : Byte) (s : State) : (poolNoteOff note s).mode = s.mode := rfl
@[simp] theorem poolNoteOff_faultCause (note : Byte) (s : State) : (poolNoteOff note s).faultCause = s.faultCause := rfl
@[simp] theorem poolNoteOff_linkOpen (note : Byte) (s : State) : (poolNoteOff note s).linkOpen = s.linkOpen := rfl
@[simp] theorem poolNoteOff_sinkOpen (note : Byte) (s : State) : (poolNoteOff note s).sinkOpen = s.sinkOpen := rfl
@[simp] theorem poolNoteOff_stopReq (note : Byte) (s : State) : (poolNoteOff note s).stopReq = s.stopReq := rfl
@[simp] theorem poolNoteOff_windowExpired (note : Byte) (s : State) : (poolNoteOff note s).windowExpired = s.windowExpired := rfl
@[simp] theorem poolNoteOff_pbuf (note : Byte) (s : State) : (poolNoteOff note s).pbuf = s.pbuf := rfl
@[simp] theorem poolNoteOff_ing (note : Byte) (s : State) : (poolNoteOff note s).ing = s.ing := rfl
@[simp] theorem poolNoteOff_probeBuf (note : Byte) (s : State) : (poolNoteOff note s).probeBuf = s.probeBuf := rfl
@[simp] theorem poolNoteOff_cfg (note : Byte) (s : State) : (poolNoteOff note s).cfg = s.cfg := rfl
@[simp] theorem poolNoteOff_link (note : Byte) (s : State) : (poolNoteOff note s).link = s.link := rfl
@[simp] theorem poolNoteOff_readDraws (note : Byte) (s : State) : (poolNoteOff note s).readDraws = s.readDraws := rfl
@[simp] theorem poolNoteOff_openDraws (note : Byte) (s : State) : (poolNoteOff note s).openDraws = s.openDraws := rfl
@[simp] theorem poolNoteOff_schedule (note : Byte) (s : State) : (poolNoteOff note s).schedule = s.schedule := rfl
@[simp] theorem poolNoteOff_oracle (note : Byte) (s : State) : (poolNoteOff note s).oracle = s.oracle := rfl
@[simp] theorem poolNoteOff_rawBlock (note : Byte) (s : State) : (poolNoteOff note s).rawBlock = s.rawBlock := rfl
@[simp] theorem poolNoteOff_sink (note : Byte) (s : State) : (poolNoteOff note s).sink = s.sink := rfl
@[simp] theorem poolNoteOff_calls (note : Byte) (s : State) : (poolNoteOff note s).calls = s.calls := rfl

@[simp] theorem poolPanic_voices (s : State) : (poolPanic s).voices = s.voices.map voiceKill := rfl
@[simp] theorem poolPanic_volume (s : State) : (poolPanic s).volume = s.volume := rfl
@[simp] theorem poolPanic_runState (s : State) : (poolPanic s).runState = s.runState := rfl
@[simp] theorem poolPanic_mode (s : State) : (poolPanic s).mode = s.mode := rfl
@[simp] theorem poolPanic_faultCause (s : State) : (poolPanic s).faultCause = s.faultCause := rfl
@[simp] theorem poolPanic_linkOpen (s : State) : (poolPanic s).linkOpen = s.linkOpen := rfl
@[simp] theorem poolPanic_sinkOpen (s : State) : (poolPanic s).sinkOpen = s.sinkOpen := rfl
@[simp] theorem poolPanic_stopReq (s : State) : (poolPanic s).stopReq = s.stopReq := rfl
@[simp] theorem poolPanic_windowExpired (s : State) : (poolPanic s).windowExpired = s.windowExpired := rfl
@[simp] theorem poolPanic_pbuf (s : State) : (poolPanic s).pbuf = s.pbuf := rfl
@[simp] theorem poolPanic_ing (s : State) : (poolPanic s).ing = s.ing := rfl
@[simp] theorem poolPanic_probeBuf (s : State) : (poolPanic s).probeBuf = s.probeBuf := rfl
@[simp] theorem poolPanic_cfg (s : State) : (poolPanic s).cfg = s.cfg := rfl
@[simp] theorem poolPanic_link (s : State) : (poolPanic s).link = s.link := rfl
@[simp] theorem poolPanic_readDraws (s : State) : (poolPanic s).readDraws = s.readDraws := rfl
@[simp] theorem poolPanic_openDraws (s : State) : (poolPanic s).openDraws = s.openDraws := rfl
@[simp] theorem poolPanic_schedule (s : State) : (poolPanic s).schedule = s.schedule := rfl
@[simp] theorem poolPanic_oracle (s : State) : (poolPanic s).oracle = s.oracle := rfl
@[simp] theorem poolPanic_rawBlock (s : State) : (poolPanic s).rawBlock = s.rawBlock := rfl
@[simp] theorem poolPanic_sink (s : State) : (poolPanic s).sink = s.sink := rfl
@[simp] theorem poolPanic_calls (s : State) : (poolPanic s).calls = s.calls := rfl

@[simp] theorem voiceNoteOn_note (n x : Byte) (v : Voice) : (voiceNoteOn n x v).note = n := rfl
@[simp] theorem voiceNoteOn_freq (n x : Byte) (v : Voice) : (voiceNoteOn n x v).freq = freqOf n := rfl
@[simp] theorem voiceNoteOn_vel (n x : Byte) (v : Voice) : (voiceNoteOn n x v).vel = normalise x := rfl
@[simp] theorem voiceNoteOn_phase (n x : Byte) (v : Voice) : (voiceNoteOn n x v).phase = v.phase := rfl
@[simp] theorem voiceNoteOn_env (n x : Byte) (v : Voice) : (voiceNoteOn n x v).env = fZERO := rfl
@[simp] theorem voiceNoteOn_est (n x : Byte) (v : Voice) : (voiceNoteOn n x v).est = .attack := rfl
@[simp] theorem voiceNoteOn_active (n x : Byte) (v : Voice) : (voiceNoteOn n x v).active = true := rfl
@[simp] theorem voiceNoteOn_rsl (n x : Byte) (v : Voice) : (voiceNoteOn n x v).rsl = v.rsl := rfl

@[simp] theorem voiceKill_note (v : Voice) : (voiceKill v).note = v.note := rfl
@[simp] theorem voiceKill_freq (v : Voice) : (voiceKill v).freq = v.freq := rfl
@[simp] theorem voiceKill_vel (v : Voice) : (voiceKill v).vel = v.vel := rfl
@[simp] theorem voiceKill_phase (v : Voice) : (voiceKill v).phase = v.phase := rfl
@[simp] theorem voiceKill_env (v : Voice) : (voiceKill v).env = fZERO := rfl
@[simp] theorem voiceKill_est (v : Voice) : (voiceKill v).est = v.est := rfl
@[simp] theorem voiceKill_active (v : Voice) : (voiceKill v).active = false := rfl
@[simp] theorem voiceKill_rsl (v : Voice) : (voiceKill v).rsl = v.rsl := rfl

@[simp] theorem sustainUpdate_note (cfg : Config) (v : Voice) : (sustainUpdate cfg v).note = v.note := rfl
@[simp] theorem sustainUpdate_freq (cfg : Config) (v : Voice) : (sustainUpdate cfg v).freq = v.freq := rfl
@[simp] theorem sustainUpdate_vel (cfg : Config) (v : Voice) : (sustainUpdate cfg v).vel = v.vel := rfl
@[simp] theorem sustainUpdate_phase (cfg : Config) (v : Voice) : (sustainUpdate cfg v).phase = v.phase := rfl
@[simp] theorem sustainUpdate_env (cfg : Config) (v : Voice) : (sustainUpdate cfg v).env = cfg.sustainLevel := rfl
@[simp] theorem sustainUpdate_est (cfg : Config) (v : Voice) : (sustainUpdate cfg v).est = v.est := rfl
@[simp] theorem sustainUpdate_active (cfg : Config) (v : Voice) : (sustainUpdate cfg v).active = v.active := rfl
@[simp] theorem sustainUpdate_rsl (cfg : Config) (v : Voice) : (sustainUpdate cfg v).rsl = v.rsl := rfl

@[simp] theorem teardown_voices (s : State) : (teardown s).voices = s.voices := by
  simp only [teardown]; split <;> split <;> rfl
@[simp] theorem teardown_volume (s : State) : (teardown s).volume = s.volume := by
  simp only [teardown]; split <;> split <;> rfl
@[simp] theorem teardown_runState (s : State) : (teardown s).runState = s.runState := by
  simp only [teardown]; split <;> split <;> rfl
@[simp] theorem teardown_mode (s : State) : (teardown s).mode = s.mode := by
  simp only [teardown]; split <;> split <;> rfl
@[simp] theorem teardown_faultCause (s : State) : (teardown s).faultCause = s.faultCause := by
  simp only [teardown]; split <;> split <;> rfl
@[simp] theorem teardown_stopReq (s : State) : (teardown s).stopReq = s.stopReq := by
  simp only [teardown]; split <;> split <;> rfl
@[simp] theorem teardown_windowExpired (s : State) : (teardown s).windowExpired = s.windowExpired := by
  simp only [teardown]; split <;> split <;> rfl
@[simp] theorem teardown_pbuf (s : State) : (teardown s).pbuf = s.pbuf := by
  simp only [teardown]; split <;> split <;> rfl
@[simp] theorem teardown_ing (s : State) : (teardown s).ing = s.ing := by
  simp only [teardown]; split <;> split <;> rfl
@[simp] theorem teardown_probeBuf (s : State) : (teardown s).probeBuf = s.probeBuf := by
  simp only [teardown]; split <;> split <;> rfl
@[simp] theorem teardown_cfg (s : State) : (teardown s).cfg = s.cfg := by
  simp only [teardown]; split <;> split <;> rfl
@[simp] theorem teardown_link (s : State) : (teardown s).link = s.link := by
  simp only [teardown]; split <;> split <;> rfl
@[simp] theorem teardown_readDraws (s : State) : (teardown s).readDraws = s.readDraws := by
  simp only [teardown]; split <;> split <;> rfl
@[simp] theorem teardown_openDraws (s : State) : (teardown s).openDraws = s.openDraws := by
  simp only [teardown]; split <;> split <;> rfl
@[simp] theorem teardown_schedule (s : State) : (teardown s).schedule = s.schedule := by
  simp only [teardown]; split <;> split <;> rfl
@[simp] theorem teardown_oracle (s : State) : (teardown s).oracle = s.oracle := by
  simp only [teardown]; split <;> split <;> rfl
@[simp] theorem teardown_rawBlock (s : State) : (teardown s).rawBlock = s.rawBlock := by
  simp only [teardown]; split <;> split <;> rfl
@[simp] theorem teardown_sink (s : State) : (teardown s).sink = s.sink := by
  simp only [teardown]; split <;> split <;> rfl
@[simp] theorem teardown_sinkOpen (s : State) : (teardown s).sinkOpen = false := by
  simp only [teardown]; split <;> split <;> simp_all [record]
@[simp] theorem teardown_linkOpen (s : State) : (teardown s).linkOpen = false := by
  simp only [teardown]; split <;> split <;> simp_all [record]
/-- The calls of TEARDOWN, the sink's before the link's (R309). -/
@[simp] theorem teardown_calls (s : State) :
    (teardown s).calls =
      s.calls ++ (if s.sinkOpen then [.closeSink] else []) ++ (if s.linkOpen then [.closeLink] else []) := by
  cases hs : s.sinkOpen <;> cases hl : s.linkOpen <;> simp [teardown, record, hs, hl]

@[simp] theorem fatal_voices (c : Byte) (s : State) : (fatal c s).voices = s.voices := by simp [fatal]
@[simp] theorem fatal_volume (c : Byte) (s : State) : (fatal c s).volume = s.volume := by simp [fatal]
@[simp] theorem fatal_runState (c : Byte) (s : State) : (fatal c s).runState = .failed := by simp [fatal]
@[simp] theorem fatal_mode (c : Byte) (s : State) : (fatal c s).mode = s.mode := by simp [fatal]
@[simp] theorem fatal_faultCause (c : Byte) (s : State) : (fatal c s).faultCause = c := by simp [fatal]
@[simp] theorem fatal_linkOpen (c : Byte) (s : State) : (fatal c s).linkOpen = false := by simp [fatal]
@[simp] theorem fatal_sinkOpen (c : Byte) (s : State) : (fatal c s).sinkOpen = false := by simp [fatal]
@[simp] theorem fatal_stopReq (c : Byte) (s : State) : (fatal c s).stopReq = s.stopReq := by simp [fatal]
@[simp] theorem fatal_windowExpired (c : Byte) (s : State) : (fatal c s).windowExpired = s.windowExpired := by simp [fatal]
@[simp] theorem fatal_pbuf (c : Byte) (s : State) : (fatal c s).pbuf = s.pbuf := by simp [fatal]
@[simp] theorem fatal_ing (c : Byte) (s : State) : (fatal c s).ing = s.ing := by simp [fatal]
@[simp] theorem fatal_probeBuf (c : Byte) (s : State) : (fatal c s).probeBuf = s.probeBuf := by simp [fatal]
@[simp] theorem fatal_cfg (c : Byte) (s : State) : (fatal c s).cfg = s.cfg := by simp [fatal]
@[simp] theorem fatal_link (c : Byte) (s : State) : (fatal c s).link = s.link := by simp [fatal]
@[simp] theorem fatal_readDraws (c : Byte) (s : State) : (fatal c s).readDraws = s.readDraws := by simp [fatal]
@[simp] theorem fatal_openDraws (c : Byte) (s : State) : (fatal c s).openDraws = s.openDraws := by simp [fatal]
@[simp] theorem fatal_schedule (c : Byte) (s : State) : (fatal c s).schedule = s.schedule := by simp [fatal]
@[simp] theorem fatal_oracle (c : Byte) (s : State) : (fatal c s).oracle = s.oracle := by simp [fatal]
@[simp] theorem fatal_rawBlock (c : Byte) (s : State) : (fatal c s).rawBlock = s.rawBlock := by simp [fatal]
@[simp] theorem fatal_sink (c : Byte) (s : State) : (fatal c s).sink = s.sink := by simp [fatal]
@[simp] theorem fatal_calls (c : Byte) (s : State) : (fatal c s).calls = s.calls ++ (if s.sinkOpen then [.closeSink] else []) ++ (if s.linkOpen then [.closeLink] else []) := by simp [fatal]

end Sys2Proof.Machine
end

