-- ==== Sys2Proof/Laws/Ops.lean ====
section
/-! SUPPORT. What each shared operation can do, said once: if it answers a state, that state is the old one
but for the fields named here, with these values. -/

namespace Sys2Proof.Machine

/-- The scheduler's choice touches the schedule and the counter of free values alone (R321). -/
theorem nextTxn_spec (s : State) :
    (nextTxn s).2 = { s with schedule := s.schedule.tail, oracle := (nextTxn s).2.oracle } := by
  obtain ⟨⟩ := s
  rename_i sch _ _ _ _
  cases sch <;> rfl

@[simp] theorem nextTxn_cons {s : State} {t : Txn} {ts : List Txn} (h : s.schedule = t :: ts) :
    nextTxn s = (t, { s with schedule := ts }) := by simp [nextTxn, h]

/-- A read draw touches the pending draws and the counter of free values alone (R72). -/
theorem nextRead_spec (s : State) :
    (nextRead s).2 = { s with readDraws := s.readDraws.tail, oracle := (nextRead s).2.oracle } := by
  unfold nextRead
  split <;> simp_all

@[simp] theorem nextRead_cons {s : State} {d : ReadDraw} {ds : List ReadDraw}
    (h : s.readDraws = d :: ds) : nextRead s = (d, { s with readDraws := ds }) := by simp [nextRead, h]

/-- An open draw touches the pending draws and the counter of free values alone (R313). -/
theorem nextOpen_spec (s : State) :
    (nextOpen s).2 = { s with openDraws := s.openDraws.tail, oracle := (nextOpen s).2.oracle } := by
  unfold nextOpen
  split <;> simp_all

@[simp] theorem nextOpen_cons {s : State} {d : OpenDraw} {ds : List OpenDraw}
    (h : s.openDraws = d :: ds) : nextOpen s = (d, { s with openDraws := ds }) := by simp [nextOpen, h]

/-- A read draw, with every field it changes (R72). -/
theorem nextRead_eq (s : State) :
    nextRead s = ((nextRead s).1, { s with
      readDraws := s.readDraws.tail
      oracle := if s.readDraws = [] then s.oracle + 1 else s.oracle }) := by
  unfold nextRead
  split <;> simp_all

/-- An open draw, with every field it changes (R313). -/
theorem nextOpen_eq (s : State) :
    nextOpen s = ((nextOpen s).1, { s with
      openDraws := s.openDraws.tail
      oracle := if s.openDraws = [] then s.oracle + 1 else s.oracle }) := by
  unfold nextOpen
  split <;> simp_all

/-- TEARDOWN, with every field it changes (R309). -/
theorem teardown_eq (s : State) :
    teardown s = { s with
      linkOpen := false
      sinkOpen := false
      calls := s.calls ++ (if s.sinkOpen then [.closeSink] else []) ++
        (if s.linkOpen then [.closeLink] else []) } := by
  obtain ⟨_, _, _, _, _, l, k⟩ := s
  cases k <;> cases l <;> simp [teardown, record]

/-- The fatal sequence, with every field it changes (R306). -/
theorem fatal_eq (c : Byte) (s : State) :
    fatal c s = { s with
      faultCause := c
      linkOpen := false
      sinkOpen := false
      runState := .failed
      calls := s.calls ++ (if s.sinkOpen then [.closeSink] else []) ++
        (if s.linkOpen then [.closeLink] else []) } := by
  simp only [fatal, teardown_eq]

/-- Removing bytes in two goes removes their sum, so an index of the link is passed once (R71). -/
theorem Link.drop_drop (l : Link) (a b : Nat) : (l.drop a).drop b = l.drop (a + b) := by
  obtain ⟨bs, f⟩ := l
  cases f with
  | none => simp [Link.drop]
  | some p => simp [Link.drop]; omega

/-- A read of `a + b` bytes is a read of `a` and then one of `b`: the link is delivered in its order (R71). -/
theorem Link.take_add (l : Link) (a b : Nat) : l.take (a + b) = l.take a ++ (l.drop a).take b := by
  obtain ⟨bs, f⟩ := l
  cases f with
  | none => simp [Link.take, Link.drop, List.take_add]
  | some p =>
    simp only [Link.take, Link.drop, List.take_add, List.length_drop]
    rcases Nat.le_total a bs.length with h | h
    · rw [Nat.sub_eq_zero_of_le h, show a + b - bs.length = b - (bs.length - a) by omega]
      simp
    · rw [List.drop_eq_nil_of_le h, Nat.sub_eq_zero_of_le h, show a + b - bs.length = (a - bs.length) + b by omega,
        List.range_add]
      simp [Nat.add_assoc]

@[simp] theorem Link.take_finite (bs : List Byte) (k : Nat) :
    Link.take { bytes := bs, free := none } k = bs.take k := rfl

@[simp] theorem Link.drop_finite (bs : List Byte) (k : Nat) :
    Link.drop { bytes := bs, free := none } k = { bytes := bs.drop k, free := none } := rfl

@[simp] theorem Link.drop_zero (l : Link) : l.drop 0 = l := by
  obtain ⟨bs, f⟩ := l
  cases f <;> simp [Link.drop]

@[simp] theorem Link.take_length_le (l : Link) (k : Nat) : (l.take k).length ≤ k := by
  obtain ⟨bs, f⟩ := l
  cases f <;> simp [Link.take]; omega

/-- Everything a LinkRead can do (R71, R72): it touches the link, the draws and the counter alone; err
takes no byte, and a success takes at most `max` bytes off the head of the link. -/
theorem linkRead_spec {max : Nat} {s t : State} {r : ReadResult} (h : linkRead max s = (r, t)) :
    t = { s with link := t.link, readDraws := s.readDraws.tail, oracle := t.oracle } ∧
      ((r = .err ∧ t.link = s.link) ∨
        ∃ k, k ≤ max ∧ r = .ok (s.link.take k) ∧ t.link = s.link.drop k) := by
  have hn := nextRead_spec s
  unfold linkRead at h
  split at h
  · rename_i s1 heq
    obtain ⟨rfl, rfl⟩ := Prod.mk.inj h
    rw [heq] at hn
    refine ⟨?_, .inl ⟨rfl, ?_⟩⟩
    · simp only at hn; rw [hn]
    · simp only at hn; rw [hn]
  · rename_i k s1 heq
    obtain ⟨rfl, rfl⟩ := Prod.mk.inj h
    rw [heq] at hn
    simp only at hn
    refine ⟨?_, .inr ⟨min k max, Nat.min_le_right _ _, ?_, ?_⟩⟩ <;> simp only [deliver] <;> rw [hn]

/-- A LinkRead whose scripted draw is ok (R72). -/
theorem linkRead_ok {s : State} {k : Nat} {ds : List ReadDraw} (h : s.readDraws = .ok k :: ds) (max : Nat) :
    linkRead max s =
      (.ok (s.link.take (min k max)), { s with readDraws := ds, link := s.link.drop (min k max) }) := by
  simp [linkRead, nextRead_cons h, deliver]

/-- A frame's effect where PARSE_APPLY is enabled. -/
theorem onFrame_of_enabled {s : State} (h : parseApplyEnabled s = true) (k : Nat) (act : State → State) :
    onFrame k act s = act (consume k s) := by simp [onFrame, h]

/-- Nothing is parsed elsewhere. -/
theorem onFrame_of_disabled {s : State} (h : parseApplyEnabled s = false) (k : Nat)
    (act : State → State) : onFrame k act s = s := by simp [onFrame, h]

/-- An event writes the voices and VOLUME alone (R230). -/
theorem emit_spec (ev : MidiEvent) (s : State) :
    emit ev s = { s with voices := (emit ev s).voices, volume := (emit ev s).volume } := by
  cases ev with
  | noteOn => rfl
  | noteOff => rfl
  | programChange => rfl
  | controlChange ch c v =>
    simp only [emit]; split
    · rfl
    · split <;> rfl

/-- An event keeps the number of slots (R33). -/
theorem emit_voices_length (ev : MidiEvent) (s : State) :
    (emit ev s).voices.length = s.voices.length := by
  cases ev with
  | noteOn => simp [emit]
  | noteOff => simp [emit]
  | programChange => simp [emit]
  | controlChange ch c v =>
    simp only [emit]; split
    · rfl
    · split <;> simp

/-- The slot a note-on takes exists whenever there is a slot (R231). -/
theorem allocate_lt {vs : List Voice} (h : vs ≠ []) : allocate vs < vs.length := by
  unfold allocate
  cases hf : vs.findIdx? (fun v => !v.active) with
  | none => exact List.length_pos_iff.mpr h
  | some i => exact (List.findIdx?_eq_some_iff_findIdx_eq.mp hf).1

/-- A raw slot adds one sample to the block in progress and touches nothing else (R272). -/
theorem rawSlot_spec (bs : List Byte) (s : State) :
    ∃ v, rawSlot bs s = { s with rawBlock := s.rawBlock ++ [v] } := by
  unfold rawSlot
  split
  · exact ⟨_, rfl⟩
  · exact ⟨0, rfl⟩

/-- Everything the slot reads of a RAW_STEP can do (R270, R275): they touch the link, the draws, the counter
and the block in progress alone, take bytes off the head of the link alone, and when none errs they add exactly one
sample each. -/
theorem rawSlots_spec (n : Nat) (s : State) :
    ∃ l d o b, (rawSlots n s).2 = { s with link := l, readDraws := d, oracle := o, rawBlock := b } ∧
      (∃ k, l = s.link.drop k) ∧ ((rawSlots n s).1 = true → b.length = s.rawBlock.length + n) := by
  induction n generalizing s with
  | zero => exact ⟨s.link, s.readDraws, s.oracle, s.rawBlock, rfl, ⟨0, s.link.drop_zero.symm⟩, fun _ => rfl⟩
  | succ n ih =>
    cases hr : linkRead 2 s with
    | mk r t =>
      obtain ⟨ht, hl⟩ := linkRead_spec hr
      cases r with
      | err =>
        refine ⟨t.link, s.readDraws.tail, t.oracle, s.rawBlock, ?_, ⟨0, ?_⟩, ?_⟩
        · simp only [rawSlots, hr]; rw [ht]
        · rcases hl with ⟨_, h⟩ | ⟨_, h⟩
          · rw [h, Link.drop_zero]
          · exact absurd h.2.1 (by simp)
        · simp [rawSlots, hr]
      | ok bs =>
        obtain ⟨v, hv⟩ := rawSlot_spec bs t
        obtain ⟨l, d, o, b, h1, ⟨k, h2⟩, h3⟩ := ih (rawSlot bs t)
        obtain ⟨j, -, -, hk⟩ := hl.resolve_left (by simp)
        refine ⟨l, d, o, b, ?_, ⟨j + k, ?_⟩, ?_⟩
        · rw [show (rawSlots (n + 1) s).2 = (rawSlots n (rawSlot bs t)).2 by simp only [rawSlots, hr],
            h1, hv, ht]
        · rw [h2, hv, ← Link.drop_drop, ← hk]
        · intro h
          have := h3 (by simpa only [rawSlots, hr] using h)
          rw [hv, ht] at this
          simp at this
          omega

end Sys2Proof.Machine
end

