-- ==== Sys2Proof/Laws/PerInstr.lean ====
section
/-! SUPPORT. Statements for all instructions, one lemma per constructor: an instruction never consumes more
bytes than its encoding has, and its encoding never has more than three (30_encoding.md rule R101). -/

namespace Sys2Proof.Laws

/-- The instruction consumes no more of PBUF than its own bytes, of which there are at most three. -/
def ConsumesItsBytes.Statement (i : Instr) : Prop :=
  ∀ cfg : Config, consumedBy i ≤ (encode cfg i).length ∧ (encode cfg i).length ≤ 3

theorem ConsumesItsBytes.noteOff (ch : Nibble) (note relvel : Byte) : Statement (.noteOff ch note relvel) := by
  intro cfg; simp [consumedBy, encode]

theorem ConsumesItsBytes.noteOn (ch : Nibble) (note vel : Byte) : Statement (.noteOn ch note vel) := by
  intro cfg; simp [consumedBy, encode]

theorem ConsumesItsBytes.noteOnV0 (ch : Nibble) (note : Byte) : Statement (.noteOnV0 ch note) := by
  intro cfg; simp [consumedBy, encode]

theorem ConsumesItsBytes.ccVolume (ch : Nibble) (value : Byte) : Statement (.ccVolume ch value) := by
  intro cfg; simp [consumedBy, encode]

theorem ConsumesItsBytes.ccPanic (ch : Nibble) (value : Byte) : Statement (.ccPanic ch value) := by
  intro cfg; simp [consumedBy, encode]

theorem ConsumesItsBytes.ccOther (ch : Nibble) (controller value : Byte) : Statement (.ccOther ch controller value) := by
  intro cfg; simp [consumedBy, encode]

theorem ConsumesItsBytes.prog (ch : Nibble) (program : Byte) : Statement (.prog ch program) := by
  intro cfg; simp [consumedBy, encode]

theorem ConsumesItsBytes.dropData (b : BitVec 7) : Statement (.dropData b) := by
  intro cfg; simp [consumedBy, encode]

theorem ConsumesItsBytes.dropA (n : Nibble) : Statement (.dropA n) := by
  intro cfg; simp [consumedBy, encode]

theorem ConsumesItsBytes.dropD (n : Nibble) : Statement (.dropD n) := by
  intro cfg; simp [consumedBy, encode]

theorem ConsumesItsBytes.dropE (n : Nibble) : Statement (.dropE n) := by
  intro cfg; simp [consumedBy, encode]

theorem ConsumesItsBytes.dropSys (n : Nibble) : Statement (.dropSys n) := by
  intro cfg; simp [consumedBy, encode]

theorem ConsumesItsBytes.dropBadData (t : FrameType) (ch : Nibble) (d1 d2 : Byte) : Statement (.dropBadData t ch d1 d2) := by
  intro cfg; cases t <;> simp [consumedBy, encode]

theorem ConsumesItsBytes.wait (t : FrameType) (ch : Nibble) (d1 : Option Byte) : Statement (.wait t ch d1) := by
  intro cfg; cases d1 <;> simp [consumedBy, encode]

theorem ConsumesItsBytes.rawSample (lo hi : Byte) : Statement (.rawSample lo hi) := by
  intro cfg; simp [consumedBy, encode]

theorem ConsumesItsBytes.linkOpen : Statement .linkOpen := by
  intro cfg; simp [consumedBy, encode]

theorem ConsumesItsBytes.probeRead : Statement .probeRead := by
  intro cfg; simp [consumedBy, encode]

theorem ConsumesItsBytes.windowExpire : Statement .windowExpire := by
  intro cfg; simp [consumedBy, encode]

theorem ConsumesItsBytes.classify : Statement .classify := by
  intro cfg; simp [consumedBy, encode]

theorem ConsumesItsBytes.sinkOpen : Statement .sinkOpen := by
  intro cfg; simp [consumedBy, encode]

theorem ConsumesItsBytes.ingestRead : Statement .ingestRead := by
  intro cfg; simp [consumedBy, encode]

theorem ConsumesItsBytes.parseApply : Statement .parseApply := by
  intro cfg; simp [consumedBy, encode]

theorem ConsumesItsBytes.generate (n : Nat) : Statement (.generate n) := by
  intro cfg; simp [consumedBy, encode]

theorem ConsumesItsBytes.rawStep : Statement .rawStep := by
  intro cfg; simp [consumedBy, encode]

theorem ConsumesItsBytes.stop : Statement .stop := by
  intro cfg; simp [consumedBy, encode]

theorem ConsumesItsBytes.sinkFault : Statement .sinkFault := by
  intro cfg; simp [consumedBy, encode]

end Sys2Proof.Laws
end

