-- ==== Sys2Proof/Laws/Voice.lean ====
section
/-! SUPPORT. The ranges of one voice slot (42_voice.md rules R202, R204): what each part of a sample does to
the envelope, the release level and the phase, and that every operation on a slot keeps it safe. -/

namespace Sys2Proof.Machine

/-- The pattern is no NaN and its value is at least 0. -/
def NonNeg (x : F64) : Prop := isNaN x = false ∧ 0 ≤ quanta x

theorem NonNeg.quanta_eq {x : F64} (h : NonNeg x) : quanta x = (mag x : Int) := quanta_of_nonneg h.2

theorem nonNeg_roundQ (n d : Nat) : NonNeg (roundQ false n d) :=
  ⟨isNaN_roundQ _ _ _, by rw [quanta_roundQ]; simp⟩

/-- An infinity that is at least 0 has sign +. -/
theorem NonNeg.sign_of_pos {x : F64} (h : NonNeg x) (hp : 0 < mag x) : signBit x = false := by
  cases hs : signBit x
  · rfl
  · have := h.2
    simp only [quanta, hs, if_true] at this
    omega

theorem infQuanta_pos : 0 < infQuanta := lt_trans quantaPerOne_pos quantaPerOne_lt_inf

theorem NonNeg.sign_of_inf {x : F64} (h : NonNeg x) (hi : isInf x = true) : signBit x = false :=
  h.sign_of_pos (by rw [isInf_mag hi]; exact infQuanta_pos)

/-- Zero rounds to zero. -/
theorem magBits_roundMag_zero {d : Nat} (hd : 0 < d) : magBits (roundMag 0 d) = 0 := by
  rw [Nat.le_zero.mp (roundMag_le (b := 0) hd (Nat.zero_le _))]; rfl

/-- A finite sum, its value and its sign (R12). -/
theorem fadd_finite {x y : F64} (hx : isNaN x = false) (hy : isNaN y = false) (ix : isInf x = false)
    (iy : isInf y = false) :
    isNaN (fadd x y) = false ∧ mag (fadd x y) = magBits (roundMag (quanta x + quanta y).natAbs 1) ∧
      (0 ≤ quanta x + quanta y → 0 ≤ quanta (fadd x y)) := by
  simp only [fadd, hx, hy, ix, iy, Bool.or_self, Bool.false_eq_true, if_false]
  split
  · rename_i h0
    refine ⟨isNaN_roundQ _ _ _, by rw [mag_roundQ, h0]; rfl, fun _ => ?_⟩
    have hz : magBits (roundMag 0 1) = 0 := magBits_roundMag_zero (by norm_num)
    rw [quanta_roundQ, hz]; simp
  · refine ⟨isNaN_roundQ _ _ _, mag_roundQ _ _ _, fun h => ?_⟩
    rw [quanta_roundQ, decide_eq_false (by omega)]; simp

/-- A sum of two values that are at least 0 is at least 0. -/
theorem NonNeg.fadd {x y : F64} (hx : NonNeg x) (hy : NonNeg y) : NonNeg (fadd x y) := by
  cases ix : isInf x
  · cases iy : isInf y
    · obtain ⟨h1, _, h3⟩ := fadd_finite hx.1 hy.1 ix iy
      exact ⟨h1, h3 (Int.add_nonneg hx.2 hy.2)⟩
    · simpa [Machine.fadd, hx.1, hy.1, ix, iy] using hy
  · cases iy : isInf y
    · simpa [Machine.fadd, hx.1, hy.1, ix, iy] using hx
    · simpa [Machine.fadd, hx.1, hy.1, ix, iy, hx.sign_of_inf ix, hy.sign_of_inf iy] using hx

/-- The integer of a positive count is at least 1.0 (R13). -/
theorem i2f_pos {n : Nat} (h : 1 ≤ n) :
    NonNeg (i2f n) ∧ signBit (i2f n) = false ∧ quantaPerOne ≤ mag (i2f n) := by
  have hneg : decide ((n : Int) < 0) = false := decide_eq_false (by omega)
  simp only [i2f, hneg, Int.natAbs_natCast]
  refine ⟨nonNeg_roundQ _ _, signBit_roundQ _ _ _, ?_⟩
  rw [mag_roundQ]
  exact one_le_magBits_roundMag (by norm_num) (by rw [Nat.mul_one]; exact Nat.le_mul_of_pos_right _ h)

/-- A finite value divided by one that is at least 1.0: no NaN, a sign that follows the dividend's, and a
magnitude at most any representable bound of the dividend's. -/
theorem fdiv_by_big {x y : F64} (hx : NonNeg x) (ix : isInf x = false) (hy : NonNeg y)
    (sy : signBit y = false) (h1 : quantaPerOne ≤ mag y) :
    isNaN (fdiv x y) = false ∧
      ∃ n d, 0 < d ∧ n ≤ mag x * d ∧ fdiv x y = roundQ (signBit x) n d := by
  have hpos := lt_of_lt_of_le quantaPerOne_pos h1
  have hmy : mag y ≠ 0 := by omega
  cases iy : isInf y
  · have he : fdiv x y = roundQ (signBit x) (quantaPerOne * mag x) (mag y) := by
      simp [fdiv, hx.1, hy.1, ix, iy, hmy, sy]
    refine ⟨by rw [he]; exact isNaN_roundQ _ _ _, quantaPerOne * mag x, mag y, hpos, ?_, he⟩
    rw [Nat.mul_comm (mag x)]
    exact Nat.mul_le_mul_right _ h1
  · have he : fdiv x y = roundQ (signBit x) 0 1 := by simp [fdiv, hx.1, hy.1, ix, iy, sy]
    exact ⟨by rw [he]; exact isNaN_roundQ _ _ _, 0, 1, by norm_num, by omega, he⟩

/-- A value that is at least 0 has sign + or magnitude 0. -/
theorem NonNeg.sign_or_zero {x : F64} (h : NonNeg x) : signBit x = false ∨ mag x = 0 := by
  rcases Nat.eq_zero_or_pos (mag x) with h0 | h0
  · exact .inr h0
  · exact .inl (h.sign_of_pos h0)

/-- The quotient of a value at least 0 by one at least 1.0 is at least 0, and at most 2^(52+e) quanta or 1.0 if
the dividend is. -/
theorem fdiv_range {x y : F64} (hx : NonNeg x) (ix : isInf x = false) (hy : NonNeg y)
    (sy : signBit y = false) (h1 : quantaPerOne ≤ mag y) :
    NonNeg (fdiv x y) ∧ (mag x ≤ quantaPerOne → mag (fdiv x y) ≤ quantaPerOne) ∧
      ∀ e, e < 2046 → mag x ≤ 2 ^ (52 + e) → mag (fdiv x y) ≤ 2 ^ (52 + e) := by
  obtain ⟨hn, n, d, hd, hle, he⟩ := fdiv_by_big hx ix hy sy h1
  refine ⟨⟨hn, ?_⟩, fun h => ?_, fun e hlt h => ?_⟩
  · rw [he, quanta_roundQ]
    rcases hx.sign_or_zero with hs | hz
    · simp [hs]
    · have hn0 : n = 0 := by rw [hz] at hle; omega
      have hz' : magBits (roundMag 0 d) = 0 := by
        have : roundMag 0 d ≤ 0 := roundMag_le hd (Nat.zero_le _)
        rw [Nat.le_zero.mp this]; decide
      rw [hn0, hz']; simp
  · rw [he, mag_roundQ]
    exact magBits_roundMag_le_one hd (hle.trans (Nat.mul_le_mul_right _ h))
  · rw [he, mag_roundQ]
    exact magBits_roundMag_le_pow hd hlt (hle.trans (Nat.mul_le_mul_right _ h))

theorem fneg_props (x : F64) :
    (fneg x).toNat % 2 ^ 63 = x.toNat % 2 ^ 63 ∧ signBit (fneg x) = !signBit x := by
  constructor
  · have h : (fneg x).setWidth 63 = x.setWidth 63 := by
      ext i hi
      simp only [fneg, BitVec.getElem_setWidth, BitVec.getLsbD_xor]
      have : (0x8000000000000000#64).getLsbD i = false := by
        have : i < 63 := hi
        interval_cases i <;> rfl
      rw [this, Bool.xor_false]
    have := congrArg BitVec.toNat h
    simpa using this
  · simp only [fneg, signBit, BitVec.msb_xor]
    rw [show (0x8000000000000000#64).msb = true by decide, Bool.xor_true]

theorem fneg_mag (x : F64) : mag (fneg x) = mag x := by
  rw [mag_eq_magBits, mag_eq_magBits, (fneg_props x).1]

theorem fneg_fields (x : F64) : expField (fneg x) = expField x ∧ fracField (fneg x) = fracField x := by
  have := (fneg_props x).1
  unfold expField fracField
  constructor <;> omega

theorem fneg_isNaN (x : F64) : isNaN (fneg x) = isNaN x := by
  simp only [isNaN, fneg_fields]

theorem fneg_isInf (x : F64) : isInf (fneg x) = isInf x := by
  simp only [isInf, fneg_fields]

theorem fneg_quanta (x : F64) : quanta (fneg x) = -quanta x := by
  simp only [quanta, fneg_mag, (fneg_props x).2]
  cases signBit x <;> simp

/-- The values of [0.0, 1.0], as the invariant writes them (R34). -/
theorem unit_iff (x : F64) :
    (fle fZERO x && fle x fONE) = true ↔ NonNeg x ∧ mag x ≤ quantaPerOne := by
  rw [Bool.and_eq_true, fle_iff, fle_iff, quanta_fZERO, quanta_fONE]
  constructor
  · rintro ⟨⟨-, hn, h0⟩, -, -, h1⟩
    exact ⟨⟨hn, h0⟩, by rw [quanta_of_nonneg h0] at h1; exact_mod_cast h1⟩
  · rintro ⟨hn, h1⟩
    exact ⟨⟨isNaN_fZERO, hn.1, hn.2⟩, hn.1, isNaN_fONE, by rw [hn.quanta_eq]; exact_mod_cast h1⟩

theorem unit_not_inf {x : F64} (h : mag x ≤ quantaPerOne) : isInf x = false :=
  isInf_eq_false (lt_of_le_of_lt h quantaPerOne_lt_inf)

/-- The two constants that the envelope takes lie in [0.0, 1.0] (R14). -/
theorem unit_constants :
    (fle fZERO fZERO && fle fZERO fONE) = true ∧ (fle fZERO fONE && fle fONE fONE) = true := by decide +kernel

theorem unit_fZERO : (fle fZERO fZERO && fle fZERO fONE) = true := unit_constants.1
theorem unit_fONE : (fle fZERO fONE && fle fONE fONE) = true := unit_constants.2
/-- SUSTAIN_LEVEL lies there where the configuration's levels are in range (R196). -/
theorem unit_sustain {cfg : Config} (h : levelsInRange cfg = true) :
    (fle fZERO cfg.sustainLevel && fle cfg.sustainLevel fONE) = true := (Bool.and_eq_true _ _ ▸ h).1

/-- An attack step keeps the envelope in [0.0, 1.0] (R195, R202). -/
theorem attack_env {cfg : Config} {v : Voice} (ha : 1 ≤ cfg.attackSamples)
    (h : (fle fZERO v.env && fle v.env fONE) = true) :
    (fle fZERO (attackUpdate cfg v).env && fle (attackUpdate cfg v).env fONE) = true := by
  obtain ⟨hn, _⟩ := (unit_iff _).mp h
  obtain ⟨hi, hs, h1⟩ := i2f_pos ha
  have hone := ((unit_iff _).mp unit_fONE)
  obtain ⟨hq, _⟩ := fdiv_range hone.1 (unit_not_inf hone.2) hi hs h1
  have hsum := hn.fadd hq
  simp only [attackUpdate]
  split
  · exact unit_fONE
  · rename_i hlt
    rw [unit_iff]
    refine ⟨hsum, ?_⟩
    rw [fle_iff, quanta_fONE] at hlt
    have : ¬ (quantaPerOne : Int) ≤ quanta (fadd v.env (fdiv fONE (i2f cfg.attackSamples))) :=
      fun hc => hlt ⟨isNaN_fONE, hsum.1, hc⟩
    rw [hsum.quanta_eq] at this
    exact_mod_cast (by omega :
      (mag (fadd v.env (fdiv fONE (i2f cfg.attackSamples))) : Int) ≤ quantaPerOne)

/-- A release step keeps the envelope in [0.0, 1.0] (R197, R202). -/
theorem release_env {cfg : Config} {v : Voice} (hr : 1 ≤ cfg.releaseSamples)
    (h : (fle fZERO v.env && fle v.env fONE) = true)
    (hl : (fle fZERO v.rsl && fle v.rsl fONE) = true) :
    (fle fZERO (releaseUpdate cfg v).env && fle (releaseUpdate cfg v).env fONE) = true := by
  obtain ⟨hn, hn1⟩ := (unit_iff _).mp h
  obtain ⟨hln, hl1⟩ := (unit_iff _).mp hl
  obtain ⟨hi, hs, h1⟩ := i2f_pos hr
  obtain ⟨hq, hq1, _⟩ := fdiv_range hln (unit_not_inf hl1) hi hs h1
  have hq1 := hq1 hl1
  generalize hd : fdiv v.rsl (i2f cfg.releaseSamples) = d at *
  have hdiff := fadd_finite (y := fneg d) hn.1 (by rw [fneg_isNaN]; exact hq.1) (unit_not_inf hn1)
    (by rw [fneg_isInf]; exact unit_not_inf hq1)
  rw [fneg_quanta, hn.quanta_eq, hq.quanta_eq] at hdiff
  simp only [releaseUpdate, hd, fsub]
  split
  · exact unit_fZERO
  · rename_i hgt
    rw [fle_iff, quanta_fZERO] at hgt
    have hpos : ¬ quanta (fadd v.env (fneg d)) ≤ 0 := fun hc => hgt ⟨hdiff.1, isNaN_fZERO, hc⟩
    rw [unit_iff]
    change NonNeg (fadd v.env (fneg d)) ∧ mag (fadd v.env (fneg d)) ≤ quantaPerOne
    refine ⟨⟨hdiff.1, by omega⟩, ?_⟩
    rw [hdiff.2.1]
    exact magBits_roundMag_le_one (by norm_num) (by omega)

/-- A voice that ends its release has an envelope of 0.0 (R197). -/
theorem release_inactive {cfg : Config} {v : Voice} (h : v.active = true) :
    (releaseUpdate cfg v).active = true ∨
      ((releaseUpdate cfg v).env = fZERO ∧ (releaseUpdate cfg v).est = v.est) := by
  simp only [releaseUpdate]
  split
  · exact .inr ⟨rfl, rfl⟩
  · exact .inl h

/-! ### The phase -/

/-- Every entry of the FREQ table is at least 0 and below 2^25 Hz (R191). -/
theorem freqTable_range :
    (List.range 256).all (fun n =>
      fle fZERO (freqTable.getD n fZERO) && decide (mag (freqTable.getD n fZERO) ≤ 2 ^ 1099)) = true := by
  decide +kernel

theorem freqOf_range (n : Byte) : NonNeg (freqOf n) ∧ mag (freqOf n) ≤ 2 ^ (52 + 1047) := by
  have h := List.all_eq_true.mp freqTable_range n.toNat (List.mem_range.mpr n.isLt)
  rw [Bool.and_eq_true, fle_iff, quanta_fZERO, decide_eq_true_eq] at h
  exact ⟨⟨h.1.2.1, h.1.2.2⟩, h.2⟩

theorem isNaN_fTWO_PI : isNaN fTWO_PI = false := by decide
theorem isInf_fTWO_PI : isInf fTWO_PI = false := by decide
theorem signBit_fTWO_PI : signBit fTWO_PI = false := by decide
/-- The magnitude of TWO_PI, bounded on both sides (R14). -/
theorem mag_fTWO_PI_bounds : mag fTWO_PI ≤ 2 ^ 1077 ∧ 0 < mag fTWO_PI := by decide +kernel
theorem mag_fTWO_PI_le : mag fTWO_PI ≤ 2 ^ 1077 := mag_fTWO_PI_bounds.1
theorem mag_fTWO_PI_pos : 0 < mag fTWO_PI := mag_fTWO_PI_bounds.2
theorem quanta_fTWO_PI : quanta fTWO_PI = (mag fTWO_PI : Int) := by
  rw [quanta, signBit_fTWO_PI]; rfl

theorem pow_lt_inf {p : Nat} (h : p < 2098) : 2 ^ p < infQuanta := by
  rw [infQuanta_eq]; exact Nat.pow_lt_pow_right (by norm_num) h

/-- The phase increment of a legal frequency is at least 0 and finite (R200, R204). -/
theorem phaseIncrement_range {cfg : Config} {v : Voice} (hs : 1 ≤ cfg.sampleRate)
    (hf : NonNeg v.freq) (hm : mag v.freq ≤ 2 ^ (52 + 1047)) :
    NonNeg (phaseIncrement cfg v) ∧ mag (phaseIncrement cfg v) ≤ 2 ^ (52 + 1050) := by
  have fi : isInf v.freq = false := isInf_eq_false (lt_of_le_of_lt hm (pow_lt_inf (by norm_num)))
  have hmul : fmul fTWO_PI v.freq =
      roundQ (signBit fTWO_PI != signBit v.freq) (mag fTWO_PI * mag v.freq) quantaPerOne := by
    simp [fmul, isNaN_fTWO_PI, hf.1, isInf_fTWO_PI, fi]
  have hprod : mag fTWO_PI * mag v.freq ≤ 2 ^ (52 + 1050) * quantaPerOne := by
    refine (Nat.mul_le_mul mag_fTWO_PI_le hm).trans_eq ?_
    rw [quantaPerOne, ← Nat.pow_add, ← Nat.pow_add]
  have hmm : mag (fmul fTWO_PI v.freq) ≤ 2 ^ (52 + 1050) := by
    rw [hmul, mag_roundQ]
    exact magBits_roundMag_le_pow quantaPerOne_pos (by norm_num) hprod
  have hmn : NonNeg (fmul fTWO_PI v.freq) := by
    rw [hmul, signBit_fTWO_PI]
    rcases hf.sign_or_zero with h0 | h0
    · rw [h0]; exact nonNeg_roundQ _ _
    · refine ⟨isNaN_roundQ _ _ _, ?_⟩
      have hz : roundMag 0 quantaPerOne = 0 :=
        Nat.le_zero.mp (roundMag_le quantaPerOne_pos (Nat.zero_le _))
      rw [quanta_roundQ, h0, Nat.mul_zero, hz]
      cases signBit v.freq <;> simp [magBits]
  have mi : isInf (fmul fTWO_PI v.freq) = false :=
    isInf_eq_false (lt_of_le_of_lt hmm (pow_lt_inf (by norm_num)))
  obtain ⟨hi, hsg, h1⟩ := i2f_pos hs
  obtain ⟨h2, _, h3⟩ := fdiv_range hmn mi hi hsg h1
  exact ⟨h2, h3 1050 (by norm_num) hmm⟩

/-- The phase stays in [+0.0, TWO_PI) (R200, R204): the remainder is exact, so it stays below TWO_PI. -/
theorem nextPhase_range {cfg : Config} {v : Voice} (hs : 1 ≤ cfg.sampleRate)
    (hf : NonNeg v.freq) (hm : mag v.freq ≤ 2 ^ (52 + 1047))
    (hp : (fle fZERO v.phase && flt v.phase fTWO_PI) = true) :
    (fle fZERO (nextPhase cfg v) && flt (nextPhase cfg v) fTWO_PI) = true := by
  rw [Bool.and_eq_true, fle_iff, flt_iff, quanta_fZERO] at hp
  obtain ⟨⟨-, pn, p0⟩, -, -, p1⟩ := hp
  rw [quanta_fTWO_PI] at p1
  have hpn : NonNeg v.phase := ⟨pn, p0⟩
  rw [hpn.quanta_eq] at p1
  obtain ⟨hinc, hincm⟩ := phaseIncrement_range hs hf hm
  have pm : mag v.phase ≤ 2 ^ (52 + 1050) := by
    have h1 : mag v.phase ≤ mag fTWO_PI := by omega
    exact (h1.trans mag_fTWO_PI_le).trans (Nat.pow_le_pow_right (by norm_num) (by norm_num))
  have hsum := hpn.fadd hinc
  obtain ⟨_, hsm, _⟩ := fadd_finite hpn.1 hinc.1
    (isInf_eq_false (lt_of_le_of_lt pm (pow_lt_inf (by norm_num))))
    (isInf_eq_false (lt_of_le_of_lt hincm (pow_lt_inf (by norm_num))))
  rw [hpn.quanta_eq, hinc.quanta_eq] at hsm
  have hsm' : mag (fadd v.phase (phaseIncrement cfg v)) ≤ 2 ^ (52 + 1051) := by
    rw [hsm]
    refine magBits_roundMag_le_pow (by norm_num) (by norm_num) ?_
    have : 2 ^ (52 + 1051) = 2 ^ (52 + 1050) + 2 ^ (52 + 1050) := by
      rw [show 52 + 1051 = 52 + 1050 + 1 from rfl, Nat.pow_succ]; omega
    omega
  have hfin : isFinite (fadd v.phase (phaseIncrement cfg v)) = true :=
    isFinite_of_mag_lt hsum.1 (lt_of_le_of_lt hsm' (pow_lt_inf (by norm_num)))
  have hfin2 : isFinite fTWO_PI = true := by decide
  generalize hx : fadd v.phase (phaseIncrement cfg v) = x at *
  have hmod : nextPhase cfg v = roundQ (signBit x) (mag x % mag fTWO_PI) 1 := by
    have h2 : 0 < quanta fTWO_PI := by rw [quanta_fTWO_PI]; exact_mod_cast mag_fTWO_PI_pos
    simp [nextPhase, fmod, hx, hfin, hfin2, hsum.2, h2]
  obtain ⟨b, hb, hbe⟩ := mod_representable (x := x) mag_fTWO_PI_pos
    (lt_of_le_of_lt mag_fTWO_PI_le (pow_lt_inf (by norm_num)))
  have hexact : magBits (roundMag (mag x % mag fTWO_PI) 1) = mag x % mag fTWO_PI := by
    have := roundMag_exact (b := b) (d := 1) (by norm_num) hb
    rw [Nat.mul_one, hbe] at this
    rw [this, hbe]
  have hlt : mag x % mag fTWO_PI < mag fTWO_PI := Nat.mod_lt _ mag_fTWO_PI_pos
  have h0 : signBit x = false ∨ mag x % mag fTWO_PI = 0 :=
    hsum.sign_or_zero.imp_right fun h => by rw [h, Nat.zero_mod]
  have h1 := mag_fTWO_PI_pos
  rw [hmod, Bool.and_eq_true, fle_iff, flt_iff, quanta_fZERO, quanta_fTWO_PI, quanta_roundQ, hexact]
  generalize mag x % mag fTWO_PI = r at *
  generalize mag fTWO_PI = m at *
  refine ⟨⟨isNaN_fZERO, isNaN_roundQ _ _ _, ?_⟩, isNaN_roundQ _ _ _, isNaN_fTWO_PI, ?_⟩ <;>
    rcases h0 with h | h <;> rw [h] <;> split <;> first | omega | exact absurd ‹false = true› Bool.false_ne_true

end Sys2Proof.Machine
end

