-- ==== Sys2Proof/Laws/Slot.lean ====
section
/-! SUPPORT. Every operation on a slot keeps it legal (10_state.md rule R34): note-on, note-off, kill, one sample, a
whole block. A slot that runs its samples is active or in its release (42_voice.md rules R197, R201), so it stays
legal even past the sample that ends the voice. -/

namespace Sys2Proof.Machine

/-- The clauses of `voiceSafe`, each on its own. -/
theorem voiceSafe_iff (dc : DataCheck) (v : Voice) :
    voiceSafe dc v = true ↔
      (fle fZERO v.env && fle v.env fONE) = true ∧ (fle fZERO v.phase && flt v.phase fTWO_PI) = true ∧
        (v.active = true ∨ feq v.env fZERO = true) ∧ noteInRange dc v.note = true ∧
        (fle fZERO v.vel && fle v.vel (maxLevel dc)) = true ∧
        (fle fZERO v.rsl && fle v.rsl fONE) = true ∧
        (v.freq = freqOf v.note ∨ (v.freq = fZERO ∧ v.active = false)) := by
  simp only [voiceSafe, Bool.and_eq_true, Bool.or_eq_true, beq_iff_eq, Bool.not_eq_true']
  tauto

/-- The slot at reset is legal (R49). -/
theorem voiceSafe_reset (dc : DataCheck) : voiceSafe dc Voice.reset = true := by
  cases dc <;> decide +kernel

/-- The range of a normalised data byte (R192, R233), under each DATA_CHECK. -/
theorem normalise_range_all :
    (List.range 256).all (fun n =>
      fle fZERO (normalise (BitVec.ofNat 8 n)) && fle (normalise (BitVec.ofNat 8 n)) (maxLevel .none) &&
        (decide (127 < n) || fle (normalise (BitVec.ofNat 8 n)) (maxLevel .strict))) = true := by
  decide +kernel

theorem normalise_range {dc : DataCheck} {b : Byte} (h : badData dc b = false) :
    (fle fZERO (normalise b) && fle (normalise b) (maxLevel dc)) = true := by
  have hb := List.all_eq_true.mp normalise_range_all b.toNat (List.mem_range.mpr b.isLt)
  rw [BitVec.ofNat_toNat, BitVec.setWidth_eq, Bool.and_eq_true, Bool.and_eq_true, Bool.or_eq_true,
    decide_eq_true_eq] at hb
  rw [Bool.and_eq_true]
  cases dc with
  | none => exact hb.1
  | strict =>
    have : b.toNat ≤ 127 := (bit7_eq_false_iff b).mp h
    exact ⟨hb.1.1, hb.2.resolve_left (by omega)⟩

theorem noteInRange_of_data {dc : DataCheck} {b : Byte} (h : badData dc b = false) : noteInRange dc b = true := by
  cases dc with
  | none => rfl
  | strict => exact decide_eq_true ((bit7_eq_false_iff b).mp h)

theorem feq_fZERO : feq fZERO fZERO = true := by decide

/-- VOICE_NOTE_ON keeps a slot legal (R192). -/
theorem voiceSafe_noteOn {dc : DataCheck} {v : Voice} {note vel : Byte} (hn : badData dc note = false)
    (hl : badData dc vel = false) (h : voiceSafe dc v = true) : voiceSafe dc (voiceNoteOn note vel v) = true := by
  rw [voiceSafe_iff] at h ⊢
  exact ⟨unit_fZERO, h.2.1, .inl rfl, noteInRange_of_data hn, normalise_range hl, h.2.2.2.2.2.1, .inl rfl⟩

/-- VOICE_NOTE_OFF keeps a slot legal (R193): rsl is a snapshot of env. -/
theorem voiceSafe_noteOff {dc : DataCheck} {v : Voice} (h : voiceSafe dc v = true) :
    voiceSafe dc (voiceNoteOff v) = true := by
  unfold voiceNoteOff
  split
  · exact h
  · rw [voiceSafe_iff] at h ⊢
    exact ⟨h.1, h.2.1, h.2.2.1, h.2.2.2.1, h.2.2.2.2.1, h.1, h.2.2.2.2.2.2⟩

theorem voiceSafe_noteOffSlot {dc : DataCheck} {v : Voice} (note : Byte) (h : voiceSafe dc v = true) :
    voiceSafe dc (noteOffSlot note v) = true := by
  unfold noteOffSlot
  split
  · exact voiceSafe_noteOff h
  · exact h

/-- VOICE_KILL keeps a slot legal (R205). -/
theorem voiceSafe_kill {dc : DataCheck} {v : Voice} (h : voiceSafe dc v = true) :
    voiceSafe dc (voiceKill v) = true := by
  rw [voiceSafe_iff] at h ⊢
  obtain ⟨-, h2, -, h4, h5, h6, h7⟩ := h
  exact ⟨unit_fZERO, h2, .inr feq_fZERO, h4, h5, h6, h7.imp_right fun k => ⟨k.1, rfl⟩⟩

/-- A slot that runs its samples: active, or at the end of its release with an envelope of 0.0 (R197, R201). -/
def Running (v : Voice) : Prop := v.active = true ∨ v.est = .release

/-- From an envelope of 0.0 a release sample ends the voice again (R197). -/
theorem release_again {cfg : Config} {v : Voice} (hr : 1 ≤ cfg.releaseSamples) (he : feq v.env fZERO = true)
    (hl : (fle fZERO v.rsl && fle v.rsl fONE) = true) :
    releaseUpdate cfg v = { v with env := fZERO, active := false } := by
  obtain ⟨hln, hl1⟩ := (unit_iff _).mp hl
  obtain ⟨hi, hs, h1⟩ := i2f_pos hr
  obtain ⟨hq, hq1, _⟩ := fdiv_range hln (unit_not_inf hl1) hi hs h1
  rw [feq_iff, quanta_fZERO] at he
  have hm : mag v.env = 0 := by rw [← quanta_natAbs, he.2.2]; rfl
  have hdiff := fadd_finite (y := fneg (fdiv v.rsl (i2f cfg.releaseSamples))) he.1
    (by rw [fneg_isNaN]; exact hq.1) (isInf_eq_false (by rw [hm]; exact infQuanta_pos))
    (by rw [fneg_isInf]; exact unit_not_inf (hq1 hl1))
  have hle : fle (fsub v.env (fdiv v.rsl (i2f cfg.releaseSamples))) fZERO = true := by
    rw [fle_iff, quanta_fZERO]
    refine ⟨hdiff.1, isNaN_fZERO, ?_⟩
    have hx := hq.quanta_eq
    rw [fneg_quanta, he.2.2] at hdiff
    simp only [fsub, fadd, he.1, fneg_isNaN, hq.1, isInf_eq_false (x := v.env) (by rw [hm]; exact infQuanta_pos),
      fneg_isInf, unit_not_inf (hq1 hl1), Bool.or_self, Bool.false_eq_true, if_false, fneg_quanta, he.2.2]
    split
    · rw [quanta_roundQ, magBits_roundMag_zero (by norm_num)]; simp
    · rw [quanta_roundQ, decide_eq_true (by omega)]; simp
  simp only [releaseUpdate, hle, if_true]

/-- The envelope update keeps a running slot legal but for its phase, which it does not touch. -/
theorem voiceSafe_envUpdate {dc : DataCheck} {cfg : Config} {v : Voice} (ha : configAdmitted cfg = true)
    (hlv : levelsInRange cfg = true) (h : voiceSafe dc v = true) (hr : Running v) :
    voiceSafe dc (envUpdate cfg v) = true ∧ Running (envUpdate cfg v) := by
  simp only [configAdmitted, Bool.and_eq_true, decide_eq_true_eq] at ha
  have h' := h
  rw [voiceSafe_iff] at h
  obtain ⟨h1, h2, h3, h4, h5, h6, h7⟩ := h
  cases he : v.est with
  | attack =>
    have hact : v.active = true := hr.resolve_right (by simp [he])
    have henv := attack_env (v := v) ha.1.1.1.1.1.1.1.2 h1
    have hu : envUpdate cfg v = { v with env := (attackUpdate cfg v).env, est := (attackUpdate cfg v).est } := by
      simp only [envUpdate, he, attackUpdate]; split <;> simp
    rw [hu]
    refine ⟨?_, .inl hact⟩
    rw [voiceSafe_iff]
    exact ⟨henv, h2, .inl hact, h4, h5, h6, h7⟩
  | sustain =>
    have hact : v.active = true := hr.resolve_right (by simp [he])
    have hu : envUpdate cfg v = { v with env := cfg.sustainLevel } := by simp only [envUpdate, he, sustainUpdate]
    rw [hu]
    refine ⟨?_, .inl hact⟩
    rw [voiceSafe_iff]
    exact ⟨unit_sustain hlv, h2, .inl hact, h4, h5, h6, h7⟩
  | release =>
    have hu : envUpdate cfg v = releaseUpdate cfg v := by simp only [envUpdate, he]
    have hrel : (releaseUpdate cfg v).est = .release := by simp only [releaseUpdate]; split <;> exact he
    rw [hu]
    refine ⟨?_, .inr hrel⟩
    rcases h3 with hact | hz
    · have henv := release_env (v := v) ha.1.1.1.1.1.1.2 h1 h6
      simp only [releaseUpdate] at henv ⊢
      split <;> rename_i hc <;> simp only [hc, if_true, if_false, Bool.false_eq_true] at henv
      · rw [voiceSafe_iff]
        exact ⟨henv, h2, .inr feq_fZERO, h4, h5, h6, h7.imp_right fun k => ⟨k.1, rfl⟩⟩
      · rw [voiceSafe_iff]
        exact ⟨henv, h2, .inl hact, h4, h5, h6, h7⟩
    · rw [release_again ha.1.1.1.1.1.1.2 hz h6]
      exact voiceSafe_kill h'

/-- The frequency of a legal slot is in the table's range or 0 (R191, R31). -/
theorem freq_range {dc : DataCheck} {v : Voice} (h : voiceSafe dc v = true) :
    NonNeg v.freq ∧ mag v.freq ≤ 2 ^ (52 + 1047) := by
  rw [voiceSafe_iff] at h
  rcases h.2.2.2.2.2.2 with hf | ⟨hf, -⟩
  · rw [hf]; exact freqOf_range _
  · rw [hf]
    have hz := (unit_iff _).mp unit_fZERO
    have hm : mag fZERO = 0 := by decide
    exact ⟨hz.1, by rw [hm]; exact Nat.zero_le _⟩

/-- One sample keeps a running slot legal and running (R202, R204). -/
theorem voiceSafe_sample {dc : DataCheck} {cfg : Config} {v : Voice} (ha : configAdmitted cfg = true)
    (hlv : levelsInRange cfg = true) (h : voiceSafe dc v = true) (hr : Running v) :
    voiceSafe dc (voiceSample cfg v).2 = true ∧ Running (voiceSample cfg v).2 := by
  obtain ⟨hu, hur⟩ := voiceSafe_envUpdate ha hlv h hr
  simp only [configAdmitted, Bool.and_eq_true, decide_eq_true_eq] at ha
  obtain ⟨hf, hm⟩ := freq_range hu
  simp only [voiceSample]
  generalize envUpdate cfg v = u at *
  refine ⟨?_, hur⟩
  rw [voiceSafe_iff] at hu ⊢
  exact ⟨hu.1, nextPhase_range ha.1.1.1.1.1.1.1.1.2 hf hm hu.2.1, hu.2.2⟩

/-- A legal slot that is not silent at the start of a block is active (R201). -/
theorem running_of_not_silent {dc : DataCheck} {v : Voice} (h : voiceSafe dc v = true)
    (hs : voiceSilent v = false) : Running v := by
  rw [voiceSafe_iff] at h
  rcases h.2.2.1 with ha | hz
  · exact .inl ha
  · left
    rw [feq_iff] at hz
    have : fle v.env fZERO = true := (fle_iff _ _).mpr ⟨hz.1, hz.2.1, le_of_eq hz.2.2⟩
    simpa [voiceSilent, this] using hs

theorem voiceSafe_run {dc : DataCheck} {cfg : Config} (ha : configAdmitted cfg = true)
    (hlv : levelsInRange cfg = true) (n : Nat) :
    ∀ v : Voice, voiceSafe dc v = true → Running v → voiceSafe dc (voiceRun cfg n v).2 = true := by
  induction n with
  | zero => exact fun v h _ => h
  | succ n ih =>
    intro v h hr
    obtain ⟨h1, h2⟩ := voiceSafe_sample ha hlv h hr
    exact ih _ h1 h2

/-- A block keeps a slot legal (R201, R244). -/
theorem voiceSafe_block {dc : DataCheck} {cfg : Config} (ha : configAdmitted cfg = true)
    (hlv : levelsInRange cfg = true) (n : Nat) {v : Voice}
    (h : voiceSafe dc v = true) : voiceSafe dc (voiceBlock cfg n v).2 = true := by
  unfold voiceBlock
  cases hs : voiceSilent v
  · simpa using voiceSafe_run ha hlv n v h (running_of_not_silent h hs)
  · simpa using h

end Sys2Proof.Machine
end

