-- ==== Sys2Proof/Laws/Step.lean ====
section
/-! SUPPORT. What a step can do, said once: for each transaction, if it answers next t, then t is the old state or one
of the states listed, with the conditions that lead there (60_exceptions.md rule R321). -/

namespace Sys2Proof.Machine

/-- A step is the scheduled instruction, run with the choice used up (R321). -/
theorem step_cases {s t : State} (h : step s = .next t) :
    configAdmitted s.cfg = true ∧ ∃ x sch o,
      exec (txnInstr x) { s with schedule := sch, oracle := o } = .next t := by
  unfold step at h
  split at h
  · rename_i ha
    refine ⟨ha, (nextTxn s).1, s.schedule.tail, (nextTxn s).2.oracle, ?_⟩
    rw [← nextTxn_spec]
    exact h
  · cases h

theorem linkOpen_cases {s t : State} (h : exec .linkOpen s = .next t) :
    t = s ∨ (s.runState = .init ∧ ∃ d o,
      (t = linkOpened (record .openLink { s with openDraws := d, oracle := o }) ∨
        t = fatal causeLinkOpenFail (record .openLink { s with openDraws := d, oracle := o }))) := by
  simp only [exec, execLinkOpen] at h
  split at h
  · rename_i he
    refine .inr ⟨by simpa [linkOpenEnabled] using he, s.openDraws.tail,
      if s.openDraws = [] then s.oracle + 1 else s.oracle, ?_⟩
    rw [nextOpen_eq] at h
    split at h <;> rename_i heq <;> cases h <;> obtain ⟨_, rfl⟩ := Prod.mk.inj heq
    · exact .inr rfl
    · exact .inl rfl
  · cases h; exact .inl rfl

theorem sinkOpen_cases {s t : State} (h : exec .sinkOpen s = .next t) :
    t = s ∨ (s.runState = .starting ∧ ∃ d o,
      (t = sinkOpened (record (sinkOpenCall s) { s with openDraws := d, oracle := o }) ∨
        t = fatal causeDeviceOpenFail (record (sinkOpenCall s) { s with openDraws := d, oracle := o }))) := by
  simp only [exec, execSinkOpen] at h
  split at h
  · rename_i he
    refine .inr ⟨by simpa [sinkOpenEnabled] using he, s.openDraws.tail,
      if s.openDraws = [] then s.oracle + 1 else s.oracle, ?_⟩
    rw [nextOpen_eq] at h
    split at h <;> rename_i heq <;> cases h <;> obtain ⟨_, rfl⟩ := Prod.mk.inj heq
    · exact .inr rfl
    · exact .inl rfl
  · cases h; exact .inl rfl

theorem probeRead_cases {s t : State} (h : exec .probeRead s = .next t) :
    t = s ∨ (s.runState = .probing ∧ s.probeBuf.length < s.cfg.probeMax ∧ s.windowExpired = false ∧ ∃ l d o,
      (t = fatal causeLinkError { s with link := l, readDraws := d, oracle := o } ∧ l = s.link ∨
        ∃ k, k ≤ s.cfg.probeMax - s.probeBuf.length ∧ l = s.link.drop k ∧
          t = { s with link := l, readDraws := d, oracle := o, probeBuf := s.probeBuf ++ s.link.take k })) := by
  simp only [exec, execProbeRead] at h
  split at h
  · rename_i he
    simp only [probeReadEnabled, Bool.and_eq_true, beq_iff_eq, decide_eq_true_eq, Bool.not_eq_true'] at he
    refine .inr ⟨he.1.1, he.1.2, he.2, ?_⟩
    cases hr : linkRead (s.cfg.probeMax - s.probeBuf.length) s with
    | mk r s1 =>
      obtain ⟨hs, hc⟩ := linkRead_spec hr
      rw [hr] at h
      refine ⟨s1.link, s.readDraws.tail, s1.oracle, ?_⟩
      cases r with
      | err =>
        cases h
        exact .inl ⟨congrArg _ hs, by simpa using hc⟩
      | ok bs =>
        cases h
        obtain ⟨k, hk, hb, hl⟩ := hc.resolve_left (by simp)
        cases hb
        exact .inr ⟨k, hk, hl, by rw [hs]⟩
  · cases h; exact .inl rfl

theorem ingestRead_cases {s t : State} (h : exec .ingestRead s = .next t) :
    t = s ∨ (s.mode = .midi ∧ s.runState = .running ∧ s.ing = .read ∧ ∃ l d o,
      (t = fatal causeLinkError { s with link := l, readDraws := d, oracle := o } ∧ l = s.link ∨
        ∃ k, k ≤ s.cfg.readChunk ∧ l = s.link.drop k ∧
          t = { s with
            link := l, readDraws := d, oracle := o, pbuf := s.pbuf ++ s.link.take k, ing := .parse })) := by
  simp only [exec, execIngestRead] at h
  split at h
  · rename_i he
    simp only [ingestReadEnabled, Bool.and_eq_true, beq_iff_eq] at he
    refine .inr ⟨he.1.1, he.1.2, he.2, ?_⟩
    cases hr : linkRead s.cfg.readChunk s with
    | mk r s1 =>
      obtain ⟨hs, hc⟩ := linkRead_spec hr
      rw [hr] at h
      refine ⟨s1.link, s.readDraws.tail, s1.oracle, ?_⟩
      cases r with
      | err =>
        cases h
        exact .inl ⟨congrArg _ hs, by simpa using hc⟩
      | ok bs =>
        cases h
        obtain ⟨k, hk, hb, hl⟩ := hc.resolve_left (by simp)
        cases hb
        exact .inr ⟨k, hk, hl, by rw [hs]⟩
  · cases h; exact .inl rfl

theorem windowExpire_cases {s t : State} (h : exec .windowExpire s = .next t) :
    t = s ∨ (s.runState = .probing ∧ s.windowExpired = false ∧ t = { s with windowExpired := true }) := by
  simp only [exec, execWindowExpire] at h
  split at h <;> cases h
  · rename_i he
    exact .inr (by simpa [windowExpireEnabled] using he)
  · exact .inl rfl

theorem classify_cases {s t : State} (h : exec .classify s = .next t) :
    t = s ∨ (s.runState = .probing ∧
      t = { s with mode := classify s.cfg s.probeBuf, probeBuf := [], runState := .starting }) := by
  simp only [exec, execClassify] at h
  split at h <;> cases h
  · rename_i he
    simp only [classifyEnabled, Bool.and_eq_true, beq_iff_eq] at he
    exact .inr ⟨he.1, rfl⟩
  · exact .inl rfl

theorem generate_cases {s t : State} {n : Nat} (h : exec (.generate n) s = .next t) :
    t = s ∨ (s.mode = .midi ∧ s.runState = .running ∧ s.sinkOpen = true ∧
      t = { s with voices := voicesAfter n s, sink := s.sink ++ [generateBlock n s] }) := by
  simp only [exec, execGenerate] at h
  split at h <;> cases h
  · rename_i he
    simp only [generateEnabled, Bool.and_eq_true, beq_iff_eq] at he
    exact .inr ⟨he.1.1, he.1.2, he.2, rfl⟩
  · exact .inl rfl

theorem stop_cases {s t : State} (h : exec .stop s = .next t) :
    t = s ∨ (s.runState ≠ .stopped ∧ s.runState ≠ .failed ∧
      t = { teardown { s with stopReq := true } with runState := .stopped }) := by
  simp only [exec, execStop] at h
  split at h <;> cases h
  · rename_i he
    simp only [stopEnabled, terminal, Bool.not_eq_true', Bool.or_eq_false_iff, beq_eq_false_iff_ne] at he
    exact .inr ⟨he.1, he.2, rfl⟩
  · exact .inl rfl

theorem sinkFault_cases {s t : State} (h : exec .sinkFault s = .next t) :
    t = s ∨ (s.runState = .running ∧ t = fatal causeSinkError s) := by
  simp only [exec, execSinkFault] at h
  split at h <;> cases h
  · rename_i he
    exact .inr ⟨by simpa [sinkFaultEnabled] using he, rfl⟩
  · exact .inl rfl

theorem rawStep_cases {s t : State} (h : exec .rawStep s = .next t) :
    t = s ∨ (s.mode = .rawAudio ∧ s.runState = .running ∧ s.sinkOpen = true ∧ ∃ s1,
      (rawSlots s.cfg.blockSamples { s with rawBlock := [] } = (false, s1) ∧
          t = fatal causeLinkError { s1 with rawBlock := [] } ∨
        rawSlots s.cfg.blockSamples { s with rawBlock := [] } = (true, s1) ∧ t = rawFinish s1)) := by
  simp only [exec, execRawStep] at h
  split at h
  · rename_i he
    simp only [rawStepEnabled, Bool.and_eq_true, beq_iff_eq] at he
    refine .inr ⟨he.1.1, he.1.2, he.2, ?_⟩
    split at h <;> rename_i heq <;> cases h
    · exact ⟨_, .inl ⟨heq, rfl⟩⟩
    · exact ⟨_, .inr ⟨heq, rfl⟩⟩
  · cases h; exact .inl rfl

/-- PARSE_APPLY in terms of parse (R161, R162). -/
theorem execDecoded_eq {cfg : Config} {bs : List Byte} {i : Instr} (hd : decodeMidi cfg bs = .ok i) {s : State}
    (he : parseApplyEnabled s = true) :
    execDecoded i s = .next
      (if consumedBy i = 0 then { s with ing := .read }
       else ((eventOf s.cfg i).elim id emit) (consume (consumedBy i) s)) := by
  have hm := decodeMidi_onMidiPath hd
  cases i <;> first
    | (simp [execDecoded, execNoteOff, execNoteOn, execNoteOnV0, execCcVolume, execCcPanic, execCcOther, execProg,
        execDropData, execDropA, execDropD, execDropE, execDropSys, execDropBadData, execWait, onFrame, he,
        consumedBy, eventOf, consume]; done)
    | cases hm

theorem parseApply_cases {s t : State} (h : exec .parseApply s = .next t) :
    t = s ∨ (s.mode = .midi ∧ s.runState = .running ∧ s.ing = .parse ∧
      ((parse s.cfg s.pbuf).2 = 0 ∧ t = { s with ing := .read } ∨
        (parse s.cfg s.pbuf).2 ≠ 0 ∧
          t = ((parse s.cfg s.pbuf).1.elim id emit) (consume (parse s.cfg s.pbuf).2 s))) := by
  simp only [exec, execParseApply] at h
  split at h
  · rename_i he
    have he' := he
    simp only [parseApplyEnabled, Bool.and_eq_true, beq_iff_eq] at he'
    refine .inr ⟨he'.1.1, he'.1.2, he'.2, ?_⟩
    split at h <;> rename_i hd
    · cases h
      exact .inl (by simp [parse, hd])
    · rw [execDecoded_eq hd he] at h
      cases h
      simp only [parse, hd]
      by_cases hz : consumedBy ‹Instr› = 0 <;> simp [hz]
  · cases h; exact .inl rfl

end Sys2Proof.Machine
end

