-- ==== Sys2Proof/Tests/Slice0.lean ====
section
/-! SUPPORT. The model's own tests: ill-formed terms that WellFormed refuses, words written out from the encodings
of 30_encoding.md, one-step examples of the rules and of 95_test_vectors.md, and for each statement with hypotheses a
concrete case that meets them. -/

namespace Sys2Proof.Tests

open Sys2Proof Sys2Proof.Machine

/-- The reference configuration, whose DATA_CHECK is strict. -/
abbrev strict : Config := Config.reference

/-- The same with DATA_CHECK = none. -/
abbrev unchecked : Config := { Config.reference with dataCheck := .none }

/-- The same with both controllers overridden (93_implementation_defined.md, item 19). -/
abbrev overridden : Config := { Config.reference with ccVolume := 11#7, ccPanic := 120#7 }

/-! ### WellFormed: one ill-formed term for each check -/

theorem test_wf_noteOff_note : wellFormed strict (.noteOff 0#4 128#8 0#8) = false := by decide
theorem test_wf_noteOff_relvel : wellFormed strict (.noteOff 0#4 60#8 128#8) = false := by decide
theorem test_wf_noteOn_note : wellFormed strict (.noteOn 0#4 128#8 1#8) = false := by decide
theorem test_wf_noteOn_vel : wellFormed strict (.noteOn 0#4 60#8 255#8) = false := by decide
theorem test_wf_noteOn_zero : wellFormed unchecked (.noteOn 0#4 60#8 0#8) = false := by decide
theorem test_wf_noteOnV0_note : wellFormed strict (.noteOnV0 0#4 128#8) = false := by decide
theorem test_wf_ccVolume_value : wellFormed strict (.ccVolume 0#4 128#8) = false := by decide
theorem test_wf_ccPanic_value : wellFormed strict (.ccPanic 0#4 128#8) = false := by decide
theorem test_wf_ccPanic_number :
    wellFormed { strict with ccPanic := 7#7 } (.ccPanic 0#4 0#8) = false := by decide
theorem test_wf_ccOther_controller : wellFormed strict (.ccOther 0#4 128#8 0#8) = false := by decide
theorem test_wf_ccOther_value : wellFormed strict (.ccOther 0#4 64#8 128#8) = false := by decide
theorem test_wf_ccOther_volume : wellFormed unchecked (.ccOther 0#4 7#8 0#8) = false := by decide
theorem test_wf_ccOther_panic : wellFormed unchecked (.ccOther 0#4 123#8 0#8) = false := by decide
theorem test_wf_prog_program : wellFormed strict (.prog 0#4 128#8) = false := by decide
theorem test_wf_badData_none : wellFormed unchecked (.dropBadData .noteOn 0#4 255#8 255#8) = false := by decide
theorem test_wf_badData_good : wellFormed strict (.dropBadData .noteOn 0#4 60#8 100#8) = false := by decide
theorem test_wf_badData_prog : wellFormed strict (.dropBadData .programChange 0#4 255#8 1#8) = false := by decide
theorem test_wf_wait_prog : wellFormed strict (.wait .programChange 0#4 (some 1#8)) = false := by decide

/-! ### Words of every constructor, bit by bit from R100 and R163 to R170 -/

theorem test_decode_noteOff :
    decodeMidi strict [0b10000011#8, 0b01000101#8, 0b01000000#8] = .ok (.noteOff 3#4 69#8 64#8) := by decide
theorem test_decode_noteOn :
    decodeMidi strict [0b10011111#8, 0b01111111#8, 0b00000001#8] = .ok (.noteOn 15#4 127#8 1#8) := by decide
theorem test_decode_noteOn_none :
    decodeMidi unchecked [0b10010000#8, 0b11111000#8, 0b10000000#8] = .ok (.noteOn 0#4 248#8 128#8) := by decide
theorem test_decode_noteOnV0 :
    decodeMidi strict [0b10010010#8, 0b01000101#8, 0b00000000#8] = .ok (.noteOnV0 2#4 69#8) := by decide
theorem test_decode_ccVolume :
    decodeMidi strict [0b10110001#8, 0b00000111#8, 0b01000000#8] = .ok (.ccVolume 1#4 64#8) := by decide
theorem test_decode_ccPanic :
    decodeMidi strict [0b10110100#8, 0b01111011#8, 0b00000101#8] = .ok (.ccPanic 4#4 5#8) := by decide
theorem test_decode_ccOther :
    decodeMidi strict [0b10110000#8, 0b01000000#8, 0b01111111#8] = .ok (.ccOther 0#4 64#8 127#8) := by decide
theorem test_decode_overridden :
    decodeMidi overridden [0xB0#8, 11#8, 1#8] = .ok (.ccVolume 0#4 1#8) ∧
      decodeMidi overridden [0xB0#8, 120#8, 1#8] = .ok (.ccPanic 0#4 1#8) ∧
      decodeMidi overridden [0xB0#8, 7#8, 1#8] = .ok (.ccOther 0#4 7#8 1#8) := by decide
theorem test_decode_prog : decodeMidi strict [0b11000101#8, 0b00010000#8] = .ok (.prog 5#4 16#8) := by decide
theorem test_decode_dropData : decodeMidi strict [0b01111110#8] = .ok (.dropData 126#7) := by decide
theorem test_decode_dropA : decodeMidi strict [0b10101001#8] = .ok (.dropA 9#4) := by decide
theorem test_decode_dropD : decodeMidi strict [0b11010110#8] = .ok (.dropD 6#4) := by decide
theorem test_decode_dropE : decodeMidi strict [0b11101111#8] = .ok (.dropE 15#4) := by decide
theorem test_decode_dropSys : decodeMidi strict [0b11110111#8] = .ok (.dropSys 7#4) := by decide
theorem test_decode_dropBadData_second :
    decodeMidi strict [0b10110011#8, 0b00000111#8, 0b10000000#8] =
      .ok (.dropBadData .controlChange 3#4 7#8 128#8) := by decide
theorem test_decode_dropBadData_prog :
    decodeMidi strict [0b11000011#8, 0b10000001#8, 0b00000001#8] =
      .ok (.dropBadData .programChange 3#4 129#8 0#8) := by decide
theorem test_decode_wait : decodeMidi strict [0b10000001#8] = .ok (.wait .noteOff 1#4 none) := by decide
theorem test_decode_wait_prog : decodeMidi strict [0b11000101#8] = .ok (.wait .programChange 5#4 none) := by decide
theorem test_decode_rawSample : decodeRaw [0b00010000#8, 0b11111111#8] = .ok (.rawSample 16#8 255#8) := by decide
theorem test_decode_raw_short : decodeRaw [0b00010000#8] = .error .shortRead := by decide
/-- The 24-bit word of the table's NOTE_OFF row, byte 0 at the top. -/
theorem test_table_noteOff : decodeTableWord 24 0x834540 = some (.noteOff 3#4 69#8 64#8) := by decide
theorem test_table_prog : decodeTableWord 16 0xC510 = some (.prog 5#4 16#8) := by decide
theorem test_table_dropSys : decodeTableWord 8 0xF8 = some (.dropSys 8#4) := by decide

/-! ### Small states -/

/-- The MIDI path running in its parse phase, with these bytes in PBUF. -/
def midi (bs : List Byte) : State :=
  { State.reset with
    mode := .midi, runState := .running, linkOpen := true, sinkOpen := true, ing := .parse, pbuf := bs }

/-- A finite link. -/
abbrev finite (bs : List Byte) : Link := { bytes := bs, free := none }

/-- The raw path running, with these bytes on the link and these draws. -/
def raw (bs : List Byte) (ds : List ReadDraw) : State :=
  { State.reset with
    mode := .rawAudio, runState := .running, linkOpen := true, sinkOpen := true, link := finite bs,
    readDraws := ds }

/-- The probe under way, with these bytes collected. -/
def probing (bs : List Byte) : State :=
  { State.reset with runState := .probing, linkOpen := true, probeBuf := bs }

/-- About to open the sink. -/
def starting (m : Mode) : State := { State.reset with runState := .starting, linkOpen := true, mode := m }

/-- The outcome's state, or the state given where it has none. -/
def after (o : Host.Outcome State Fault Refusal) (s : State) : State :=
  match o with
  | .next t => t
  | .fault _ => s
  | .refused _ => s

/-- A slot that holds a note. -/
def held (note : Byte) (est : Est) (env : F64) : Voice :=
  { voiceNoteOn note 127#8 Voice.reset with est := est, env := env }

/-! ### One step at a time -/

theorem test_noteOff_matches :
    (after (exec (.noteOff 0#4 60#8 9#8)
      { midi [] with voices := [held 60#8 .sustain fONE, held 61#8 .sustain fONE] }) (midi [])).voices =
      [{ held 60#8 .release fONE with rsl := fONE }, held 61#8 .sustain fONE] := by decide +kernel
/-- R231's example: the ninth note steals slot 0. -/
theorem test_noteOn_steals :
    ((after (exec (.noteOn 0#4 68#8 100#8) { midi [] with voices := [held 60#8 .release fONE, held 61#8 .attack fONE] })
      (midi [])).voices.map (fun v => v.note)) = [68#8, 61#8] := by decide
theorem test_noteOn_first_free :
    ((after (exec (.noteOn 5#4 68#8 100#8)
      { midi [] with voices := [held 60#8 .attack fONE, Voice.reset, Voice.reset] }) (midi [])).voices.map
        (fun v => (v.note, v.active))) = [(60#8, true), (68#8, true), (0#8, false)] := by decide
theorem test_noteOnV0_releases :
    ((after (exec (.noteOnV0 0#4 60#8) { midi [] with voices := [held 60#8 .attack fZERO] }) (midi [])).voices.map
      (fun v => v.est)) = [.release] := by decide
/-- R233: value 64 gives 0x3FE0204081020408. -/
theorem test_ccVolume_value :
    (after (exec (.ccVolume 0#4 64#8) (midi [])) (midi [])).volume = 0x3FE0204081020408#64 := by decide +kernel
theorem test_ccPanic_kills :
    ((after (exec (.ccPanic 0#4 0#8) { midi [] with voices := [held 60#8 .sustain fONE] }) (midi [])).voices.map
      (fun v => (v.active, v.env, v.est, v.note))) = [(false, fZERO, .sustain, 60#8)] := by decide
theorem test_ccOther_nothing : (after (exec (.ccOther 0#4 64#8 127#8) (midi [])) State.reset) = midi [] := by
  decide
theorem test_prog_bytes :
    (after (exec (.prog 0#4 9#8) (midi [0xC0#8, 9#8, 1#8])) State.reset) = midi [1#8] := by decide
theorem test_dropData_byte : (after (exec (.dropData 1#7) (midi [1#8, 2#8])) State.reset) = midi [2#8] := by
  decide
theorem test_dropBadData_byte :
    (after (exec (.dropBadData .noteOn 0#4 0xF8#8 0#8) (midi [0x90#8, 0xF8#8, 0#8])) State.reset) =
      midi [0xF8#8, 0#8] := by decide
theorem test_wait_keeps :
    (after (exec (.wait .noteOn 0#4 none) (midi [0x90#8])) State.reset) = { midi [0x90#8] with ing := .read } := by
  decide
/-- R273: F0 FF is −16; R274: 00 80 is filtered. -/
theorem test_rawSample_value :
    (after (exec (.rawSample 0xF0#8 0xFF#8) (raw [] [])) State.reset).rawBlock = [-16] := by decide
theorem test_rawSample_noise :
    (after (exec (.rawSample 0x00#8 0x80#8) (raw [] [])) State.reset).rawBlock = [0] := by decide
theorem test_linkOpen_auto :
    let t := after (exec .linkOpen { State.reset with openDraws := [.ok] }) State.reset
    (t.runState, t.linkOpen, t.mode) = (.probing, true, .undecided) := by decide
theorem test_linkOpen_fails :
    let t := after (exec .linkOpen { State.reset with openDraws := [.fail] }) State.reset
    (t.runState, t.linkOpen, t.faultCause) = (.failed, false, 1#8) := by decide
/-- R140's example. -/
theorem test_probeRead_appends :
    (after (exec .probeRead { probing [0x90#8] with link := finite [0x40#8, 0x64#8, 1#8], readDraws := [.ok 2] })
      State.reset).probeBuf = [0x90#8, 0x40#8, 0x64#8] := by decide
theorem test_windowExpire_latch :
    (after (exec .windowExpire (probing [])) State.reset).windowExpired = true := by decide
theorem test_classify_raw :
    let t := after (exec .classify { probing [0x00#8, 0xFF#8, 0x00#8] with windowExpired := true }) State.reset
    (t.mode, t.probeBuf, t.runState) = (.rawAudio, [], .starting) := by decide
theorem test_sinkOpen_raw_rate :
    (after (exec .sinkOpen { starting .rawAudio with openDraws := [.ok] }) State.reset).calls =
      [.openSink 8000 1 8 0] := by decide
/-- R160's example. -/
theorem test_ingestRead_appends :
    let t := after (exec .ingestRead
      { midi [0x90#8] with ing := .read, link := finite [0x3C#8, 0x64#8], readDraws := [.ok 4] }) State.reset
    (t.pbuf, t.ing, t.link) = ([0x90#8, 0x3C#8, 0x64#8], .parse, finite []) := by decide
/-- R71: past the bytes listed, an unbounded link goes on, each byte once. -/
theorem test_ingestRead_unbounded :
    let t := after (exec .ingestRead
      { midi [] with ing := .read, link := { bytes := [1#8], free := some 5 }, readDraws := [.ok 3] }) State.reset
    (t.pbuf, t.link) = ([1#8, Config.freeByte 5, Config.freeByte 6], { bytes := [], free := some 7 }) := by rfl
/-- R162's example, its first step. -/
theorem test_parseApply_drops :
    (after (exec .parseApply (midi [0xFE#8, 0x90#8, 0x3C#8, 0x64#8])) State.reset) =
      midi [0x90#8, 0x3C#8, 0x64#8] := by decide
/-- R238's example. -/
theorem test_generate_block :
    (after (exec (.generate 10) { midi [] with voices := [voiceNoteOn 69#8 127#8 Voice.reset, Voice.reset] })
      State.reset).sink = [[-1228, 245, -2949, 1474, -3686, 3686, -3440, 6881, -1572, 7077]] := by decide +kernel
/-- R245: eight voices clip. -/
theorem test_generate_clips :
    (after (exec (.generate 8) { midi [] with voices := List.replicate 8 (voiceNoteOn 69#8 127#8 Voice.reset) })
      State.reset).sink = [[-9830, 1966, -23592, 11796, -29490, 29490, -27524, 32767]] := by decide +kernel
/-- R270's example. -/
theorem test_rawStep_block :
    (after (exec .rawStep (raw [0x10#8, 0x00#8, 0xF0#8, 0xFF#8, 0x00#8, 0x80#8, 0x20#8, 0x03#8]
      [.ok 2, .ok 2, .ok 2, .ok 2])) State.reset).sink = [[16, 0, -16, -8, 0, 400, 800, 800]] := by decide
/-- R284: a one-byte read gives 0 and loses its byte. -/
theorem test_rawStep_short :
    (after (exec .rawStep (raw [0x10#8, 0x00#8, 0xF0#8, 0xFF#8, 0x00#8, 0x20#8, 0x03#8]
      [.ok 2, .ok 1, .ok 2, .ok 2])) State.reset).sink = [[16, 8, 0, 127, 255, 527, 800, 800]] := by decide
/-- R277's examples on the endpoint grid. -/
theorem test_upsample_endpoint :
    upsample .endpoint [16, -16, 0, 800] 2 = [16, 2, -11, -11, -4, 114, 457, 800] ∧
      upsample .endpoint [100, -101] 4 = [100, 71, 42, 13, -14, -43, -72, -101] := by decide
theorem test_stop_closes :
    let t := after (exec .stop (midi [])) State.reset
    (t.runState, t.stopReq, t.calls, t.faultCause) = (.stopped, true, [.closeSink, .closeLink], 0#8) := by
  decide
theorem test_sinkFault_cause :
    let t := after (exec .sinkFault (midi [])) State.reset
    (t.runState, t.faultCause) = (.failed, 4#8) := by decide
theorem test_step_refuses :
    step { State.reset with cfg := { Config.reference with attackSamples := 0 } } =
      .refused .configNotAdmitted := by rfl

/-! ### A case that meets the hypotheses of each statement, clause by clause -/

/-- The same state with this step scheduled. -/
def sched (x : Txn) (s : State) : State := { s with schedule := [x] }

theorem test_witness_DecodingAnEncodingGivesItBack :
    (wellFormed strict (.noteOn 15#4 127#8 127#8) = true ∧ onMidiPath (.noteOn 15#4 127#8 127#8) = true ∧
      ∀ t ch d1, Instr.noteOn 15#4 127#8 127#8 ≠ .wait t ch d1) ∧
      wellFormed strict (.wait .noteOff 0#4 (some 255#8)) = true ∧
      onMidiPath (.wait .noteOff 0#4 (some 255#8)) = true ∧
      wellFormed strict (.rawSample 255#8 0#8) = true :=
  ⟨⟨by decide, by decide, by intro _ _ _ h; cases h⟩, by decide, by decide, by decide⟩

theorem test_witness_DecodedInstructionsAreWellFormedPrefixes :
    decodeMidi strict [0x90#8, 0xFF#8, 0x01#8, 0x02#8] = .ok (.dropBadData .noteOn 0#4 0xFF#8 0x01#8) := by decide

theorem test_witness_ParsedEventsKeepTheirRanges :
    (parse strict [0x90#8, 0xFF#8, 0x00#8]).1 = none ∧
      (parse strict [0x9F#8, 0x7F#8, 0x7F#8]).1 = some (.noteOn 15#4 127#8 127#8) ∧
      (parse strict [0x90#8, 0x7F#8, 0x00#8]).1 = some (.noteOff 0#4 127#8) ∧
      (parse strict [0xB0#8, 0x7F#8, 0x7F#8]).1 = some (.controlChange 0#4 127#8 127#8) ∧
      (parse strict [0xC0#8, 0x7F#8]).1 = some (.programChange 0#4 127#8) := by decide

theorem test_witness_ParserResynchronizesOnValidFrames :
    strict.dataCheck = .strict ∧ [Instr.noteOff 0#4 127#8 0#8, .prog 15#4 0#8] ≠ [] ∧
      ∀ i ∈ [Instr.noteOff 0#4 127#8 0#8, .prog 15#4 0#8], isFrame strict i = true ∧ wellFormed strict i = true := by
  decide

theorem test_witness_EveryAdmittedStepAnswersNext :
    configAdmitted State.reset.cfg = true ∧
      configAdmitted { Config.reference with attackSamples := 0 } = false := by decide

theorem test_witness_StepRunsTheScheduledInstruction :
    configAdmitted (sched .stop State.reset).cfg = true ∧ (sched .stop State.reset).schedule = .stop :: [] ∧
      configAdmitted State.reset.cfg = true ∧ State.reset.schedule = [] := by decide

theorem test_witness_StepRunsTheDecodedInstruction :
    let s := sched .parseApply (midi [0xC0#8, 0x01#8])
    (configAdmitted s.cfg = true ∧ s.schedule = .parseApply :: [] ∧ s.mode = .midi ∧ s.runState = .running ∧
      s.ing = .parse ∧ decodeMidi s.cfg s.pbuf = .ok (.prog 0#4 1#8) ∧
      wellFormed s.cfg (.prog 0#4 1#8) = true) ∧
      s.cfg.dataCheck = .strict ∧ s.cfg.ccVolume = 7#7 ∧ s.cfg.ccPanic = 123#7 ∧
      decodeTableWord 16 0xC001 = some (.prog 0#4 1#8) := by decide

theorem test_witness_DisabledStepsChangeNothing :
    (midi []).runState ≠ .init ∧ State.reset.runState ≠ .probing ∧
      (probing (List.replicate 50 0#8)).cfg.probeMax ≤ (probing (List.replicate 50 0#8)).probeBuf.length ∧
      ((probing []).probeBuf.length ≠ (probing []).cfg.probeMax ∧ (probing []).windowExpired = false) ∧
      State.reset.runState ≠ .starting ∧ (midi []).ing ≠ .read ∧ State.reset.ing ≠ .parse ∧
      State.reset.sinkOpen = false ∧ State.reset.runState ≠ .running ∧
      { State.reset with runState := .stopped }.runState = .stopped := by decide

theorem test_witness_TerminalStatesNeverMove :
    { State.reset with runState := .stopped }.runState = .stopped ∧
      { State.reset with runState := .failed }.runState = .failed ∧ configAdmitted State.reset.cfg = true ∧
      State.reset.runState ≠ .stopped ∧ State.reset.runState ≠ .failed := by decide

/-- The hypotheses that every statement about a frame or PARSE_APPLY shares. -/
theorem test_witness_parse_phase :
    (midi []).mode = .midi ∧ (midi []).runState = .running ∧ (midi []).ing = .parse ∧
      (midi []).cfg.ccPanic ≠ (midi []).cfg.ccVolume := by decide

theorem test_witness_NoteOnStartsTheRightSlot :
    (let s := { midi [] with voices := [held 60#8 .sustain fONE, Voice.reset, held 1#8 .attack fONE] };
      s.mode = .midi ∧ s.runState = .running ∧ s.ing = .parse ∧
      s.voices = [held 60#8 .sustain fONE] ++ Voice.reset :: [held 1#8 .attack fONE] ∧
        (∀ u ∈ [held 60#8 .sustain fONE], u.active = true) ∧ Voice.reset.active = false) ∧
      (let s := { midi [] with voices := [held 60#8 .release fONE, held 61#8 .attack fONE] };
        s.mode = .midi ∧ s.runState = .running ∧ s.ing = .parse ∧
        s.voices = held 60#8 .release fONE :: [held 61#8 .attack fONE] ∧
          ∀ u ∈ s.voices, u.active = true) := by decide +kernel

theorem test_witness_SilentRowsOnlyMoveTheBuffer :
    wellFormed (midi []).cfg (.ccOther 0#4 6#8 127#8) = true ∧
      wellFormed (midi []).cfg (.ccOther 0#4 122#8 0#8) = true := by decide

theorem test_witness_ParseApplyIsOneParseAndItsEvent :
    (parse (midi [0x90#8]).cfg (midi [0x90#8]).pbuf).2 = 0 ∧
      (parse (midi [0xF8#8]).cfg (midi [0xF8#8]).pbuf).2 ≠ 0 ∧
      (parse (midi [0xF8#8]).cfg (midi [0xF8#8]).pbuf).1 = none ∧
      (parse (midi [0xC0#8, 1#8]).cfg (midi [0xC0#8, 1#8]).pbuf).1 = some (.programChange 0#4 1#8) := by
  decide

theorem test_witness_LinkReadsAppendLinkBytes :
    (let s := { midi [] with ing := .read, readDraws := [.ok 17] };
      (nextRead s).1 = .ok 17 ∧ s.mode = .midi ∧ s.runState = .running ∧ s.ing = .read) ∧
      (let s := { probing (List.replicate 49 0#8) with readDraws := [.ok 2] };
        (nextRead s).1 = .ok 2 ∧ s.runState = .probing ∧ s.probeBuf.length < s.cfg.probeMax ∧
          s.windowExpired = false) := by decide

theorem test_witness_LinkErrorEndsTheRun :
    (let s := { midi [] with ing := .read, readDraws := [.err] };
      (nextRead s).1 = .err ∧ s.mode = .midi ∧ s.runState = .running ∧ s.ing = .read) ∧
      (let s := { probing [] with readDraws := [.err] };
        (nextRead s).1 = .err ∧ s.runState = .probing ∧ s.probeBuf.length < s.cfg.probeMax ∧
          s.windowExpired = false) := by decide

theorem test_witness_TwoFramesMakeTheProbeMidi :
    Config.reference.midiPatternMin ≤ 2 ∧ strict.dataCheck = .strict ∧ wellFormed strict (.noteOnV0 0#4 127#8) = true ∧
      isFrame strict (.noteOnV0 0#4 127#8) = true ∧ (encode strict (.noteOnV0 0#4 127#8)).length = 3 ∧
      wellFormed strict (.ccPanic 15#4 0#8) = true ∧ isFrame strict (.ccPanic 15#4 0#8) = true ∧
      (encode strict (.ccPanic 15#4 0#8)).length = 3 := by decide

theorem test_witness_ProbeEndsInOneDecision :
    (probing []).runState = .probing ∧ (probing []).windowExpired = false ∧
      (probing (List.replicate 50 0#8)).probeBuf.length = (probing (List.replicate 50 0#8)).cfg.probeMax ∧
      { probing [] with windowExpired := true }.windowExpired = true := by decide

theorem test_witness_LinkOpenFollowsForceMode :
    { State.reset with openDraws := [.ok] }.runState = .init ∧
      (nextOpen { State.reset with openDraws := [.ok] }).1 = .ok := by decide

theorem test_witness_SinkOpenStartsTheRun :
    (∀ m, { starting m with openDraws := [.ok] }.runState = .starting ∧
      (nextOpen { starting m with openDraws := [.ok] }).1 = .ok) ∧
      (starting .midi).mode = .midi ∧ (starting .rawAudio).mode = .rawAudio :=
  ⟨fun _ => ⟨rfl, rfl⟩, rfl, rfl⟩

theorem test_witness_OpenFailureEndsTheRun :
    (nextOpen { State.reset with openDraws := [.fail] }).1 = .fail ∧ State.reset.runState = .init ∧
      (nextOpen { starting .midi with openDraws := [.fail] }).1 = .fail ∧
      (starting .midi).runState = .starting := by decide

theorem test_witness_StopAndSinkFaultEndTheRun :
    State.reset.runState ≠ .stopped ∧ State.reset.runState ≠ .failed ∧ (midi []).runState = .running := by decide

theorem test_witness_FatalStepsArePrecise :
    let s := sched .sinkFault (midi [])
    s.rawBlock = [] ∧ s.runState ≠ .failed ∧ ∃ t, step s = .next t ∧ t.runState = .failed :=
  ⟨by decide, by decide, _, rfl, by decide⟩

/-- A slot in its release, for one clause or the other of the sample. -/
def releasing (env rsl : F64) : Voice := { held 69#8 .release env with rsl := rsl }

theorem test_witness_SampleFollowsTheEnvelope :
    let up := fun v : Voice => fadd v.env (fdiv fONE (i2f (Config.reference.attackSamples : Int)))
    let down := fun v : Voice => fsub v.env (fdiv v.rsl (i2f (Config.reference.releaseSamples : Int)))
    ((held 69#8 .attack fONE).est = .attack ∧ fle fONE (up (held 69#8 .attack fONE)) = true) ∧
      ((held 69#8 .attack fZERO).est = .attack ∧ fle fONE (up (held 69#8 .attack fZERO)) = false) ∧
      (held 69#8 .sustain fONE).est = .sustain ∧
      ((releasing fZERO fONE).est = .release ∧ fle (down (releasing fZERO fONE)) fZERO = true) ∧
      ((releasing fONE fONE).est = .release ∧ fle (down (releasing fONE fONE)) fZERO = false) := by decide +kernel

theorem test_witness_VoiceBlockRunsItsSamples :
    Voice.reset.active = false ∧ fle Voice.reset.env fZERO = true ∧ (held 69#8 .attack fZERO).active = true := by
  decide

theorem test_witness_VoiceOutputStaysWithinHeadroom :
    configAdmitted Config.reference = true ∧ levelsInRange Config.reference = true ∧ voiceSafe .strict (held 127#8 .attack fONE) = true := by decide +kernel

theorem test_witness_ReleaseNeverRaisesTheEnvelope :
    configAdmitted Config.reference = true ∧ voiceSafe .none (releasing fONE fONE) = true ∧
      (releasing fONE fONE).est = .release := by decide +kernel

/-- The hypotheses of the statements about GENERATE. -/
theorem test_witness_generate :
    (midi []).mode = .midi ∧ (midi []).runState = .running ∧ (midi []).sinkOpen = true ∧
      (midi []).ing = .parse ∧ (midi []).cfg.ccPanic ≠ (midi []).cfg.ccVolume ∧ isFinite (midi []).volume = true := by decide

theorem test_witness_RawSampleAssemblesAndFilters :
    (raw [] []).mode = .rawAudio ∧ (raw [] []).runState = .running ∧ (raw [] []).sinkOpen = true ∧
      decodeRaw [0x00#8, 0x7D#8] = .ok (.rawSample 0x00#8 0x7D#8) := by decide

theorem test_witness_RawStepWritesTheUpsampledBlock :
    let s := raw [1#8, 2#8, 3#8, 4#8, 5#8, 6#8, 7#8, 8#8, 9#8] [.ok 2, .ok 2, .ok 2, .ok 2, .err]
    let pairs := [(1#8, 2#8), (3#8, 4#8), (5#8, 6#8), (7#8, 8#8)]
    s.mode = .rawAudio ∧ s.runState = .running ∧ s.sinkOpen = true ∧ pairs.length = s.cfg.blockSamples ∧
      s.link.bytes = pairs.flatMap (fun p => [p.1, p.2]) ++ [9#8] ∧
      s.readDraws = List.replicate s.cfg.blockSamples (.ok 2) ++ [.err] := by decide

/-- Full, short and cut draws, on a link that ends within the block. -/
theorem test_witness_RawStepWritesTheUpsampledBlock_mixed :
    let s := raw [1#8, 2#8, 3#8, 4#8, 5#8, 6#8] [.ok 2, .ok 1, .ok 3, .ok 2, .err]
    s.mode = .rawAudio ∧ s.runState = .running ∧ s.sinkOpen = true ∧ [2, 1, 3, 2].length = s.cfg.blockSamples ∧
      s.readDraws = [2, 1, 3, 2].map .ok ++ [.err] := by decide

theorem test_witness_ShortReadsGiveSilence :
    let s := raw [1#8] [.ok 0, .ok 1, .ok 1, .ok 0, .err]
    s.mode = .rawAudio ∧ s.runState = .running ∧ s.sinkOpen = true ∧
      [ReadDraw.ok 0, .ok 1, .ok 1, .ok 0].length = s.cfg.blockSamples ∧
      (∀ d ∈ [ReadDraw.ok 0, .ok 1, .ok 1, .ok 0], d = .ok 0 ∨ d = .ok 1) ∧
      s.readDraws = [.ok 0, .ok 1, .ok 1, .ok 0] ++ [.err] := by decide

theorem test_witness_RawLinkErrorWritesNoBlock :
    let s := raw [1#8, 2#8] [.ok 2, .ok 1, .ok 0, .err]
    s.mode = .rawAudio ∧ s.runState = .running ∧ s.sinkOpen = true ∧ [2, 1, 0].length < s.cfg.blockSamples ∧
      s.readDraws = [2, 1, 0].map .ok ++ .err :: [] := by decide

theorem test_witness_UpsampleKeepsLengthAndSamples : 1 < [(7 : Sample), -8].length ∧ 1 ≤ 3 := by decide

theorem test_witness_UpsampleInterpolatesLinearly :
    2 ≤ [(7 : Sample), -8].length ∧ 1 ≤ 3 ∧ 0 + 1 < [(7 : Sample), -8].length ∧ 2 < 3 ∧
      4 + 1 < [(7 : Sample), -8].length * 3 := by decide

theorem test_witness_RawBlocksStayWithinTheNoiseLimit :
    ∃ t, exec .rawStep (raw [] [.ok 0, .ok 0, .ok 0, .ok 0]) = .next t := ⟨_, rfl⟩

/-- The hypotheses of the statements about every step: the invariants hold, and the step answers. -/
theorem test_witness_every_step :
    (let s := sched (.generate 1) (midi []);
      runInv s = true ∧ bufferInv s = true ∧ (levelsInRange s.cfg = true ∧ poolInv s = true) ∧ (∀ b ∈ s.sink, ∀ x ∈ b, isI16 x = true) ∧
        s.mode ≠ .undecided ∧ ∃ t, step s = .next t) ∧
      ∃ t, exec (txnInstr .stop) (midi []) = .next t :=
  ⟨⟨by decide, by decide, by decide +kernel, by decide, by decide, _, rfl⟩, _, rfl⟩

theorem test_witness_RawRunsLeaveThePoolAlone :
    runInv (raw [] []) = true ∧ (raw [] []).mode = .rawAudio := by decide

end Sys2Proof.Tests
end

section
/-! What one parse answers, from the three outcomes of the decoder behind a status byte (41_parser.md R161, R169,
R170): a parse that consumes nothing has met a residue, and the operands of an event have passed the data check. -/

namespace Sys2Proof

/-- Behind a status byte the decoder waits for missing bytes, drops bad data, or gives the frame of two bytes that
pass the data check (for a ProgramChange the second is the 0 it does not have). -/
theorem decodeFrame_cases (cfg : Config) (t : FrameType) (ch : Nibble) (rest : List Byte) :
    (rest.length + 1 < frameLength t ∧ ∃ d1, decodeFrame cfg t ch rest = .wait t ch d1) ∨
      (∃ d1 d2, decodeFrame cfg t ch rest = .dropBadData t ch d1 d2) ∨
      ∃ d1 d2, badData cfg.dataCheck d1 = false ∧ badData cfg.dataCheck d2 = false ∧
        decodeFrame cfg t ch rest = frameOf cfg t ch d1 d2 := by
  have hzero : badData cfg.dataCheck 0#8 = false := by cases cfg.dataCheck <;> decide
  unfold decodeFrame
  split
  · exact .inl ⟨by decide, _, rfl⟩
  · split
    · exact .inr (.inl ⟨_, _, rfl⟩)
    · rename_i hgood
      exact .inr (.inr ⟨_, _, by simpa using hgood, hzero, rfl⟩)
  · exact .inl ⟨by cases t <;> decide, _, rfl⟩
  · rename_i hprog
    exact .inl ⟨by cases t <;> simp_all [frameLength], _, rfl⟩
  · split
    · exact .inr (.inl ⟨_, _, rfl⟩)
    · rename_i hgood
      rw [Bool.or_eq_true, not_or, Bool.not_eq_true, Bool.not_eq_true] at hgood
      exact .inr (.inr ⟨_, _, hgood.1, hgood.2, rfl⟩)

theorem frameLength_cases (t : FrameType) : frameLength t = 2 ∨ frameLength t = 3 := by
  cases t <;> decide

theorem consumedBy_frameOf_pos (cfg : Config) (t : FrameType) (ch : Nibble) (d1 d2 : Byte) :
    0 < consumedBy (frameOf cfg t ch d1 d2) := by
  cases t with
  | noteOff => exact Nat.succ_pos _
  | noteOn => simp only [frameOf]; split <;> exact Nat.succ_pos _
  | controlChange => simp only [frameOf]; (repeat' split) <;> exact Nat.succ_pos _
  | programChange => exact Nat.succ_pos _

/-- The data bytes an event carries (R161). -/
def eventData (ev : MidiEvent) : List Byte :=
  match ev with
  | .noteOn _ note vel => [note, vel]
  | .noteOff _ note => [note]
  | .controlChange _ controller value => [controller, value]
  | .programChange _ program => [program]

/-- The event of a frame carries no byte but the frame's own. -/
theorem eventData_frameOf {cfg : Config} {t : FrameType} {ch : Nibble} {d1 d2 : Byte} {ev : MidiEvent}
    (h : eventOf cfg (frameOf cfg t ch d1 d2) = some ev) : ∀ d ∈ eventData ev, d = d1 ∨ d = d2 := by
  cases t with
  | noteOff => cases h; simp [eventData]
  | noteOn => simp only [frameOf] at h; split at h <;> cases h <;> simp [eventData]
  | controlChange =>
    simp only [frameOf] at h
    split at h
    · rename_i hvolume; cases h; simp [eventData, hvolume]
    · split at h
      · rename_i hpanic; cases h; simp [eventData, hpanic]
      · cases h; simp [eventData]
  | programChange => cases h; simp [eventData]

/-- Every data byte of a parsed event has passed the data check (R170). -/
theorem eventData_of_parse {cfg : Config} {bs : List Byte} {ev : MidiEvent} (h : (parse cfg bs).1 = some ev) :
    ∀ d ∈ eventData ev, badData cfg.dataCheck d = false := by
  cases bs with
  | nil => cases h
  | cons b rest =>
    cases hf : frameTypeOf (highNibble b) with
    | none => simp [parse, decodeMidi, hf, dropOf_parse] at h
    | some t =>
      simp only [parse, decodeMidi, hf] at h
      rcases decodeFrame_cases cfg t (lowNibble b) rest with
        ⟨-, d1, hw⟩ | ⟨d1, d2, hd⟩ | ⟨d1, d2, h1, h2, hfr⟩
      · rw [hw] at h; cases h
      · rw [hd] at h; cases h
      · rw [hfr] at h
        intro d hmem
        rcases eventData_frameOf h d hmem with rfl | rfl
        · exact h1
        · exact h2

end Sys2Proof

namespace Sys2Proof.Machine

/-- A parse that consumes nothing has met what a parse run leaves behind (R169, R172). -/
theorem isResidue_of_parse_zero {cfg : Config} {bs : List Byte} (h : (parse cfg bs).2 = 0) :
    isResidue bs = true := by
  cases bs with
  | nil => rfl
  | cons b rest =>
    cases hf : frameTypeOf (highNibble b) with
    | none => simp [parse, decodeMidi, hf, (dropOf_parse cfg b).2] at h
    | some t =>
      simp only [parse, decodeMidi, hf] at h
      rcases decodeFrame_cases cfg t (lowNibble b) rest with
        ⟨hshort, -⟩ | ⟨d1, d2, hd⟩ | ⟨d1, d2, -, -, hfr⟩
      · have hlen := frameLength_cases t
        match rest with
        | [] => simp [isResidue, hf]
        | [d] =>
          simp only [List.length_singleton] at hshort
          simp only [isResidue, hf, beq_iff_eq]
          omega
        | _ :: _ :: _ => simp only [List.length_cons] at hshort; omega
      · rw [hd] at h; cases h
      · rw [hfr] at h
        exact absurd h (consumedBy_frameOf_pos cfg t (lowNibble b) d1 d2).ne'

/-- A residue is at most two bytes long (R46, R172). -/
theorem length_le_two_of_isResidue {bs : List Byte} (h : isResidue bs = true) : bs.length ≤ 2 := by
  match bs with
  | [] | [_] | [_, _] => simp
  | _ :: _ :: _ :: _ => cases h

end Sys2Proof.Machine
end

section
/-! What the run control says of MODE before it is decided, and what the opens and the end of a RAW_STEP write. -/

namespace Sys2Proof.Machine

theorem mode_of_init {s : State} (h : runInv s = true) (hr : s.runState = .init) : s.mode = .undecided := by
  simp only [runInv, hr, Bool.and_eq_true, beq_iff_eq] at h
  obtain ⟨⟨⟨⟨⟨hmode, -⟩, -⟩, -⟩, -⟩, -⟩ := h
  exact hmode

theorem mode_of_probing {s : State} (h : runInv s = true) (hr : s.runState = .probing) : s.mode = .undecided := by
  simp only [runInv, hr, Bool.and_eq_true, beq_iff_eq] at h
  obtain ⟨⟨⟨⟨hmode, -⟩, -⟩, -⟩, -⟩ := h
  exact hmode

/-- A successful open of the link writes LINK_OPEN, MODE and RUN_STATE alone (R342). -/
theorem linkOpened_spec (s : State) :
    ∃ m r, linkOpened s = { s with linkOpen := true, mode := m, runState := r } := by
  unfold linkOpened
  split
  · exact ⟨s.mode, .probing, rfl⟩
  · exact ⟨.midi, .starting, rfl⟩
  · exact ⟨.rawAudio, .starting, rfl⟩

/-- A RAW_STEP that runs writes the link, the draws, the counter and the sink, or it ends the run; the block in
progress is gone either way (R48, R270, R305). -/
theorem rawStep_spec {s t : State} (h : exec .rawStep s = .next t) :
    t = s ∨ ∃ l d o, (∃ b, t = { s with link := l, readDraws := d, oracle := o, rawBlock := [], sink := b }) ∨
      t = fatal causeLinkError { s with link := l, readDraws := d, oracle := o, rawBlock := [] } := by
  rcases rawStep_cases h with rfl | ⟨-, -, -, s1, hs1⟩
  · exact .inl rfl
  · obtain ⟨l, d, o, b, hslots, -, -⟩ := rawSlots_spec s.cfg.blockSamples { s with rawBlock := [] }
    refine .inr ⟨l, d, o, ?_⟩
    rcases hs1 with ⟨hrun, rfl⟩ | ⟨hrun, rfl⟩ <;> rw [hrun] at hslots <;> cases hslots
    · exact .inr rfl
    · exact .inl ⟨_, rfl⟩

end Sys2Proof.Machine
end

section
/-! O52: every step keeps `bufferInv` (10_state.md R45 to R48). Its clauses are taken apart once, as `BuffersSafe`; a
step that only moves other fields keeps them by `BuffersSafe.of_same`, and the five steps that write PBUF, ING,
PROBE_BUF or MODE have one lemma each. -/

namespace Sys2Proof.Machine

/-- The clauses of `bufferInv`, by name. -/
structure BuffersSafe (s : State) : Prop where
  probe_le : s.probeBuf.length ≤ s.cfg.probeMax
  probe_life : s.probeBuf = [] ∨ s.mode = .undecided ∧ s.runState ≠ .init
  pbuf_le : s.pbuf.length ≤ 2 + s.cfg.readChunk
  residue : s.ing = .parse ∨ isResidue s.pbuf = true
  off_midi : s.mode = .midi ∨ s.pbuf = [] ∧ s.ing = .read
  raw_nil : s.rawBlock = []

theorem bufferInv_iff (s : State) : bufferInv s = true ↔ BuffersSafe s := by
  simp only [bufferInv, Bool.and_eq_true, Bool.or_eq_true, decide_eq_true_eq, beq_iff_eq, bne_iff_ne]
  exact ⟨fun ⟨⟨⟨⟨⟨h1, h2⟩, h3⟩, h4⟩, h5⟩, h6⟩ => ⟨h1, h2, h3, h4, h5, h6⟩,
    fun ⟨h1, h2, h3, h4, h5, h6⟩ => ⟨⟨⟨⟨⟨h1, h2⟩, h3⟩, h4⟩, h5⟩, h6⟩⟩

/-- What `t` shares with `s` when the step between them is none of the buffers' writers. -/
structure SameBuffers (s t : State) : Prop where
  cfg : t.cfg = s.cfg
  mode : t.mode = s.mode
  pbuf : t.pbuf = s.pbuf
  ing : t.ing = s.ing
  probeBuf : t.probeBuf = s.probeBuf
  rawBlock : s.rawBlock = [] → t.rawBlock = []
  runState : t.runState = .init → s.runState = .init

theorem SameBuffers.refl (s : State) : SameBuffers s s := ⟨rfl, rfl, rfl, rfl, rfl, id, id⟩

theorem SameBuffers.fatal (c : Byte) {s t : State} (h : SameBuffers s t) : SameBuffers s (fatal c t) := by
  obtain ⟨h1, h2, h3, h4, h5, h6, -⟩ := h
  constructor <;> simp_all

theorem BuffersSafe.of_same {s t : State} (h : BuffersSafe s) (ht : SameBuffers s t) : BuffersSafe t where
  probe_le := by rw [ht.probeBuf, ht.cfg]; exact h.probe_le
  probe_life := by
    rw [ht.probeBuf, ht.mode]
    exact h.probe_life.imp_right fun hp => ⟨hp.1, mt ht.runState hp.2⟩
  pbuf_le := by rw [ht.pbuf, ht.cfg]; exact h.pbuf_le
  residue := by rw [ht.ing, ht.pbuf]; exact h.residue
  off_midi := by rw [ht.mode, ht.pbuf, ht.ing]; exact h.off_midi
  raw_nil := ht.rawBlock h.raw_nil

/-- As long as MODE is undecided nothing has been ingested (R283). -/
theorem BuffersSafe.pbuf_of_undecided {s : State} (h : BuffersSafe s) (hm : s.mode = .undecided) :
    s.pbuf = [] ∧ s.ing = .read := h.off_midi.resolve_left (by simp [hm])

theorem sinkOpen_sameBuffers {s t : State} (h : exec .sinkOpen s = .next t) : SameBuffers s t := by
  rcases sinkOpen_cases h with rfl | ⟨-, d, o, rfl | rfl⟩
  · exact .refl _
  · constructor <;> simp [sinkOpened]
  · exact .fatal _ ⟨rfl, rfl, rfl, rfl, rfl, id, id⟩

theorem windowExpire_sameBuffers {s t : State} (h : exec .windowExpire s = .next t) : SameBuffers s t := by
  rcases windowExpire_cases h with rfl | ⟨-, -, rfl⟩
  · exact .refl _
  · exact ⟨rfl, rfl, rfl, rfl, rfl, id, id⟩

theorem generate_sameBuffers {n : Nat} {s t : State} (h : exec (.generate n) s = .next t) : SameBuffers s t := by
  rcases generate_cases h with rfl | ⟨-, -, -, rfl⟩
  · exact .refl _
  · exact ⟨rfl, rfl, rfl, rfl, rfl, id, id⟩

theorem rawStep_sameBuffers {s t : State} (h : exec .rawStep s = .next t) : SameBuffers s t := by
  rcases rawStep_spec h with rfl | ⟨l, d, o, ⟨b, rfl⟩ | rfl⟩
  · exact .refl _
  · exact ⟨rfl, rfl, rfl, rfl, rfl, fun _ => rfl, id⟩
  · exact .fatal _ ⟨rfl, rfl, rfl, rfl, rfl, fun _ => rfl, id⟩

theorem stop_sameBuffers {s t : State} (h : exec .stop s = .next t) : SameBuffers s t := by
  rcases stop_cases h with rfl | ⟨-, -, rfl⟩
  · exact .refl _
  · constructor <;> simp

theorem sinkFault_sameBuffers {s t : State} (h : exec .sinkFault s = .next t) : SameBuffers s t := by
  rcases sinkFault_cases h with rfl | ⟨-, rfl⟩
  · exact .refl _
  · exact .fatal _ (.refl _)

/-- LINK_OPEN may decide MODE, in INIT, where every buffer is still empty (R342). -/
theorem linkOpen_keeps_buffers {s t : State} (hr : runInv s = true) (hb : BuffersSafe s)
    (h : exec .linkOpen s = .next t) : BuffersSafe t := by
  rcases linkOpen_cases h with rfl | ⟨hinit, d, o, rfl | rfl⟩
  · exact hb
  · obtain ⟨m, r, hopened⟩ := linkOpened_spec (record .openLink { s with openDraws := d, oracle := o })
    have hprobe : s.probeBuf = [] := hb.probe_life.resolve_right fun hp => hp.2 hinit
    rw [hopened]
    exact { hb with
      probe_life := .inl hprobe
      off_midi := .inr (hb.pbuf_of_undecided (mode_of_init hr hinit)) }
  · exact hb.of_same (.fatal _ ⟨rfl, rfl, rfl, rfl, rfl, id, id⟩)

/-- PROBE_READ asks for no more than PROBE_BUF has room for (R47, R140). -/
theorem probeRead_keeps_buffers {s t : State} (hr : runInv s = true) (hb : BuffersSafe s)
    (h : exec .probeRead s = .next t) : BuffersSafe t := by
  rcases probeRead_cases h with rfl | ⟨hprobing, hroom, -, l, d, o, ⟨rfl, -⟩ | ⟨k, hk, -, rfl⟩⟩
  · exact hb
  · exact hb.of_same (.fatal _ ⟨rfl, rfl, rfl, rfl, rfl, id, id⟩)
  · have htake := Link.take_length_le s.link k
    exact { hb with
      probe_le := by simp only [List.length_append]; omega
      probe_life := .inr ⟨mode_of_probing hr hprobing, by simp [hprobing]⟩ }

/-- CLASSIFY decides MODE and ends the life of PROBE_BUF (R47, R147). -/
theorem classify_keeps_buffers {s t : State} (hr : runInv s = true) (hb : BuffersSafe s)
    (h : exec .classify s = .next t) : BuffersSafe t := by
  rcases classify_cases h with rfl | ⟨hprobing, rfl⟩
  · exact hb
  · exact { hb with
      probe_le := Nat.zero_le _
      probe_life := .inl rfl
      off_midi := .inr (hb.pbuf_of_undecided (mode_of_probing hr hprobing)) }

/-- INGEST_READ appends at most READ_CHUNK bytes to a residue (R46, R160). -/
theorem ingestRead_keeps_buffers {s t : State} (hb : BuffersSafe s)
    (h : exec .ingestRead s = .next t) : BuffersSafe t := by
  rcases ingestRead_cases h with rfl | ⟨hmidi, -, hread, l, d, o, ⟨rfl, -⟩ | ⟨k, hk, -, rfl⟩⟩
  · exact hb
  · exact hb.of_same (.fatal _ ⟨rfl, rfl, rfl, rfl, rfl, id, id⟩)
  · have hres := length_le_two_of_isResidue (hb.residue.resolve_left (by simp [hread]))
    have htake := Link.take_length_le s.link k
    exact { hb with
      pbuf_le := by simp only [List.length_append]; omega
      residue := .inl rfl
      off_midi := .inl hmidi }

/-- PARSE_APPLY takes bytes off PBUF, or goes back to reading with a residue in it (R162, R172). -/
theorem parseApply_keeps_buffers {s t : State} (hb : BuffersSafe s)
    (h : exec .parseApply s = .next t) : BuffersSafe t := by
  rcases parseApply_cases h with rfl | ⟨hmidi, -, hparse, ⟨hzero, rfl⟩ | ⟨-, rfl⟩⟩
  · exact hb
  · exact { hb with
      residue := .inr (isResidue_of_parse_zero hzero)
      off_midi := .inl hmidi }
  · have hconsumed : BuffersSafe (consume (parse s.cfg s.pbuf).2 s) := { hb with
      pbuf_le := by
        have := hb.pbuf_le
        simp only [consume_pbuf, consume_cfg, List.length_drop]
        omega
      residue := .inl hparse
      off_midi := .inl hmidi }
    cases (parse s.cfg s.pbuf).1 with
    | none => exact hconsumed
    | some ev =>
      simp only [Option.elim_some]
      rw [emit_spec]
      exact hconsumed.of_same ⟨rfl, rfl, rfl, rfl, rfl, id, id⟩

theorem exec_keeps_buffers (x : Txn) {s t : State} (hr : runInv s = true) (hb : BuffersSafe s)
    (h : exec (txnInstr x) s = .next t) : BuffersSafe t := by
  cases x with
  | linkOpen => exact linkOpen_keeps_buffers hr hb h
  | probeRead => exact probeRead_keeps_buffers hr hb h
  | windowExpire => exact hb.of_same (windowExpire_sameBuffers h)
  | classify => exact classify_keeps_buffers hr hb h
  | sinkOpen => exact hb.of_same (sinkOpen_sameBuffers h)
  | ingestRead => exact ingestRead_keeps_buffers hb h
  | parseApply => exact parseApply_keeps_buffers hb h
  | generate n => exact hb.of_same (generate_sameBuffers h)
  | rawStep => exact hb.of_same (rawStep_sameBuffers h)
  | stop => exact hb.of_same (stop_sameBuffers h)
  | sinkFault => exact hb.of_same (sinkFault_sameBuffers h)

/-- Settles O52: the scheduler's choice touches no buffer, and each transaction keeps the buffers safe. -/
theorem stepKeepsTheBuffers : Obligations.StepKeepsTheBuffers := by
  intro s t hr hb hstep
  obtain ⟨-, x, sch, o, hexec⟩ := step_cases hstep
  rw [bufferInv_iff] at hb ⊢
  exact exec_keeps_buffers (s := { s with schedule := sch, oracle := o }) x hr
    (hb.of_same ⟨rfl, rfl, rfl, rfl, rfl, id, id⟩) hexec

end Sys2Proof.Machine
end

section
/-! O53: every step keeps `poolInv` (10_state.md R33 to R35, 44_raw_resampler.md R283). PARSE_APPLY and GENERATE alone
write the pool, and both run on the MIDI path; every other step keeps the clauses by `PoolSafe.of_same`. -/

namespace Sys2Proof.Machine

/-- The clauses of `poolInv`, by name. -/
structure PoolSafe (s : State) : Prop where
  slots : s.voices.length = s.cfg.maxVoices
  legal : ∀ v ∈ s.voices, voiceSafe s.cfg.dataCheck v = true
  volume : volumeSafe s = true
  off_midi : s.mode = .midi ∨
    s.voices = List.replicate s.cfg.maxVoices Voice.reset ∧ s.volume = s.cfg.volumeReset

theorem poolInv_iff (s : State) : poolInv s = true ↔ PoolSafe s := by
  simp only [poolInv, Bool.and_eq_true, Bool.or_eq_true, decide_eq_true_eq, beq_iff_eq, List.all_eq_true]
  exact ⟨fun ⟨⟨⟨h1, h2⟩, h3⟩, h4⟩ => ⟨h1, h2, h3, h4⟩, fun ⟨h1, h2, h3, h4⟩ => ⟨⟨⟨h1, h2⟩, h3⟩, h4⟩⟩

/-- What `t` shares with `s` when the step between them is none of the pool's writers. -/
structure SamePool (s t : State) : Prop where
  cfg : t.cfg = s.cfg
  voices : t.voices = s.voices
  volume : t.volume = s.volume
  mode : s.mode = .midi → t.mode = .midi

theorem SamePool.refl (s : State) : SamePool s s := ⟨rfl, rfl, rfl, id⟩

theorem SamePool.fatal (c : Byte) {s t : State} (h : SamePool s t) : SamePool s (fatal c t) := by
  obtain ⟨h1, h2, h3, h4⟩ := h
  exact ⟨by simpa, by simpa, by simpa, by simpa⟩

theorem PoolSafe.of_same {s t : State} (h : PoolSafe s) (ht : SamePool s t) : PoolSafe t where
  slots := by rw [ht.voices, ht.cfg]; exact h.slots
  legal := by rw [ht.voices, ht.cfg]; exact h.legal
  volume := by simpa only [volumeSafe, ht.volume, ht.cfg] using h.volume
  off_midi := by rw [ht.voices, ht.volume, ht.cfg]; exact h.off_midi.imp_left ht.mode

/-- A transaction that neither parses nor generates leaves the pool alone, and never leaves the MIDI path
(R85, R149). -/
theorem exec_samePool {x : Txn} {s t : State} (hparse : x ≠ .parseApply) (hgen : ∀ n, x ≠ .generate n)
    (hr : runInv s = true) (h : exec (txnInstr x) s = .next t) : SamePool s t := by
  cases x with
  | linkOpen =>
    rcases linkOpen_cases h with rfl | ⟨hinit, d, o, rfl | rfl⟩
    · exact .refl _
    · obtain ⟨m, r, hopened⟩ := linkOpened_spec (record .openLink { s with openDraws := d, oracle := o })
      rw [hopened]
      exact ⟨rfl, rfl, rfl, fun hmidi => by simp [mode_of_init hr hinit] at hmidi⟩
    · exact .fatal _ ⟨rfl, rfl, rfl, id⟩
  | probeRead =>
    rcases probeRead_cases h with rfl | ⟨-, -, -, l, d, o, ⟨rfl, -⟩ | ⟨k, -, -, rfl⟩⟩
    · exact .refl _
    · exact .fatal _ ⟨rfl, rfl, rfl, id⟩
    · exact ⟨rfl, rfl, rfl, id⟩
  | windowExpire =>
    rcases windowExpire_cases h with rfl | ⟨-, -, rfl⟩
    · exact .refl _
    · exact ⟨rfl, rfl, rfl, id⟩
  | classify =>
    rcases classify_cases h with rfl | ⟨hprobing, rfl⟩
    · exact .refl _
    · exact ⟨rfl, rfl, rfl, fun hmidi => by simp [mode_of_probing hr hprobing] at hmidi⟩
  | sinkOpen =>
    rcases sinkOpen_cases h with rfl | ⟨-, d, o, rfl | rfl⟩
    · exact .refl _
    · exact ⟨rfl, rfl, rfl, id⟩
    · exact .fatal _ ⟨rfl, rfl, rfl, id⟩
  | ingestRead =>
    rcases ingestRead_cases h with rfl | ⟨-, -, -, l, d, o, ⟨rfl, -⟩ | ⟨k, -, -, rfl⟩⟩
    · exact .refl _
    · exact .fatal _ ⟨rfl, rfl, rfl, id⟩
    · exact ⟨rfl, rfl, rfl, id⟩
  | parseApply => exact absurd rfl hparse
  | generate n => exact absurd rfl (hgen n)
  | rawStep =>
    rcases rawStep_spec h with rfl | ⟨l, d, o, ⟨b, rfl⟩ | rfl⟩
    · exact .refl _
    · exact ⟨rfl, rfl, rfl, id⟩
    · exact .fatal _ ⟨rfl, rfl, rfl, id⟩
  | stop =>
    rcases stop_cases h with rfl | ⟨-, -, rfl⟩
    · exact .refl _
    · constructor <;> simp
  | sinkFault =>
    rcases sinkFault_cases h with rfl | ⟨-, rfl⟩
    · exact .refl _
    · exact .fatal _ (.refl _)

/-- A rewrite of one slot that keeps each slot legal keeps them all legal. -/
theorem voiceSafe_modify {dc : DataCheck} {vs : List Voice} {f : Voice → Voice}
    (hf : ∀ v, voiceSafe dc v = true → voiceSafe dc (f v) = true) (i : Nat)
    (h : ∀ v ∈ vs, voiceSafe dc v = true) : ∀ v ∈ vs.modify i f, voiceSafe dc v = true := by
  intro v hv
  obtain ⟨j, hj, rfl⟩ := List.mem_iff_getElem.mp hv
  rw [List.getElem_modify]
  have hslot := h _ (List.getElem_mem (by simpa using hj))
  split
  · exact hf _ hslot
  · exact hslot

theorem voiceSafe_map {dc : DataCheck} {vs : List Voice} {f : Voice → Voice}
    (hf : ∀ v, voiceSafe dc v = true → voiceSafe dc (f v) = true)
    (h : ∀ v ∈ vs, voiceSafe dc v = true) : ∀ v ∈ vs.map f, voiceSafe dc v = true := by
  intro v hv
  obtain ⟨u, hu, rfl⟩ := List.mem_map.mp hv
  exact hf u (h u hu)

/-- An event whose data bytes passed the data check keeps the pool legal on the MIDI path (R230 to R236). -/
theorem emit_keeps_pool {ev : MidiEvent} {s : State} (hmidi : s.mode = .midi)
    (hdata : ∀ d ∈ eventData ev, badData s.cfg.dataCheck d = false) (h : PoolSafe s) : PoolSafe (emit ev s) := by
  cases ev with
  | noteOn ch note vel =>
    have hnote := hdata note (by simp [eventData])
    have hvel := hdata vel (by simp [eventData])
    exact {
      slots := by rw [emit_voices_length]; exact h.slots
      legal := voiceSafe_modify (fun _ => voiceSafe_noteOn hnote hvel) _ h.legal
      volume := h.volume
      off_midi := .inl hmidi }
  | noteOff ch note =>
    exact {
      slots := by rw [emit_voices_length]; exact h.slots
      legal := voiceSafe_map (fun _ => voiceSafe_noteOffSlot note) h.legal
      volume := h.volume
      off_midi := .inl hmidi }
  | controlChange ch controller value =>
    have hvalue := hdata value (by simp [eventData])
    simp only [emit]
    split
    · exact { h with
        volume := by simp only [volumeSafe, setVolume_volume, setVolume_cfg, normalise_range hvalue, Bool.or_true]
        off_midi := .inl hmidi }
    · split
      · exact {
          slots := by simpa using h.slots
          legal := voiceSafe_map (fun _ => voiceSafe_kill) h.legal
          volume := h.volume
          off_midi := .inl hmidi }
      · exact h
  | programChange ch program => exact h

/-- PARSE_APPLY dispatches only events that passed the data check (R162, R170). -/
theorem parseApply_keeps_pool {s t : State} (hp : PoolSafe s) (h : exec .parseApply s = .next t) : PoolSafe t := by
  rcases parseApply_cases h with rfl | ⟨hmidi, -, -, ⟨-, rfl⟩ | ⟨-, rfl⟩⟩
  · exact hp
  · exact hp.of_same ⟨rfl, rfl, rfl, id⟩
  · have hconsumed : PoolSafe (consume (parse s.cfg s.pbuf).2 s) := hp.of_same ⟨rfl, rfl, rfl, id⟩
    cases hev : (parse s.cfg s.pbuf).1 with
    | none => exact hconsumed
    | some ev => exact emit_keeps_pool hmidi (eventData_of_parse hev) hconsumed

/-- GENERATE runs every slot for a block, and a block keeps a slot legal (R201, R238, R244). -/
theorem generate_keeps_pool {n : Nat} {s t : State} (ha : configAdmitted s.cfg = true)
    (hl : levelsInRange s.cfg = true) (hp : PoolSafe s) (h : exec (.generate n) s = .next t) : PoolSafe t := by
  rcases generate_cases h with rfl | ⟨hmidi, -, -, rfl⟩
  · exact hp
  · exact {
      slots := by simpa [voicesAfter] using hp.slots
      legal := voiceSafe_map (fun _ => voiceSafe_block ha hl n) hp.legal
      volume := hp.volume
      off_midi := .inl hmidi }

theorem exec_keeps_pool (x : Txn) {s t : State} (ha : configAdmitted s.cfg = true) (hl : levelsInRange s.cfg = true)
    (hr : runInv s = true) (hp : PoolSafe s) (h : exec (txnInstr x) s = .next t) : PoolSafe t := by
  by_cases hparse : x = .parseApply
  · subst hparse
    exact parseApply_keeps_pool hp h
  · by_cases hgen : ∃ n, x = .generate n
    · obtain ⟨n, rfl⟩ := hgen
      exact generate_keeps_pool ha hl hp h
    · exact hp.of_same (exec_samePool hparse (not_exists.mp hgen) hr h)

/-- Settles O53: the scheduler's choice leaves the pool alone, and each transaction keeps it safe. -/
theorem stepKeepsThePool : Obligations.StepKeepsThePool := by
  intro s t hl hr hp hstep
  obtain ⟨ha, x, sch, o, hexec⟩ := step_cases hstep
  rw [poolInv_iff] at hp ⊢
  exact exec_keeps_pool (s := { s with schedule := sch, oracle := o }) x ha hl hr
    (hp.of_same ⟨rfl, rfl, rfl, id⟩) hexec

end Sys2Proof.Machine
end

section
/-! O49 and O50: what reset leaves (10_state.md R49), and that the invariants start there. -/

namespace Sys2Proof.Machine

/-- Settles O49: each field is the one `State.resetWith` writes, and every slot is `Voice.reset`. -/
theorem resetLeavesTheStatedValues : Obligations.ResetLeavesTheStatedValues := by
  intro cfg
  refine ⟨List.length_replicate, ?_, rfl, rfl, rfl, rfl, rfl, rfl, rfl, rfl, rfl, rfl, rfl⟩
  intro v hv
  obtain rfl : v = Voice.reset := List.eq_of_mem_replicate hv
  exact ⟨rfl, rfl, rfl, rfl, rfl, rfl, rfl⟩

theorem runInv_resetWith (cfg : Config) : runInv (State.resetWith cfg) = true := rfl

theorem buffersSafe_resetWith (cfg : Config) : BuffersSafe (State.resetWith cfg) where
  probe_le := Nat.zero_le _
  probe_life := .inl rfl
  pbuf_le := Nat.zero_le _
  residue := .inr rfl
  off_midi := .inr ⟨rfl, rfl⟩
  raw_nil := rfl

theorem poolSafe_resetWith (cfg : Config) : PoolSafe (State.resetWith cfg) where
  slots := List.length_replicate
  legal := fun v hv => by
    rw [List.eq_of_mem_replicate hv]
    exact voiceSafe_reset _
  volume := by simp [volumeSafe, State.resetWith]
  off_midi := .inr ⟨rfl, rfl⟩

theorem safeInv_resetWith (cfg : Config) : safeInv (State.resetWith cfg) = true := by
  simp only [safeInv, Bool.and_eq_true]
  exact ⟨⟨runInv_resetWith cfg, (bufferInv_iff _).mpr (buffersSafe_resetWith cfg)⟩,
    (poolInv_iff _).mpr (poolSafe_resetWith cfg)⟩

/-- Settles O50: reset meets each of the three invariants under every configuration. -/
theorem resetMeetsEveryInvariant : Obligations.ResetMeetsEveryInvariant :=
  ⟨safeInv_resetWith, safeInv_resetWith Config.reference⟩

end Sys2Proof.Machine
end

section
/-! O58: each register, latch and buffer has its writers (20_memory.md R82, R85, 10_state.md R36 to R39, R42, R43).
`WritesOnlyItsOwn` says it of one transaction, clause by clause; a transaction has one lemma each, and the six that can
fail share `WritesOnlyItsOwn.fatal`. -/

namespace Sys2Proof.Machine

/-- `rawStep_spec` with what O55 asks for: the link is read from its head, and one block is appended unless the run ends
(R270, R281, R305). -/
theorem rawStep_outcome {s t : State} (h : exec .rawStep s = .next t) :
    t = s ∨ (s.runState = .running ∧ ∃ k d o,
      ((∃ b, t = { s with
          link := s.link.drop k, readDraws := d, oracle := o, rawBlock := [], sink := s.sink ++ [b] }) ∨
        t = fatal causeLinkError { s with link := s.link.drop k, readDraws := d, oracle := o, rawBlock := [] })) := by
  rcases rawStep_cases h with rfl | ⟨-, hrunning, -, s1, hs1⟩
  · exact .inl rfl
  · obtain ⟨_, d, o, b, hslots, ⟨k, rfl⟩, -⟩ := rawSlots_spec s.cfg.blockSamples { s with rawBlock := [] }
    refine .inr ⟨hrunning, k, d, o, ?_⟩
    rcases hs1 with ⟨hrun, rfl⟩ | ⟨hrun, rfl⟩ <;> rw [hrun] at hslots <;> cases hslots
    · exact .inr rfl
    · exact .inl ⟨_, rfl⟩

/-- PARSE_APPLY writes PBUF, ING and the pool alone, and keeps the number of slots (R162, R230, R33). -/
theorem parseApply_outcome {s t : State} (h : exec .parseApply s = .next t) :
    ∃ p i vs v, t = { s with pbuf := p, ing := i, voices := vs, volume := v } ∧ vs.length = s.voices.length := by
  rcases parseApply_cases h with rfl | ⟨-, -, -, ⟨-, rfl⟩ | ⟨-, rfl⟩⟩
  · exact ⟨_, _, _, _, rfl, rfl⟩
  · exact ⟨_, .read, _, _, rfl, rfl⟩
  · cases (parse s.cfg s.pbuf).1 with
    | none => exact ⟨_, _, _, _, rfl, rfl⟩
    | some ev =>
      refine ⟨_, _, _, _, emit_spec ev _, ?_⟩
      exact emit_voices_length ev (consume (parse s.cfg s.pbuf).2 s)

/-- The transactions that can end a run in FAILED (R302 to R307). -/
def CanFail (x : Txn) : Prop :=
  x = .linkOpen ∨ x = .probeRead ∨ x = .sinkOpen ∨ x = .ingestRead ∨ x = .rawStep ∨ x = .sinkFault

/-- What the transaction `x`, taken from `s` to `t`, may have written. -/
structure WritesOnlyItsOwn (x : Txn) (s t : State) : Prop where
  ingestion : x ≠ .ingestRead → x ≠ .parseApply → t.pbuf = s.pbuf ∧ t.ing = s.ing
  probeBuf : x ≠ .probeRead → x ≠ .classify → t.probeBuf = s.probeBuf
  voices : x ≠ .parseApply → (∀ n, x ≠ .generate n) → t.voices = s.voices
  volume : x ≠ .parseApply → t.volume = s.volume
  mode : x ≠ .linkOpen → x ≠ .classify → t.mode = s.mode
  stopReq : x ≠ .stop → t.stopReq = s.stopReq
  windowExpired : x ≠ .windowExpire → t.windowExpired = s.windowExpired
  sink : (∀ n, x ≠ .generate n) → x ≠ .rawStep → t.sink = s.sink
  runState : x = .windowExpire ∨ x = .parseApply ∨ (∃ n, x = .generate n) → t.runState = s.runState
  faultCause : t.faultCause ≠ s.faultCause → CanFail x ∧ s.runState ≠ .failed ∧ t.runState = .failed
  linkOpen : t.linkOpen ≠ s.linkOpen →
    (x = .linkOpen ∧ t.linkOpen = true ∧ s.runState = .init) ∨
      (t.linkOpen = false ∧ (t.runState = .stopped ∨ t.runState = .failed))
  sinkOpen : t.sinkOpen ≠ s.sinkOpen →
    (x = .sinkOpen ∧ t.sinkOpen = true ∧ s.runState = .starting) ∨
      (t.sinkOpen = false ∧ (t.runState = .stopped ∨ t.runState = .failed))
  link : x ≠ .probeRead → x ≠ .ingestRead → x ≠ .rawStep → t.link = s.link
  cfg : t.cfg = s.cfg

theorem WritesOnlyItsOwn.refl (x : Txn) (s : State) : WritesOnlyItsOwn x s s := by
  constructor <;> simp

/-- The draws, the counter, the block in progress and the recorded calls have no owner: any step may move them. -/
theorem writesOnlyItsOwn_of_draws {x : Txn} {s : State} {rd : List ReadDraw} {od : List OpenDraw} {o : Nat}
    {rb : List Sample} {cs : List HostCall} :
    WritesOnlyItsOwn x s { s with readDraws := rd, openDraws := od, oracle := o, rawBlock := rb, calls := cs } := by
  constructor <;> simp

/-- The fatal sequence writes FAULT_CAUSE and RUN_STATE and closes what is open (R306, R309), which a step that can
fail may do while the run has not failed. -/
theorem WritesOnlyItsOwn.fatal {x : Txn} {s u : State} (c : Byte) (hu : WritesOnlyItsOwn x s u) (hx : CanFail x)
    (hs : s.runState ≠ .failed) : WritesOnlyItsOwn x s (fatal c u) where
  ingestion := by simpa using hu.ingestion
  probeBuf := by simpa using hu.probeBuf
  voices := by simpa using hu.voices
  volume := by simpa using hu.volume
  mode := by simpa using hu.mode
  stopReq := by simpa using hu.stopReq
  windowExpired := by simpa using hu.windowExpired
  sink := by simpa using hu.sink
  runState := by rcases hx with rfl | rfl | rfl | rfl | rfl | rfl <;> simp
  faultCause := fun _ => ⟨hx, hs, fatal_runState c u⟩
  linkOpen := fun _ => .inr ⟨fatal_linkOpen c u, .inr (fatal_runState c u)⟩
  sinkOpen := fun _ => .inr ⟨fatal_sinkOpen c u, .inr (fatal_runState c u)⟩
  link := by simpa using hu.link
  cfg := by simpa using hu.cfg

theorem linkOpen_writesOnlyItsOwn {s t : State} (h : exec .linkOpen s = .next t) :
    WritesOnlyItsOwn .linkOpen s t := by
  rcases linkOpen_cases h with rfl | ⟨hinit, d, o, rfl | rfl⟩
  · exact .refl _ _
  · obtain ⟨m, r, hopened⟩ := linkOpened_spec (record .openLink { s with openDraws := d, oracle := o })
    rw [hopened]
    constructor <;> simp [hinit]
  · exact .fatal _ writesOnlyItsOwn_of_draws (by simp [CanFail]) (by simp [hinit])

theorem probeRead_writesOnlyItsOwn {s t : State} (h : exec .probeRead s = .next t) :
    WritesOnlyItsOwn .probeRead s t := by
  rcases probeRead_cases h with rfl | ⟨hprobing, -, -, l, d, o, ⟨rfl, rfl⟩ | ⟨k, -, -, rfl⟩⟩
  · exact .refl _ _
  · exact .fatal _ writesOnlyItsOwn_of_draws (by simp [CanFail]) (by simp [hprobing])
  · constructor <;> simp

theorem windowExpire_writesOnlyItsOwn {s t : State} (h : exec .windowExpire s = .next t) :
    WritesOnlyItsOwn .windowExpire s t := by
  rcases windowExpire_cases h with rfl | ⟨-, -, rfl⟩
  · exact .refl _ _
  · constructor <;> simp

theorem classify_writesOnlyItsOwn {s t : State} (h : exec .classify s = .next t) :
    WritesOnlyItsOwn .classify s t := by
  rcases classify_cases h with rfl | ⟨-, rfl⟩
  · exact .refl _ _
  · constructor <;> simp

theorem sinkOpen_writesOnlyItsOwn {s t : State} (h : exec .sinkOpen s = .next t) :
    WritesOnlyItsOwn .sinkOpen s t := by
  rcases sinkOpen_cases h with rfl | ⟨hstarting, d, o, rfl | rfl⟩
  · exact .refl _ _
  · constructor <;> simp [sinkOpened, hstarting]
  · exact .fatal _ writesOnlyItsOwn_of_draws (by simp [CanFail]) (by simp [hstarting])

theorem ingestRead_writesOnlyItsOwn {s t : State} (h : exec .ingestRead s = .next t) :
    WritesOnlyItsOwn .ingestRead s t := by
  rcases ingestRead_cases h with rfl | ⟨-, hrunning, -, l, d, o, ⟨rfl, rfl⟩ | ⟨k, -, -, rfl⟩⟩
  · exact .refl _ _
  · exact .fatal _ writesOnlyItsOwn_of_draws (by simp [CanFail]) (by simp [hrunning])
  · constructor <;> simp

theorem parseApply_writesOnlyItsOwn {s t : State} (h : exec .parseApply s = .next t) :
    WritesOnlyItsOwn .parseApply s t := by
  obtain ⟨p, i, vs, v, rfl, -⟩ := parseApply_outcome h
  constructor <;> simp

theorem generate_writesOnlyItsOwn {n : Nat} {s t : State} (h : exec (.generate n) s = .next t) :
    WritesOnlyItsOwn (.generate n) s t := by
  rcases generate_cases h with rfl | ⟨-, -, -, rfl⟩
  · exact .refl _ _
  · constructor <;> simp

theorem rawStep_writesOnlyItsOwn {s t : State} (h : exec .rawStep s = .next t) :
    WritesOnlyItsOwn .rawStep s t := by
  rcases rawStep_outcome h with rfl | ⟨hrunning, k, d, o, ⟨b, rfl⟩ | rfl⟩
  · exact .refl _ _
  · constructor <;> simp
  · refine .fatal _ ?_ (by simp [CanFail]) (by simp [hrunning])
    constructor <;> simp

theorem stop_writesOnlyItsOwn {s t : State} (h : exec .stop s = .next t) : WritesOnlyItsOwn .stop s t := by
  rcases stop_cases h with rfl | ⟨-, -, rfl⟩
  · exact .refl _ _
  · constructor <;> simp

theorem sinkFault_writesOnlyItsOwn {s t : State} (h : exec .sinkFault s = .next t) :
    WritesOnlyItsOwn .sinkFault s t := by
  rcases sinkFault_cases h with rfl | ⟨hrunning, rfl⟩
  · exact .refl _ _
  · exact .fatal _ (.refl _ _) (by simp [CanFail]) (by simp [hrunning])

theorem exec_writesOnlyItsOwn (x : Txn) {s t : State} (h : exec (txnInstr x) s = .next t) :
    WritesOnlyItsOwn x s t := by
  cases x with
  | linkOpen => exact linkOpen_writesOnlyItsOwn h
  | probeRead => exact probeRead_writesOnlyItsOwn h
  | windowExpire => exact windowExpire_writesOnlyItsOwn h
  | classify => exact classify_writesOnlyItsOwn h
  | sinkOpen => exact sinkOpen_writesOnlyItsOwn h
  | ingestRead => exact ingestRead_writesOnlyItsOwn h
  | parseApply => exact parseApply_writesOnlyItsOwn h
  | generate n => exact generate_writesOnlyItsOwn h
  | rawStep => exact rawStep_writesOnlyItsOwn h
  | stop => exact stop_writesOnlyItsOwn h
  | sinkFault => exact sinkFault_writesOnlyItsOwn h

/-- Settles O58: the clauses of `WritesOnlyItsOwn` about the machine's own state. -/
theorem eachRegisterHasItsWriters : Obligations.EachRegisterHasItsWriters := by
  intro x s t h
  have hw := exec_writesOnlyItsOwn x h
  exact ⟨hw.ingestion, hw.probeBuf, hw.voices, hw.volume, hw.mode, hw.stopReq, hw.windowExpired, hw.sink,
    hw.runState, hw.faultCause, hw.linkOpen, hw.sinkOpen⟩

end Sys2Proof.Machine
end

section
/-! O55: the link, the sink and the number of slots over a step (20_memory.md R71, R78, 10_state.md R33, R41). Of each
the writers alone are looked at; every other transaction leaves it as it is by `WritesOnlyItsOwn`. -/

namespace Sys2Proof.Machine

/-- The three steps that read the link take bytes off its head (R71, R72). -/
theorem exec_link (x : Txn) {s t : State} (h : exec (txnInstr x) s = .next t) : ∃ k, t.link = s.link.drop k := by
  have hzero : s.link = s.link.drop 0 := s.link.drop_zero.symm
  cases x with
  | probeRead =>
    rcases probeRead_cases h with rfl | ⟨-, -, -, l, d, o, ⟨rfl, rfl⟩ | ⟨k, -, rfl, rfl⟩⟩
    · exact ⟨0, hzero⟩
    · exact ⟨0, by simp⟩
    · exact ⟨k, rfl⟩
  | ingestRead =>
    rcases ingestRead_cases h with rfl | ⟨-, -, -, l, d, o, ⟨rfl, rfl⟩ | ⟨k, -, rfl, rfl⟩⟩
    · exact ⟨0, hzero⟩
    · exact ⟨0, by simp⟩
    · exact ⟨k, rfl⟩
  | rawStep =>
    rcases rawStep_outcome h with rfl | ⟨-, k, d, o, ⟨b, rfl⟩ | rfl⟩
    · exact ⟨0, hzero⟩
    · exact ⟨k, rfl⟩
    · exact ⟨k, by simp⟩
  | _ => exact ⟨0, ((exec_writesOnlyItsOwn _ h).link (by simp) (by simp) (by simp)).trans hzero⟩

/-- The two generators append at most one block (R78, R238, R270). -/
theorem exec_sink (x : Txn) {s t : State} (h : exec (txnInstr x) s = .next t) :
    t.sink = s.sink ∨ ∃ block, t.sink = s.sink ++ [block] := by
  cases x with
  | generate n =>
    rcases generate_cases h with rfl | ⟨-, -, -, rfl⟩
    · exact .inl rfl
    · exact .inr ⟨_, rfl⟩
  | rawStep =>
    rcases rawStep_outcome h with rfl | ⟨-, k, d, o, ⟨b, rfl⟩ | rfl⟩
    · exact .inl rfl
    · exact .inr ⟨b, rfl⟩
    · exact .inl (by simp)
  | _ => exact .inl ((exec_writesOnlyItsOwn _ h).sink (by simp) (by simp))

/-- The two writers of the pool rewrite slots in place (R33, R85). -/
theorem exec_voices_length (x : Txn) {s t : State} (h : exec (txnInstr x) s = .next t) :
    t.voices.length = s.voices.length := by
  cases x with
  | parseApply =>
    obtain ⟨p, i, vs, v, rfl, hlength⟩ := parseApply_outcome h
    exact hlength
  | generate n =>
    rcases generate_cases h with rfl | ⟨-, -, -, rfl⟩
    · rfl
    · simp [voicesAfter]
  | _ => exact congrArg List.length ((exec_writesOnlyItsOwn _ h).voices (by simp) (by simp))

/-- Settles O55: the scheduler's choice touches none of the four, and each transaction moves them forward alone. -/
theorem streamsOnlyMoveForward : Obligations.StreamsOnlyMoveForward := by
  intro s t hstep
  obtain ⟨-, x, sch, o, hexec⟩ := step_cases hstep
  have hlink := exec_link x hexec
  have hsink := exec_sink x hexec
  have hslots := exec_voices_length x hexec
  exact ⟨hlink, hsink, hslots, (exec_writesOnlyItsOwn x hexec).cfg⟩

end Sys2Proof.Machine
end

section
/-! The bytes of a frame, read and written by the same cut (30_encoding.md R100 to R102, 41_parser.md R161, R169,
R170): behind the status byte stand the frame's data bytes or too few of them, and both the decoder and the
encoder are said once in those terms. A ProgramChange has one data byte; where two are named, its second is 0. -/

namespace Sys2Proof

/-- The data bytes behind the status byte of a whole frame (R101, R102). -/
def frameData (t : FrameType) (d1 d2 : Byte) : List Byte := [d1, d2].take (frameLength t - 1)

/-- A data byte of 0 passes the data check, so the second byte that a ProgramChange does not have never fails it. -/
@[simp] theorem badData_zero (dc : DataCheck) : badData dc 0#8 = false := by cases dc <;> decide

/-- A head byte with bit 7 clear is no status byte (R104). -/
theorem frameTypeOf_dataByte : ∀ b : BitVec 7, frameTypeOf (highNibble (b.setWidth 8)) = none := by decide

theorem decodeMidi_of_drop (cfg : Config) {b : Byte} (h : frameTypeOf (highNibble b) = none) (rest : List Byte) :
    decodeMidi cfg (b :: rest) = .ok (dropOf b) := by
  simp only [decodeMidi, h]

theorem decodeMidi_statusByte (cfg : Config) (t : FrameType) (ch : Nibble) (rest : List Byte) :
    decodeMidi cfg (statusByte (typeNibble t) ch :: rest) = .ok (decodeFrame cfg t ch rest) := by
  simp [decodeMidi]

/-- Behind a status byte stand too few data bytes for a frame, or all of them and what follows the frame. -/
theorem frameData_cases (cfg : Config) (t : FrameType) (ch : Nibble) (rest : List Byte) :
    (∃ d1 : Option Byte, rest = d1.toList ∧ wellFormed cfg (.wait t ch d1) = true) ∨
      ∃ d1 d2 tail, rest = frameData t d1 d2 ++ tail ∧ (t = .programChange → d2 = 0#8) := by
  match rest with
  | [] => exact .inl ⟨none, rfl, by cases t <;> rfl⟩
  | [d] =>
    cases t with
    | programChange => exact .inr ⟨d, 0#8, [], rfl, fun _ => rfl⟩
    | _ => exact .inl ⟨some d, rfl, rfl⟩
  | d1 :: d2 :: tail =>
    cases t with
    | programChange => exact .inr ⟨d1, 0#8, d2 :: tail, rfl, fun _ => rfl⟩
    | _ => exact .inr ⟨d1, d2, tail, rfl, nofun⟩

/-- An incomplete frame waits (R169). -/
theorem decodeFrame_wait {cfg : Config} {t : FrameType} {ch : Nibble} {d1 : Option Byte}
    (h : wellFormed cfg (.wait t ch d1) = true) : decodeFrame cfg t ch d1.toList = .wait t ch d1 := by
  cases d1 with
  | none => cases t <;> rfl
  | some d =>
    cases t with
    | programChange => cases h
    | _ => rfl

/-- A whole frame is dropped or accepted by its data bytes alone, whatever follows it (R161, R170). -/
theorem decodeFrame_frameData (cfg : Config) {t : FrameType} (ch : Nibble) {d1 d2 : Byte}
    (hpad : t = .programChange → d2 = 0#8) (rest : List Byte) :
    decodeFrame cfg t ch (frameData t d1 d2 ++ rest) =
      if badData cfg.dataCheck d1 || badData cfg.dataCheck d2 then .dropBadData t ch d1 d2
      else frameOf cfg t ch d1 d2 := by
  cases t with
  | programChange =>
    obtain rfl := hpad rfl
    simp [decodeFrame, frameData, frameLength]
  | _ => rfl

theorem encode_wait (cfg : Config) (t : FrameType) (ch : Nibble) (d1 : Option Byte) :
    encode cfg (.wait t ch d1) = statusByte (typeNibble t) ch :: d1.toList := by
  cases d1 <;> rfl

theorem encode_dropBadData (cfg : Config) (t : FrameType) (ch : Nibble) (d1 d2 : Byte) :
    encode cfg (.dropBadData t ch d1 d2) = statusByte (typeNibble t) ch :: frameData t d1 d2 := by
  cases t <;> rfl

/-- An accepted frame is encoded by its own bytes: where a row fixes one of them, it is the one that selected the
row (R165, R166). -/
theorem encode_frameOf (cfg : Config) (t : FrameType) (ch : Nibble) (d1 d2 : Byte) :
    encode cfg (frameOf cfg t ch d1 d2) = statusByte (typeNibble t) ch :: frameData t d1 d2 := by
  cases t with
  | noteOff => rfl
  | programChange => rfl
  | noteOn =>
    simp only [frameOf]
    split
    · next hvel => rw [hvel]; rfl
    · rfl
  | controlChange =>
    simp only [frameOf]
    split
    · next hvolume => rw [hvolume]; rfl
    · split
      · next hpanic => rw [hpanic]; rfl
      · rfl

theorem wellFormed_dropOf (cfg : Config) (b : Byte) : wellFormed cfg (dropOf b) = true := by
  unfold dropOf
  repeat (first | split | rfl)

theorem wellFormed_dropBadData_iff (cfg : Config) (t : FrameType) (ch : Nibble) (d1 d2 : Byte) :
    wellFormed cfg (.dropBadData t ch d1 d2) = true ↔
      (badData cfg.dataCheck d1 || badData cfg.dataCheck d2) = true ∧ (t = .programChange → d2 = 0#8) := by
  cases t with
  | programChange =>
    simp only [wellFormed, Bool.and_eq_true, beq_iff_eq, forall_const]
    refine and_congr_left fun hpad => ?_
    rw [hpad, badData_zero, Bool.or_false]
  | _ => simp [wellFormed]

/-- A frame whose bytes pass the data check is well formed: the tests that select its row are its conditions. -/
theorem wellFormed_frameOf {cfg : Config} {d1 d2 : Byte} (h1 : badData cfg.dataCheck d1 = false)
    (h2 : badData cfg.dataCheck d2 = false) (t : FrameType) (ch : Nibble) :
    wellFormed cfg (frameOf cfg t ch d1 d2) = true := by
  cases t with
  | noteOff => simp [frameOf, wellFormed, h1, h2]
  | programChange => simp [frameOf, wellFormed, h1]
  | noteOn =>
    simp only [frameOf]
    split
    · simp [wellFormed, h1]
    · next hvel => simp [wellFormed, h1, h2, hvel]
  | controlChange =>
    simp only [frameOf]
    split
    · simp [wellFormed, h2]
    · next hvolume =>
      split
      · next hpanic => simp [wellFormed, h2, ← hpanic, hvolume]
      · next hpanic => simp [wellFormed, h1, h2, hvolume, hpanic]

end Sys2Proof
end

section
/-! O1, O2 and O3: bytes and instructions agree in both directions (30_encoding.md R100 to R110, 41_parser.md R161 to
R177). A well-formed row of the MIDI path is a drop, an incomplete frame, a frame with bad data or an accepted frame,
and on each of the four the decoder and the encoder are known. -/

namespace Sys2Proof

/-- The rows of the MIDI path by the outcome of R161 that each stands for. -/
inductive MidiRow (cfg : Config) : Instr → Prop where
  | drop (b : Byte) (hb : frameTypeOf (highNibble b) = none) : MidiRow cfg (dropOf b)
  | wait (t : FrameType) (ch : Nibble) (d1 : Option Byte) (hd : wellFormed cfg (.wait t ch d1) = true) :
      MidiRow cfg (.wait t ch d1)
  | badData (t : FrameType) (ch : Nibble) (d1 d2 : Byte) (hpad : t = .programChange → d2 = 0#8)
      (hbad : (badData cfg.dataCheck d1 || badData cfg.dataCheck d2) = true) :
      MidiRow cfg (.dropBadData t ch d1 d2)
  | frame (t : FrameType) (ch : Nibble) (d1 d2 : Byte) (hpad : t = .programChange → d2 = 0#8)
      (hgood : (badData cfg.dataCheck d1 || badData cfg.dataCheck d2) = false) :
      MidiRow cfg (frameOf cfg t ch d1 d2)

theorem MidiRow.wellFormed {cfg : Config} {i : Instr} (h : MidiRow cfg i) : wellFormed cfg i = true := by
  cases h with
  | drop b hb => exact wellFormed_dropOf cfg b
  | wait t ch d1 hd => exact hd
  | badData t ch d1 d2 hpad hbad => exact (wellFormed_dropBadData_iff cfg t ch d1 d2).mpr ⟨hbad, hpad⟩
  | frame t ch d1 d2 hpad hgood =>
    obtain ⟨h1, h2⟩ := Bool.or_eq_false_iff.mp hgood
    exact wellFormed_frameOf h1 h2 t ch

/-- A controller number of the configuration is a u7, so it passes the data check (R6). -/
theorem badData_setWidth (dc : DataCheck) (c : BitVec 7) : badData dc (c.setWidth 8) = false := by
  cases dc with
  | strict => revert c; decide
  | none => rfl

/-- Every row of the MIDI path that the operand ranges and the row conditions admit is one of the four: each frame
row is the frame of the bytes it fixes and carries. -/
theorem midiRow_of_wellFormed {cfg : Config} {i : Instr} (h : wellFormed cfg i = true)
    (hm : onMidiPath i = true) : MidiRow cfg i := by
  cases i with
  | noteOff ch note relvel => exact .frame .noteOff ch note relvel nofun (by simpa [wellFormed] using h)
  | noteOn ch note vel =>
    simp only [wellFormed, Bool.and_eq_true, Bool.not_eq_true', bne_iff_ne] at h
    obtain ⟨⟨hnote, hvel⟩, hne⟩ := h
    have hrow : frameOf cfg .noteOn ch note vel = .noteOn ch note vel := if_neg hne
    exact hrow ▸ .frame .noteOn ch note vel nofun (by simp [hnote, hvel])
  | noteOnV0 ch note => exact .frame .noteOn ch note 0#8 nofun (by simpa [wellFormed] using h)
  | ccVolume ch value =>
    have hrow : frameOf cfg .controlChange ch (ccVolumeNumber cfg) value = .ccVolume ch value := if_pos rfl
    exact hrow ▸ .frame .controlChange ch _ value nofun
      (by simpa [wellFormed, ccVolumeNumber, badData_setWidth] using h)
  | ccPanic ch value =>
    simp only [wellFormed, Bool.and_eq_true, Bool.not_eq_true', bne_iff_ne] at h
    obtain ⟨hvalue, hne⟩ := h
    have hrow : frameOf cfg .controlChange ch (ccPanicNumber cfg) value = .ccPanic ch value := by
      simp [frameOf, hne]
    exact hrow ▸ .frame .controlChange ch _ value nofun (by simp [ccPanicNumber, badData_setWidth, hvalue])
  | ccOther ch controller value =>
    simp only [wellFormed, Bool.and_eq_true, Bool.not_eq_true', bne_iff_ne] at h
    obtain ⟨⟨⟨hcontroller, hvalue⟩, hvolume⟩, hpanic⟩ := h
    have hrow : frameOf cfg .controlChange ch controller value = .ccOther ch controller value := by
      simp [frameOf, hvolume, hpanic]
    exact hrow ▸ .frame .controlChange ch controller value nofun (by simp [hcontroller, hvalue])
  | prog ch program =>
    exact .frame .programChange ch program 0#8 (fun _ => rfl) (by simpa [wellFormed] using h)
  | dropData b => exact dropOf_dropData b ▸ .drop _ (frameTypeOf_dataByte b)
  | dropA n => exact (dropOf_statusByte n).1 ▸ .drop _ (by rw [highNibble_statusByte]; rfl)
  | dropD n => exact (dropOf_statusByte n).2.1 ▸ .drop _ (by rw [highNibble_statusByte]; rfl)
  | dropE n => exact (dropOf_statusByte n).2.2.1 ▸ .drop _ (by rw [highNibble_statusByte]; rfl)
  | dropSys n => exact (dropOf_statusByte n).2.2.2 ▸ .drop _ (by rw [highNibble_statusByte]; rfl)
  | dropBadData t ch d1 d2 =>
    obtain ⟨hbad, hpad⟩ := (wellFormed_dropBadData_iff cfg t ch d1 d2).mp h
    exact .badData t ch d1 d2 hpad hbad
  | wait t ch d1 => exact .wait t ch d1 h
  | _ => cases hm

/-- The decoder reads a row back from its bytes; only an incomplete frame needs that nothing follows (R169). -/
theorem MidiRow.decode_encode {cfg : Config} {i : Instr} (h : MidiRow cfg i) {rest : List Byte}
    (hrest : (∃ t ch d1, i = .wait t ch d1) → rest = []) : decodeMidi cfg (encode cfg i ++ rest) = .ok i := by
  cases h with
  | drop b hb => rw [dropOf_bytes cfg b hb, List.singleton_append, decodeMidi_of_drop cfg hb]
  | wait t ch d1 hd =>
    rw [hrest ⟨t, ch, d1, rfl⟩, List.append_nil, encode_wait, decodeMidi_statusByte, decodeFrame_wait hd]
  | badData t ch d1 d2 hpad hbad =>
    rw [encode_dropBadData, List.cons_append, decodeMidi_statusByte, decodeFrame_frameData cfg ch hpad, if_pos hbad]
  | frame t ch d1 d2 hpad hgood =>
    rw [encode_frameOf, List.cons_append, decodeMidi_statusByte, decodeFrame_frameData cfg ch hpad, hgood,
      if_neg Bool.false_ne_true]

/-- What the decoder gives is one of the four rows, and its bytes head the buffer: the buffer is cut at the end of
the frame its head byte announces (R101). -/
theorem midiRow_of_decodeMidi {cfg : Config} {bs : List Byte} {i : Instr} (h : decodeMidi cfg bs = .ok i) :
    MidiRow cfg i ∧ ∃ rest, bs = encode cfg i ++ rest := by
  cases bs with
  | nil => cases h
  | cons b tail =>
    cases hb : frameTypeOf (highNibble b) with
    | none =>
      rw [decodeMidi_of_drop cfg hb] at h
      cases h
      exact ⟨.drop b hb, tail, by rw [dropOf_bytes cfg b hb, List.singleton_append]⟩
    | some t =>
      rw [← statusByte_nibbles b, frameTypeOf_eq_some hb] at h ⊢
      rw [decodeMidi_statusByte] at h
      rcases frameData_cases cfg t (lowNibble b) tail with ⟨d1, rfl, hd⟩ | ⟨d1, d2, rest, rfl, hpad⟩
      · rw [decodeFrame_wait hd] at h
        cases h
        exact ⟨.wait t _ d1 hd, [], by rw [encode_wait, List.append_nil]⟩
      · rw [decodeFrame_frameData cfg _ hpad] at h
        split at h
        · next hbad =>
          cases h
          exact ⟨.badData t _ d1 d2 hpad hbad, rest, by rw [encode_dropBadData, List.cons_append]⟩
        · next hgood =>
          cases h
          exact ⟨.frame t _ d1 d2 hpad (Bool.eq_false_iff.mpr hgood), rest,
            by rw [encode_frameOf, List.cons_append]⟩

/-- Settles O1: each well-formed row of the MIDI path is one of the four that decode from their own bytes, and a raw
sample is the first two bytes of its read. -/
theorem decodingAnEncodingGivesItBack : Obligations.DecodingAnEncodingGivesItBack := by
  intro cfg i rest hwf
  refine ⟨fun hm => ?_, fun hm hwait => ?_, fun lo hi hraw => ?_⟩
  · simpa using (midiRow_of_wellFormed hwf hm).decode_encode (rest := []) (fun _ => rfl)
  · exact (midiRow_of_wellFormed hwf hm).decode_encode fun ⟨t, ch, d1, hi⟩ => absurd hi (hwait t ch d1)
  · rw [hraw]
    rfl

/-- Settles O2: the decoder's four outcomes, each with its bytes at the head of the buffer. -/
theorem decodedInstructionsAreWellFormedPrefixes : Obligations.DecodedInstructionsAreWellFormedPrefixes := by
  intro cfg bs i h
  obtain ⟨hrow, hhead⟩ := midiRow_of_decodeMidi h
  exact ⟨hrow.wellFormed, decodeMidi_onMidiPath h, hhead⟩

/-- Settles O3: every line is a literal input, which the decoder and the parse run evaluate. -/
theorem exampleBytesDecode : Obligations.ExampleBytesDecode := by
  unfold Obligations.ExampleBytesDecode
  decide

end Sys2Proof
end

section
/-! O18: the channel (30_encoding.md R106). A frame acts by its event alone, and the dispatch of events reads no
channel (43_pool.md R237). -/

namespace Sys2Proof.Machine

/-- The same event on another channel. -/
def onChannel (ch : Nibble) (ev : MidiEvent) : MidiEvent :=
  match ev with
  | .noteOn _ note vel => .noteOn ch note vel
  | .noteOff _ note => .noteOff ch note
  | .controlChange _ controller value => .controlChange ch controller value
  | .programChange _ program => .programChange ch program

/-- The channel is ignored (R237). -/
@[simp] theorem emit_onChannel (ch : Nibble) (ev : MidiEvent) : emit (onChannel ch ev) = emit ev := by
  cases ev <;> rfl

/-- Settles O18: two frames that differ in their channel alone dispatch one event on two channels. -/
theorem channelNeverMatters : Obligations.ChannelNeverMatters := by
  intro s ch ch' d1 d2
  have sameEffect (k : Nat) (ev : MidiEvent) :
      (.next (onFrame k (emit (onChannel ch ev)) s) : Host.Outcome State Fault Refusal) =
        .next (onFrame k (emit ev) s) := by
    rw [emit_onChannel]
  exact ⟨sameEffect 3 (.noteOff ch' d1), sameEffect 3 (.noteOn ch' d1 d2), sameEffect 3 (.noteOff ch' d1),
    sameEffect 3 (.controlChange ch' (ccVolumeNumber s.cfg) d2),
    sameEffect 3 (.controlChange ch' (ccPanicNumber s.cfg) d2),
    sameEffect 3 (.controlChange ch' d1 d2), sameEffect 2 (.programChange ch' d1)⟩

end Sys2Proof.Machine
end

section
/-! O42: one slot of the raw path (30_encoding.md R110, 44_raw_resampler.md R270 to R274): the assembly of two bytes is
the signed value of the 16-bit word they form, and the filter compares magnitudes. -/

namespace Sys2Proof.Machine

/-- R273's sign extension is the two's-complement value of the word. -/
theorem assembleSample_eq_toInt (lo hi : Byte) : assembleSample lo hi = (hi ++ lo).toInt := by
  have hword : (hi ++ lo).toNat = 256 * hi.toNat + lo.toNat := by
    rw [BitVec.toNat_append, ← Nat.shiftLeft_add_eq_or_of_lt lo.isLt, Nat.shiftLeft_eq, Nat.mul_comm]
  rw [BitVec.toInt_eq_toNat_cond, hword, assembleSample]
  by_cases hneg : 32768 ≤ 256 * hi.toNat + lo.toNat
  · rw [if_pos hneg, if_neg (by omega)]
    rfl
  · rw [if_neg hneg, if_pos (by omega)]

/-- R274's filter, in integers. -/
theorem rawValue_eq (limit : Nat) (lo hi : Byte) :
    rawValue limit lo hi = if (limit : Int) < |(hi ++ lo).toInt| then 0 else (hi ++ lo).toInt := by
  simp only [rawValue, noiseFilter, assembleSample_eq_toInt, Int.abs_eq_natAbs, Nat.cast_lt]

/-- A raw sample's effect where RAW_STEP is enabled. -/
theorem exec_rawSample_of_enabled {s : State} (h : rawStepEnabled s = true) (lo hi : Byte) :
    exec (.rawSample lo hi) s = .next (pushSample (rawValue s.cfg.noiseLimit lo hi) s) :=
  congrArg Host.Outcome.next (if_pos h)

/-- A slot whose read decodes to a raw sample gets that sample's value (R271, R273, R274). -/
theorem rawSlot_of_decodeRaw {bs : List Byte} {lo hi : Byte} (h : decodeRaw bs = .ok (.rawSample lo hi))
    (s : State) : rawSlot bs s = pushSample (rawValue s.cfg.noiseLimit lo hi) s := by
  match bs with
  | [] | [_] => cases h
  | _ :: _ :: _ => cases h; rfl

/-- Settles O42: both clauses are the effect of a raw sample where RAW_STEP is enabled. -/
theorem rawSampleAssemblesAndFilters : Obligations.RawSampleAssemblesAndFilters := by
  intro s lo hi hmode hrun hsink
  have henabled : rawStepEnabled s = true := by simp [rawStepEnabled, hmode, hrun, hsink]
  have hexec := exec_rawSample_of_enabled henabled lo hi
  exact ⟨by rw [hexec, pushSample, rawValue_eq], fun bs hbs => by rw [hexec, rawSlot_of_decodeRaw hbs]⟩

end Sys2Proof.Machine
end

section
/-! The detector's counts (40_detector.md R142 to R145): the nibbles read by division, a triplet start and a large byte
as facts about numbers, and the two counts as sizes of sets of offsets. -/

namespace Sys2Proof.Machine

/-- The high nibble of a byte is its quotient by 16 (R10). -/
theorem highNibble_eq_iff (b : Byte) (n : Nibble) : highNibble b = n ↔ b.toNat / 16 = n.toNat := by
  have hquot : (highNibble b).toNat = b.toNat / 16 := by
    rw [highNibble, BitVec.extractLsb'_toNat, Nat.shiftRight_eq_div_pow]
    exact Nat.mod_eq_of_lt (by have := b.isLt; omega)
  rw [← BitVec.toNat_inj, hquot]

/-- A triplet start: a head byte of a three-byte frame, and two data bytes (R142, R143). -/
theorem patternAt_iff (p : List Byte) (i : Nat) :
    patternAt p i = true ↔
      ((p.getD i 0#8).toNat / 16 = 9 ∨ (p.getD i 0#8).toNat / 16 = 8 ∨ (p.getD i 0#8).toNat / 16 = 11) ∧
        (p.getD (i + 1) 0#8).toNat ≤ 0x7F ∧ (p.getD (i + 2) 0#8).toNat ≤ 0x7F := by
  simp [patternAt, highNibble_eq_iff, or_assoc, and_assoc]

/-- Counting along `List.range` is the size of a set of offsets. -/
theorem countP_range_eq_card (n : Nat) (f : Nat → Bool) :
    (List.range n).countP f = ((Finset.range n).filter fun i => f i = true).card := by
  simp [Finset.card_def, Multiset.range, List.countP_eq_length_filter]

theorem midiPatterns_eq_card (p : List Byte) :
    midiPatterns p = ((Finset.range (p.length - 2)).filter fun i => patternAt p i = true).card :=
  countP_range_eq_card _ _

theorem audioLike_eq_card (p : List Byte) :
    audioLike p = ((Finset.range p.length).filter fun i => i % 2 = 1 ∧ 0x7F < (p.getD i 0#8).toNat).card := by
  simp only [audioLike, countP_range_eq_card, Bool.and_eq_true, beq_iff_eq, decide_eq_true_eq]

/-- Each test of R145 that answers MIDI is one way to fail the conditions of RAW_AUDIO. -/
theorem classify_eq (cfg : Config) (p : List Byte) :
    classify cfg p =
      if cfg.probeMin ≤ p.length ∧ midiPatterns p < cfg.midiPatternMin ∧
          p.length < audioLike p * cfg.audioDivisor then .rawAudio
      else .midi := by
  unfold classify
  by_cases hshort : p.length < cfg.probeMin
  · rw [if_pos hshort, if_neg (by omega)]
  by_cases hpatterns : cfg.midiPatternMin ≤ midiPatterns p
  · rw [if_neg hshort, if_pos hpatterns, if_neg (by omega)]
  · simp only [hshort, hpatterns, if_false, Nat.le_of_not_lt hshort, Nat.lt_of_not_le hpatterns, true_and]

/-- Enough patterns make a probe MIDI, short or long (R145). -/
theorem classify_midi_of_patterns {cfg : Config} {p : List Byte} (h : cfg.midiPatternMin ≤ midiPatterns p) :
    classify cfg p = .midi := by
  rw [classify_eq, if_neg fun hraw => absurd hraw.2.1 (Nat.not_lt.mpr h)]

/-- Settles O24: the decision of R145, with its two counts as sizes of sets. -/
theorem classifyCountsPatternsAndLargeBytes : Obligations.ClassifyCountsPatternsAndLargeBytes := by
  intro cfg p
  simp only [classify_eq, midiPatterns_eq_card, audioLike_eq_card, patternAt_iff]

end Sys2Proof.Machine
end

section
/-! O25: a whole three-byte frame is a triplet start wherever it stands (40_detector.md R142, R143), and two frames
stand at two offsets. -/

namespace Sys2Proof.Machine

/-- A pattern begins where its three bytes begin. -/
theorem patternAt_append (before after : List Byte) (b d1 d2 : Byte) :
    patternAt (before ++ [b, d1, d2] ++ after) before.length = patternAt [b, d1, d2] 0 := by
  simp [patternAt]

/-- An event comes from a row that the parser reads (R161). -/
theorem onMidiPath_of_isFrame {cfg : Config} {i : Instr} (h : isFrame cfg i = true) : onMidiPath i = true := by
  cases i <;> first | rfl | cases h

/-- A frame of three bytes is not a ProgramChange, and under strict its two data bytes are at most 0x7F (R101, R170). -/
theorem frame_bytes_of_length_three {cfg : Config} {f : Instr} (hstrict : cfg.dataCheck = .strict)
    (hwf : wellFormed cfg f = true) (hframe : isFrame cfg f = true) (hlength : (encode cfg f).length = 3) :
    ∃ b d1 d2, encode cfg f = [b, d1, d2] ∧ patternAt [b, d1, d2] 0 = true := by
  cases midiRow_of_wellFormed hwf (onMidiPath_of_isFrame hframe) with
  | drop b hb => simp [isFrame, dropOf_parse] at hframe
  | wait => cases hframe
  | badData => cases hframe
  | frame t ch d1 d2 hpad hgood =>
    rw [encode_frameOf] at hlength ⊢
    simp only [hstrict, badData, Bool.or_eq_false_iff, bit7_eq_false_iff] at hgood
    cases t with
    | programChange => simp [frameData, frameLength] at hlength
    | _ => exact ⟨_, d1, d2, rfl, by simp [patternAt, typeNibble, hgood]⟩

/-- Two triplet starts at different offsets are two patterns. -/
theorem two_le_midiPatterns {p : List Byte} {i j : Nat} (hij : i < j) (hj : j + 2 < p.length)
    (hi : patternAt p i = true) (hpj : patternAt p j = true) : 2 ≤ midiPatterns p := by
  rw [midiPatterns_eq_card, ← Nat.lt_iff_add_one_le, Finset.one_lt_card]
  exact ⟨i, by simp [hi]; omega, j, by simp [hpj]; omega, hij.ne⟩

/-- Settles O25: the two frames are triplet starts at two offsets, and two patterns are enough. -/
theorem twoFramesMakeTheProbeMidi : Obligations.TwoFramesMakeTheProbeMidi := by
  intro cfg frames before between after f g hmin hstrict hwf hwg hf hg hlf hlg
  obtain ⟨b, d1, d2, hbytesF, hpatternF⟩ := frame_bytes_of_length_three hstrict hwf hf hlf
  obtain ⟨c, e1, e2, hbytesG, hpatternG⟩ := frame_bytes_of_length_three hstrict hwg hg hlg
  rw [hbytesF, hbytesG]
  have hfirst := patternAt_append before (between ++ [c, e1, e2] ++ after) b d1 d2
  have hsecond := patternAt_append (before ++ [b, d1, d2] ++ between) after c e1 e2
  rw [hpatternF, ← List.append_assoc, ← List.append_assoc] at hfirst
  rw [hpatternG] at hsecond
  refine classify_midi_of_patterns (hmin.trans (two_le_midiPatterns ?_ ?_ hfirst hsecond)) <;>
    simp only [List.length_append, List.length_cons, List.length_nil] <;> omega

end Sys2Proof.Machine
end

section
/-! O56: MODE after its decision (40_detector.md R149). RUN_STATE only moves along R341's table, which never leads back
to INIT or PROBING, and MODE is written in those two alone. -/

namespace Sys2Proof.Machine

/-- RUN_STATE stays, or moves along the table of R341. -/
theorem exec_runState (x : Txn) {s t : State} (h : exec (txnInstr x) s = .next t) :
    t.runState = s.runState ∨ transition x s.runState t.runState = true := by
  cases x with
  | linkOpen =>
    rcases linkOpen_cases h with rfl | ⟨hinit, d, o, rfl | rfl⟩
    · exact .inl rfl
    · refine .inr ?_
      unfold linkOpened
      split <;> simp [transition, hinit]
    · exact .inr (by simp [transition, hinit])
  | probeRead =>
    rcases probeRead_cases h with rfl | ⟨hprobing, -, -, l, d, o, ⟨rfl, -⟩ | ⟨k, -, -, rfl⟩⟩
    · exact .inl rfl
    · exact .inr (by simp [transition, hprobing])
    · exact .inl rfl
  | classify =>
    rcases classify_cases h with rfl | ⟨hprobing, rfl⟩
    · exact .inl rfl
    · exact .inr (by simp [transition, hprobing])
  | sinkOpen =>
    rcases sinkOpen_cases h with rfl | ⟨hstarting, d, o, rfl | rfl⟩
    · exact .inl rfl
    · exact .inr (by simp [transition, hstarting, sinkOpened])
    · exact .inr (by simp [transition, hstarting])
  | ingestRead =>
    rcases ingestRead_cases h with rfl | ⟨-, hrunning, -, l, d, o, ⟨rfl, -⟩ | ⟨k, -, -, rfl⟩⟩
    · exact .inl rfl
    · exact .inr (by simp [transition, hrunning])
    · exact .inl rfl
  | rawStep =>
    rcases rawStep_outcome h with rfl | ⟨hrunning, k, d, o, ⟨b, rfl⟩ | rfl⟩
    · exact .inl rfl
    · exact .inl rfl
    · exact .inr (by simp [transition, hrunning])
  | stop =>
    rcases stop_cases h with rfl | ⟨hstopped, hfailed, rfl⟩
    · exact .inl rfl
    · exact .inr (by simp [transition, hstopped, hfailed])
  | sinkFault =>
    rcases sinkFault_cases h with rfl | ⟨hrunning, rfl⟩
    · exact .inl rfl
    · exact .inr (by simp [transition, hrunning])
  | _ => exact .inl ((exec_writesOnlyItsOwn _ h).runState (by simp))

/-- The two states in which MODE is not decided yet (R36, R149). -/
def beforeDecision (r : RunState) : Bool := r == .init || r == .probing

theorem undecided_of_beforeDecision {s : State} (h : runInv s = true) (hb : beforeDecision s.runState = true) :
    s.mode = .undecided := by
  simp only [beforeDecision, Bool.or_eq_true, beq_iff_eq] at hb
  exact hb.elim (mode_of_init h) (mode_of_probing h)

/-- No transition of R341 leads back before the decision. -/
theorem beforeDecision_of_transition {x : Txn} {a b : RunState} (ht : transition x a b = true)
    (ha : beforeDecision a = false) : beforeDecision b = false := by
  cases b with
  | init => cases x <;> simp [transition] at ht
  | probing =>
    cases x with
    | linkOpen =>
      obtain rfl : a = .init := by simpa [transition] using ht
      cases ha
    | _ => simp [transition] at ht
  | _ => rfl

/-- The decision is past, and it was `m`. -/
structure DecidedAs (m : Mode) (s : State) : Prop where
  past : beforeDecision s.runState = false
  mode : s.mode = m

theorem decidedAs_of_runInv {s : State} (h : runInv s = true) (hmode : s.mode ≠ .undecided) : DecidedAs s.mode s where
  past := Bool.eq_false_iff.mpr fun hbefore => hmode (undecided_of_beforeDecision h hbefore)
  mode := rfl

/-- LINK_OPEN and CLASSIFY write MODE only before the decision; no other transaction writes it (R82, R148, R149). -/
theorem exec_mode_of_past (x : Txn) {s t : State} (h : exec (txnInstr x) s = .next t)
    (hpast : beforeDecision s.runState = false) : t.mode = s.mode := by
  cases x with
  | linkOpen =>
    rcases linkOpen_cases h with rfl | ⟨hinit, -⟩
    · rfl
    · rw [hinit] at hpast
      cases hpast
  | classify =>
    rcases classify_cases h with rfl | ⟨hprobing, -⟩
    · rfl
    · rw [hprobing] at hpast
      cases hpast
  | _ => exact (exec_writesOnlyItsOwn _ h).mode (by simp) (by simp)

theorem exec_keeps_decidedAs {m : Mode} (x : Txn) {s t : State} (h : exec (txnInstr x) s = .next t)
    (hs : DecidedAs m s) : DecidedAs m t where
  past := by
    rcases exec_runState x h with hsame | hmoved
    · rw [hsame, hs.past]
    · exact beforeDecision_of_transition hmoved hs.past
  mode := (exec_mode_of_past x h hs.past).trans hs.mode

theorem step_keeps_decidedAs {m : Mode} {s t : State} (hs : DecidedAs m s) (h : step s = .next t) : DecidedAs m t := by
  obtain ⟨-, x, sch, o, hexec⟩ := step_cases h
  exact exec_keeps_decidedAs x hexec ⟨hs.past, hs.mode⟩

/-- What every step keeps holds after any number of steps. -/
theorem runSteps_induct {P : State → Prop} (hstep : ∀ s t, P s → step s = .next t → P t) (n : Nat) {s : State}
    (hs : P s) : P (runSteps n s) := by
  induction n generalizing s with
  | zero => exact hs
  | succ n ih =>
    unfold runSteps
    split
    · next t ht => exact ih (hstep s t hs ht)
    · exact hs
    · exact hs

/-- Settles O56: a decided MODE means that the decision is past, and every step keeps both. -/
theorem modeNeverChangesOnceDecided : Obligations.ModeNeverChangesOnceDecided := by
  intro s n hinv hmode
  have hdecided : DecidedAs s.mode (runSteps n s) :=
    runSteps_induct (fun _ _ => step_keeps_decidedAs) n (decidedAs_of_runInv hinv hmode)
  exact hdecided.mode

end Sys2Proof.Machine
end

section
/-! O26 and O27: the examples of R150 and R151, and the steps that end the probe (40_detector.md R141, R147). -/

namespace Sys2Proof.Machine

/-- Settles O26: every line is a literal probe, whose counts and decision are evaluated. -/
theorem classifyExamples : Obligations.ClassifyExamples := by
  unfold Obligations.ClassifyExamples
  decide

/-- WINDOW_EXPIRE where it is enabled (R141). -/
theorem exec_windowExpire_of_enabled {s : State} (h : windowExpireEnabled s = true) :
    exec .windowExpire s = .next { s with windowExpired := true } :=
  congrArg Host.Outcome.next (if_pos h)

/-- CLASSIFY where it is enabled (R147). -/
theorem exec_classify_of_enabled {s : State} (h : classifyEnabled s = true) :
    exec .classify s = .next { s with
      mode := classify s.cfg s.probeBuf
      probeBuf := []
      runState := .starting } :=
  congrArg Host.Outcome.next (if_pos h)

/-- Settles O27: the two hypotheses are what enables each step in PROBING (R321). -/
theorem probeEndsInOneDecision : Obligations.ProbeEndsInOneDecision := by
  intro s hprobing
  refine ⟨fun hopen => exec_windowExpire_of_enabled ?_, fun hend => exec_classify_of_enabled ?_⟩
  · simp [windowExpireEnabled, hprobing, hopen]
  · simpa [classifyEnabled, hprobing] using hend

end Sys2Proof.Machine
end

section
/-! What one parse answers, an equation per kind of head byte (41_parser.md R161 to R170), and what follows from the
equations: when a parse has an event, how many bytes it takes, and that it reads no byte behind them. -/

namespace Sys2Proof

/-- The event of an accepted frame (R163 to R167). -/
def frameEvent (t : FrameType) (ch : Nibble) (d1 d2 : Byte) : MidiEvent :=
  match t with
  | .noteOff => .noteOff ch d1
  | .noteOn => if d2 = 0#8 then .noteOff ch d1 else .noteOn ch d1 d2
  | .controlChange => .controlChange ch d1 d2
  | .programChange => .programChange ch d1

@[simp] theorem eventOf_frameOf (cfg : Config) (t : FrameType) (ch : Nibble) (d1 d2 : Byte) :
    eventOf cfg (frameOf cfg t ch d1 d2) = some (frameEvent t ch d1 d2) := by
  cases t with
  | noteOff => rfl
  | programChange => rfl
  | noteOn => simp only [frameOf, frameEvent]; split <;> rfl
  | controlChange =>
    simp only [frameOf, frameEvent]
    split
    · next hvolume => rw [hvolume]; rfl
    · split
      · next hpanic => rw [hpanic]; rfl
      · rfl

@[simp] theorem consumedBy_frameOf (cfg : Config) (t : FrameType) (ch : Nibble) (d1 d2 : Byte) :
    consumedBy (frameOf cfg t ch d1 d2) = frameLength t := by
  cases t with
  | noteOff => rfl
  | programChange => rfl
  | noteOn => simp only [frameOf]; split <;> rfl
  | controlChange => simp only [frameOf]; (repeat' split) <;> rfl

theorem length_frameData (t : FrameType) (d1 d2 : Byte) :
    (frameData t d1 d2).length + 1 = frameLength t := by
  cases t <;> rfl

/-- A head byte is dropped, or it is a status byte of one of the four types (R104, R105). -/
theorem headByte_cases (b : Byte) :
    frameTypeOf (highNibble b) = none ∨ ∃ t ch, b = statusByte (typeNibble t) ch := by
  cases hb : frameTypeOf (highNibble b) with
  | none => exact .inl rfl
  | some t => exact .inr ⟨t, lowNibble b, by rw [← frameTypeOf_eq_some hb, statusByte_nibbles]⟩

theorem toNat_statusByte_div (hi lo : Nibble) : (statusByte hi lo).toNat / 16 = hi.toNat :=
  (Machine.highNibble_eq_iff _ hi).mp (highNibble_statusByte hi lo)

/-- The data check in numbers (R170). -/
theorem badData_iff (dc : DataCheck) (d : Byte) : badData dc d = true ↔ dc = .strict ∧ 128 ≤ d.toNat := by
  cases dc with
  | strict => simp [badData, ← Bool.not_eq_false, bit7_eq_false_iff, Nat.lt_iff_add_one_le]
  | none => simp [badData]

theorem parse_of_decodeMidi {cfg : Config} {bs : List Byte} {i : Instr} (h : decodeMidi cfg bs = .ok i) :
    parse cfg bs = (eventOf cfg i, consumedBy i) := by
  simp only [parse, h]

theorem parse_nil (cfg : Config) : parse cfg [] = (none, 0) := rfl

/-- A head byte that is no status byte is dropped (R168). -/
theorem parse_of_drop (cfg : Config) {b : Byte} (h : frameTypeOf (highNibble b) = none) (rest : List Byte) :
    parse cfg (b :: rest) = (none, 1) := by
  rw [parse_of_decodeMidi (decodeMidi_of_drop cfg h rest), (dropOf_parse cfg b).1, (dropOf_parse cfg b).2]

/-- Behind a status byte the tests of R161 are made in their order: enough bytes (R169), the data check (R170), the
frame. -/
theorem parse_statusByte (cfg : Config) (t : FrameType) (ch : Nibble) (rest : List Byte) :
    parse cfg (statusByte (typeNibble t) ch :: rest) =
      if rest.length + 1 < frameLength t then (none, 0)
      else if badData cfg.dataCheck (rest.getD 0 0#8) = true ∨
          frameLength t = 3 ∧ badData cfg.dataCheck (rest.getD 1 0#8) = true then (none, 1)
      else (some (frameEvent t ch (rest.getD 0 0#8) (rest.getD 1 0#8)), frameLength t) := by
  rw [parse_of_decodeMidi (decodeMidi_statusByte cfg t ch rest)]
  rcases frameData_cases cfg t ch rest with ⟨d1, rfl, hwait⟩ | ⟨d1, d2, tail, rfl, hpad⟩
  · have hshort : d1.toList.length + 1 < frameLength t := by
      cases d1 with
      | none => cases t <;> decide
      | some d =>
        cases t with
        | programChange => cases hwait
        | _ => exact Nat.lt_succ_self 2
    rw [decodeFrame_wait hwait, if_pos hshort]
    rfl
  · have hlong : ¬ (frameData t d1 d2 ++ tail).length + 1 < frameLength t := by
      have := length_frameData t d1 d2
      rw [List.length_append]
      omega
    have hbytes : (badData cfg.dataCheck d1 || badData cfg.dataCheck d2) = true ↔
        badData cfg.dataCheck ((frameData t d1 d2 ++ tail).getD 0 0#8) = true ∨
          frameLength t = 3 ∧ badData cfg.dataCheck ((frameData t d1 d2 ++ tail).getD 1 0#8) = true := by
      cases t with
      | programChange => simp [frameData, frameLength, hpad]
      | _ => simp [frameData, frameLength]
    have hevent : frameEvent t ch ((frameData t d1 d2 ++ tail).getD 0 0#8)
        ((frameData t d1 d2 ++ tail).getD 1 0#8) = frameEvent t ch d1 d2 := by
      cases t <;> rfl
    rw [decodeFrame_frameData cfg ch hpad, if_neg hlong, hevent]
    simp only [hbytes]
    split
    · rfl
    · rw [eventOf_frameOf, consumedBy_frameOf]

/-- Everything one parse can answer (R161, R173): nothing, a byte dropped, or the event of a whole frame. -/
theorem parse_outcomes (cfg : Config) (bs : List Byte) :
    parse cfg bs = (none, 0) ∨ (parse cfg bs = (none, 1) ∧ 1 ≤ bs.length) ∨
      ∃ t ch d1 d2, parse cfg bs = (some (frameEvent t ch d1 d2), frameLength t) ∧ frameLength t ≤ bs.length := by
  cases bs with
  | nil => exact .inl rfl
  | cons b rest =>
    rcases headByte_cases b with hdrop | ⟨t, ch, rfl⟩
    · exact .inr (.inl ⟨parse_of_drop cfg hdrop rest, Nat.succ_pos _⟩)
    · rw [parse_statusByte]
      split
      · exact .inl rfl
      · next hlong =>
        split
        · exact .inr (.inl ⟨rfl, Nat.succ_pos _⟩)
        · exact .inr (.inr ⟨t, _, _, _, rfl, Nat.not_lt.mp hlong⟩)

theorem consumed_le_length (cfg : Config) (bs : List Byte) : (parse cfg bs).2 ≤ bs.length := by
  rcases parse_outcomes cfg bs with h | ⟨h, hle⟩ | ⟨t, ch, d1, d2, h, hle⟩ <;> rw [h]
  · exact Nat.zero_le _
  · exact hle
  · exact hle

/-- An event takes its frame's bytes with it. -/
theorem consumed_ne_zero_of_event {cfg : Config} {bs : List Byte} {ev : MidiEvent}
    (h : (parse cfg bs).1 = some ev) : (parse cfg bs).2 ≠ 0 := by
  rcases parse_outcomes cfg bs with hp | ⟨hp, -⟩ | ⟨t, ch, d1, d2, hp, -⟩ <;> rw [hp] at h ⊢
  · cases h
  · cases h
  · have := frameLength_cases t
    omega

/-- A parse that takes bytes reads none behind them, so bytes that follow later do not change it (R161, R169). -/
theorem parse_append {cfg : Config} {a : List Byte} (h : (parse cfg a).2 ≠ 0) (b : List Byte) :
    parse cfg (a ++ b) = parse cfg a := by
  cases hd : decodeMidi cfg a with
  | error r =>
    rw [((decodeMidi_error_iff cfg a r).mp hd).1] at h
    exact absurd rfl h
  | ok i =>
    rw [parse_of_decodeMidi hd] at h ⊢
    obtain ⟨hrow, rest, rfl⟩ := midiRow_of_decodeMidi hd
    rw [List.append_assoc]
    refine parse_of_decodeMidi (hrow.decode_encode ?_)
    rintro ⟨t, ch, d1, rfl⟩
    exact absurd rfl h

end Sys2Proof
end

section
/-! O4 and O5: parse against the pseudocode of 41_parser.md R161, and the operand ranges of R173. -/

namespace Sys2Proof

/-- Settles O4: the head byte's quotient by 16 is its high nibble, which selects the drop or the type; behind a type
the tests are those of `parse_statusByte`. -/
theorem parseFollowsItsPseudocode : Obligations.ParseFollowsItsPseudocode := by
  refine fun cfg => ⟨parse_nil cfg, fun b rest => ?_⟩
  rcases headByte_cases b with hdrop | ⟨t, ch, rfl⟩
  · have hno := (frameTypeOf_eq_none_iff _).mp hdrop
    simp only [ne_eq, Machine.highNibble_eq_iff] at hno
    rw [parse_of_drop cfg hdrop]
    exact (if_pos hno).symm
  · have hch : ∀ b : Byte, BitVec.ofNat 4 (b.toNat % 16) = lowNibble b := by decide
    rw [parse_statusByte, hch, lowNibble_statusByte, toNat_statusByte_div]
    generalize rest.getD 0 0#8 = d1, rest.getD 1 0#8 = d2
    cases t with
    | noteOn =>
      have hvel : d2 = 0#8 ↔ d2.toNat = 0 := BitVec.toNat_eq
      by_cases hzero : d2.toNat = 0 <;>
        simp [typeNibble, frameLength, frameEvent, badData_iff, ← and_or_left, hvel, hzero]
    | _ => simp [typeNibble, frameLength, frameEvent, badData_iff, ← and_or_left]

/-- A NoteOn event comes from a velocity that is not 0 (R164, R165). -/
theorem vel_ne_zero_of_frameEvent {t : FrameType} {ch c : Nibble} {d1 d2 note vel : Byte}
    (h : frameEvent t ch d1 d2 = .noteOn c note vel) : vel ≠ 0#8 := by
  cases t with
  | noteOn =>
    simp only [frameEvent] at h
    split at h
    · cases h
    · next hvel => cases h; exact hvel
  | _ => cases h

/-- Settles O5: the outcomes of a parse bound what leaves without an event and give the velocity; every data byte of
an event has passed the data check. -/
theorem parsedEventsKeepTheirRanges : Obligations.ParsedEventsKeepTheirRanges := by
  intro cfg bs
  have hrange {ev : MidiEvent} (hev : (parse cfg bs).1 = some ev) (hstrict : cfg.dataCheck = .strict) :
      ∀ d ∈ eventData ev, d.toNat ≤ 127 := by
    intro d hd
    have hgood := eventData_of_parse hev d hd
    rwa [hstrict, badData, bit7_eq_false_iff] at hgood
  refine ⟨fun hnone => ?_, fun ch note vel hev => ⟨?_, fun hs => ?_⟩, fun ch note hev hs => ?_,
    fun ch c v hev hs => ?_, fun ch p hev hs => ?_⟩
  · rcases parse_outcomes cfg bs with h | ⟨h, -⟩ | ⟨t, ch, d1, d2, h, -⟩ <;> rw [h] at hnone ⊢
    · exact Nat.zero_le 1
    · cases hnone
  · rcases parse_outcomes cfg bs with h | ⟨h, -⟩ | ⟨t, c, d1, d2, h, -⟩ <;> rw [h] at hev
    · cases hev
    · cases hev
    · exact vel_ne_zero_of_frameEvent (Option.some.inj hev)
  · simpa [eventData] using hrange hev hs
  · simpa [eventData] using hrange hev hs
  · simpa [eventData] using hrange hev hs
  · simpa [eventData] using hrange hev hs

end Sys2Proof
end

section
/-! O7: a whole parse run by its own recursion (41_parser.md R172): it stops at the first parse that takes nothing, and
otherwise goes on behind the bytes taken. `parseAll_induct` is the induction along the run; the equations
`parseAll_of_stop` and `parseAll_of_advance` replace the fuel. -/

namespace Sys2Proof.Machine

/-- A parse that takes bytes leaves fewer. -/
theorem length_drop_consumed_lt {cfg : Config} {bs : List Byte} (h : (parse cfg bs).2 ≠ 0) :
    (bs.drop (parse cfg bs).2).length < bs.length := by
  have := consumed_le_length cfg bs
  rw [List.length_drop]
  omega

theorem parseRun_of_stop {cfg : Config} {bs : List Byte} (h : (parse cfg bs).2 = 0) (n : Nat) :
    parseRun cfg n bs = ([], bs) := by
  cases n with
  | zero => rfl
  | succ n => exact if_pos h

theorem parseRun_of_advance {cfg : Config} {bs : List Byte} (h : (parse cfg bs).2 ≠ 0) (n : Nat) :
    parseRun cfg (n + 1) bs =
      ((parse cfg bs).1.toList ++ (parseRun cfg n (bs.drop (parse cfg bs).2)).1,
        (parseRun cfg n (bs.drop (parse cfg bs).2)).2) :=
  if_neg h

/-- Two fuels that are both enough give the same parse run (R172). -/
theorem parseRun_congr {cfg : Config} {m n : Nat} {bs : List Byte} (hm : bs.length ≤ m) (hn : bs.length ≤ n) :
    parseRun cfg m bs = parseRun cfg n bs := by
  induction m generalizing n bs with
  | zero =>
    obtain rfl := List.eq_nil_of_length_eq_zero (Nat.le_zero.mp hm)
    rw [parseRun_of_stop rfl, parseRun_of_stop rfl]
  | succ m ih =>
    by_cases hstop : (parse cfg bs).2 = 0
    · rw [parseRun_of_stop hstop, parseRun_of_stop hstop]
    · have hlt := length_drop_consumed_lt hstop
      obtain ⟨n, rfl⟩ : ∃ k, n = k + 1 := ⟨n - 1, by omega⟩
      rw [parseRun_of_advance hstop, parseRun_of_advance hstop, ih (n := n) (by omega) (by omega)]

theorem parseAll_of_stop {cfg : Config} {bs : List Byte} (h : (parse cfg bs).2 = 0) :
    parseAll cfg bs = ([], bs) :=
  parseRun_of_stop h _

theorem parseAll_of_advance {cfg : Config} {bs : List Byte} (h : (parse cfg bs).2 ≠ 0) :
    parseAll cfg bs =
      ((parse cfg bs).1.toList ++ (parseAll cfg (bs.drop (parse cfg bs).2)).1,
        (parseAll cfg (bs.drop (parse cfg bs).2)).2) := by
  have hlt := length_drop_consumed_lt h
  rw [parseAll, parseRun_congr le_rfl (Nat.le_succ bs.length), parseRun_of_advance h, parseAll,
    parseRun_congr le_rfl hlt.le]

/-- Induction along a parse run. -/
theorem parseAll_induct {cfg : Config} {P : List Byte → Prop} (stop : ∀ bs, (parse cfg bs).2 = 0 → P bs)
    (advance : ∀ bs, (parse cfg bs).2 ≠ 0 → P (bs.drop (parse cfg bs).2) → P bs) (bs : List Byte) : P bs := by
  by_cases h : (parse cfg bs).2 = 0
  · exact stop bs h
  · exact advance bs h (parseAll_induct stop advance _)
termination_by bs.length
decreasing_by exact length_drop_consumed_lt h

/-- What a parse run leaves, a further parse does not take (R172). -/
theorem parse_residue (cfg : Config) (bs : List Byte) : (parse cfg (parseAll cfg bs).2).2 = 0 := by
  induction bs using parseAll_induct (cfg := cfg) with
  | stop bs h => rwa [parseAll_of_stop h]
  | advance bs h ih => rwa [parseAll_of_advance h]

/-- Settles O7, along the run over the first part: bytes that follow change no parse that takes bytes (R169), and
where the first part's run stops there is nothing to show. -/
theorem splittingTheStreamChangesNoEvent : Obligations.SplittingTheStreamChangesNoEvent := by
  intro cfg a b
  induction a using parseAll_induct (cfg := cfg) with
  | stop a h => rw [parseAll_of_stop h, List.nil_append]
  | advance a h ih =>
    have happend := parse_append h b
    have hdrop : (a ++ b).drop (parse cfg a).2 = a.drop (parse cfg a).2 ++ b :=
      List.drop_append_of_le_length (consumed_le_length cfg a)
    rw [parseAll_of_advance (happend ▸ h), parseAll_of_advance h, happend, hdrop, ih, List.append_assoc]

end Sys2Proof.Machine
end

section
/-! O6: resynchronization (41_parser.md R174). A concatenation of valid frames parses frame by frame; and what a parse
run over the bytes before it leaves is dropped byte by byte, because under strict a frame that starts there would
take the first frame's status byte as a data byte. -/

namespace Sys2Proof.Machine

/-- A valid frame is a frame row of some type (R163 to R167). -/
theorem eq_frameOf_of_isFrame {cfg : Config} {i : Instr} (hframe : isFrame cfg i = true)
    (hwf : wellFormed cfg i = true) : ∃ t ch d1 d2, i = frameOf cfg t ch d1 d2 := by
  cases midiRow_of_wellFormed hwf (onMidiPath_of_isFrame hframe) with
  | drop b hb => simp [isFrame, dropOf_parse] at hframe
  | wait => cases hframe
  | badData => cases hframe
  | frame t ch d1 d2 => exact ⟨t, ch, d1, d2, rfl⟩

/-- A valid frame at the head is parsed whole, whatever follows (R161, R174). -/
theorem parse_frame {cfg : Config} {i : Instr} (hframe : isFrame cfg i = true) (hwf : wellFormed cfg i = true)
    (rest : List Byte) : parse cfg (encode cfg i ++ rest) = (eventOf cfg i, (encode cfg i).length) := by
  have hrow := midiRow_of_wellFormed hwf (onMidiPath_of_isFrame hframe)
  have hdecode := hrow.decode_encode (rest := rest) (by rintro ⟨t, ch, d1, rfl⟩; cases hframe)
  obtain ⟨t, ch, d1, d2, rfl⟩ := eq_frameOf_of_isFrame hframe hwf
  rw [parse_of_decodeMidi hdecode, consumedBy_frameOf, encode_frameOf, List.length_cons, length_frameData]

/-- The bytes begin with a status byte and the byte behind it, as every valid frame does. -/
def BeginsFrame (bs : List Byte) : Prop := ∃ t ch d rest, bs = statusByte (typeNibble t) ch :: d :: rest

theorem beginsFrame_encode {cfg : Config} {i : Instr} (hframe : isFrame cfg i = true) (hwf : wellFormed cfg i = true)
    (rest : List Byte) : BeginsFrame (encode cfg i ++ rest) := by
  obtain ⟨t, ch, d1, d2, rfl⟩ := eq_frameOf_of_isFrame hframe hwf
  rw [encode_frameOf]
  cases t <;> exact ⟨_, ch, d1, _, rfl⟩

/-- A concatenation of valid frames gives the events of all its frames, in order, and leaves nothing. -/
theorem parseAll_frames {cfg : Config} {frames : List Instr}
    (h : ∀ i ∈ frames, isFrame cfg i = true ∧ wellFormed cfg i = true) :
    parseAll cfg (frames.flatMap (encode cfg)) = (frames.filterMap (eventOf cfg), []) := by
  induction frames with
  | nil => rfl
  | cons i frames ih =>
    obtain ⟨⟨hframe, hwf⟩, hrest⟩ := List.forall_mem_cons.mp h
    obtain ⟨ev, hev⟩ := Option.isSome_iff_exists.mp hframe
    have hparse := parse_frame hframe hwf (frames.flatMap (encode cfg))
    have htake : (parse cfg (encode cfg i ++ frames.flatMap (encode cfg))).2 ≠ 0 :=
      consumed_ne_zero_of_event (ev := ev) (by rw [hparse, hev])
    rw [List.flatMap_cons, parseAll_of_advance htake, hparse, List.drop_left, ih hrest, List.filterMap_cons_some hev,
      hev]
    rfl

/-- A dropped byte leaves no trace in a parse run. -/
theorem parseAll_of_dropped {cfg : Config} {b : Byte} {bs : List Byte} (h : parse cfg (b :: bs) = (none, 1)) :
    parseAll cfg (b :: bs) = parseAll cfg bs := by
  rw [parseAll_of_advance (by rw [h]; exact Nat.one_ne_zero), h]
  rfl

/-- A status byte fails the strict data check (R170). -/
theorem badData_statusByte {cfg : Config} (hstrict : cfg.dataCheck = .strict) (t : FrameType) (ch : Nibble) :
    badData cfg.dataCheck (statusByte (typeNibble t) ch) = true := by
  rw [hstrict]
  exact bit7_of_frameType _ (by simp)

/-- A byte just before a frame is dropped: it starts no frame, or one whose first data byte is a status byte. -/
theorem parseAll_byte_before_frame {cfg : Config} (hstrict : cfg.dataCheck = .strict) (b : Byte) {bs : List Byte}
    (h : BeginsFrame bs) : parseAll cfg (b :: bs) = parseAll cfg bs := by
  apply parseAll_of_dropped
  obtain ⟨t, ch, d, rest, rfl⟩ := h
  rcases headByte_cases b with hdrop | ⟨u, c, rfl⟩
  · exact parse_of_drop cfg hdrop _
  · have hlong : ¬ (statusByte (typeNibble t) ch :: d :: rest).length + 1 < frameLength u := by
      have := frameLength_cases u
      simp only [List.length_cons]
      omega
    rw [parse_statusByte, if_neg hlong, if_pos (.inl (badData_statusByte hstrict t ch))]

/-- An incomplete three-byte frame just before a frame loses its status byte: its second data byte is one. -/
theorem parseAll_partial_before_frame {cfg : Config} (hstrict : cfg.dataCheck = .strict) {u : FrameType}
    (hu : frameLength u = 3) (c : Nibble) (x : Byte) {bs : List Byte} (h : BeginsFrame bs) :
    parseAll cfg (statusByte (typeNibble u) c :: x :: bs) = parseAll cfg (x :: bs) := by
  apply parseAll_of_dropped
  obtain ⟨t, ch, d, rest, rfl⟩ := h
  rw [parse_statusByte, if_neg (by simp [hu]), if_pos (.inr ⟨hu, badData_statusByte hstrict t ch⟩)]

/-- What a parse run leaves before a frame has no part in what follows (R174). -/
theorem parseAll_residue_before_frame {cfg : Config} (hstrict : cfg.dataCheck = .strict) {r bs : List Byte}
    (hr : isResidue r = true) (h : BeginsFrame bs) : parseAll cfg (r ++ bs) = parseAll cfg bs := by
  match r with
  | [] => rfl
  | [b] => exact parseAll_byte_before_frame hstrict b h
  | [b, x] =>
    rcases headByte_cases b with hdrop | ⟨u, c, rfl⟩
    · simp [isResidue, hdrop] at hr
    · have hu : frameLength u = 3 := by simpa [isResidue] using hr
      exact (parseAll_partial_before_frame hstrict hu c x h).trans (parseAll_byte_before_frame hstrict x h)
  | _ :: _ :: _ :: _ => cases hr

/-- Settles O6: split the stream before the first frame (O7); the residue is dropped, and the frames parse whole. The
rule's own example is evaluated. -/
theorem parserResynchronizesOnValidFrames : Obligations.ParserResynchronizesOnValidFrames := by
  refine ⟨fun cfg junk frames hstrict hne hvalid => ?_, by decide⟩
  have hbegins : BeginsFrame (frames.flatMap (encode cfg)) := by
    cases frames with
    | nil => exact absurd rfl hne
    | cons i frames =>
      obtain ⟨hframe, hwf⟩ := hvalid i List.mem_cons_self
      exact beginsFrame_encode hframe hwf _
  have hresidue := isResidue_of_parse_zero (parse_residue cfg junk)
  rw [splittingTheStreamChangesNoEvent, parseAll_residue_before_frame hstrict hresidue hbegins,
    parseAll_frames hvalid]

end Sys2Proof.Machine
end

section
/-! O10, O19, O20 and O21: the machine's parse run (41_parser.md R162, R172). One PARSE_APPLY step is one parse and the
application of its event; the step reads and writes PBUF and ING apart from the pool, so a run of steps is the fold of
the events over the pool, with what parseAll leaves in PBUF. -/

namespace Sys2Proof.Machine

theorem parseApplyEnabled_iff (s : State) :
    parseApplyEnabled s = true ↔ s.mode = .midi ∧ s.runState = .running ∧ s.ing = .parse := by
  simp [parseApplyEnabled, and_assoc]

/-- Where PARSE_APPLY is enabled it runs the instruction at the head of PBUF (R162). -/
theorem exec_parseApply_of_decodeMidi {s : State} (h : parseApplyEnabled s = true) {i : Instr}
    (hd : decodeMidi s.cfg s.pbuf = .ok i) : exec .parseApply s = exec i s := by
  have hexec : exec .parseApply s = execDecoded i s := by
    simp only [exec, execParseApply, if_pos h, hd]
  rw [hexec, execDecoded_eq_exec (decodeMidi_onMidiPath hd)]

/-- One step of a parse run, in terms of parse (R162). -/
theorem exec_parseApply_of_enabled {s : State} (h : parseApplyEnabled s = true) :
    exec .parseApply s = .next
      (if (parse s.cfg s.pbuf).2 = 0 then { s with ing := .read }
       else ((parse s.cfg s.pbuf).1.elim id emit) (consume (parse s.cfg s.pbuf).2 s)) := by
  cases hd : decodeMidi s.cfg s.pbuf with
  | error r => simp only [exec, execParseApply, if_pos h, hd, parse, if_true]
  | ok i =>
    rw [exec_parseApply_of_decodeMidi h hd, ← execDecoded_eq_exec (decodeMidi_onMidiPath hd),
      execDecoded_eq hd h, parse_of_decodeMidi hd]

theorem exec_parseApply_of_disabled {s : State} (h : parseApplyEnabled s = false) : exec .parseApply s = .next s := by
  simp [exec, execParseApply, h]

/-- A step whose next choice is PARSE_APPLY, on bytes that decode (R162, R321). -/
theorem step_parseApply {s : State} {ts : List Txn} {i : Instr} (ha : configAdmitted s.cfg = true)
    (hs : s.schedule = .parseApply :: ts) (he : parseApplyEnabled s = true) (hd : decodeMidi s.cfg s.pbuf = .ok i) :
    step s = exec i { s with schedule := ts } := by
  rw [step, if_pos ha, nextTxn_cons hs]
  exact exec_parseApply_of_decodeMidi (s := { s with schedule := ts }) he hd

/-- A table word is decoded from its bytes (the table's notes). -/
theorem decodeMidi_of_decodeTableWord {nbits w : Nat} {i : Instr} (h : decodeTableWord nbits w = some i) :
    decodeMidi Config.reference (tableBytes nbits w) = .ok i := by
  unfold decodeTableWord at h
  split at h
  · cases h
  · split at h
    · next heq => cases h; exact heq
    · cases h

/-- Settles O10: in both parts PARSE_APPLY is next and enabled and PBUF decodes; for a table word by the three
parameters that the decoder reads. -/
theorem stepRunsTheDecodedInstruction : Obligations.StepRunsTheDecodedInstruction := by
  refine ⟨fun s ts i ha hs hmode hrun hing hd _ => ?_, fun s nbits w i ha hstrict hvolume hpanic hw => ?_⟩
  · exact step_parseApply ha hs ((parseApplyEnabled_iff s).mpr ⟨hmode, hrun, hing⟩) hd
  · refine step_parseApply ha rfl rfl ?_
    exact (decodeMidi_congr hstrict hvolume hpanic _).trans (decodeMidi_of_decodeTableWord hw)

/-- Settles O19: the three outcomes of one parse; an event has taken its bytes. -/
theorem parseApplyIsOneParseAndItsEvent : Obligations.ParseApplyIsOneParseAndItsEvent := by
  intro s hmode hrun hing
  rw [exec_parseApply_of_enabled ((parseApplyEnabled_iff s).mpr ⟨hmode, hrun, hing⟩)]
  refine ⟨fun hstop => ?_, fun htake hnone => ?_, fun ev hev => ?_⟩
  · rw [if_pos hstop]
  · rw [if_neg htake, hnone]
    rfl
  · rw [if_neg (consumed_ne_zero_of_event hev), hev]
    rfl

/-- The same machine with another parser buffer and ingestion phase. -/
def State.withIngest (p : List Byte) (i : Ing) (s : State) : State := { s with pbuf := p, ing := i }

/-- Events applied in order (R82, R230). -/
def dispatch (evs : List MidiEvent) (s : State) : State := evs.foldl (fun t ev => emit ev t) s

theorem dispatch_append (a b : List MidiEvent) (s : State) : dispatch (a ++ b) s = dispatch b (dispatch a s) :=
  List.foldl_append

/-- An event neither reads nor writes PBUF and ING (R230). -/
theorem emit_withIngest (ev : MidiEvent) (p : List Byte) (i : Ing) (s : State) :
    emit ev (s.withIngest p i) = (emit ev s).withIngest p i := by
  cases ev with
  | noteOn => rfl
  | noteOff => rfl
  | programChange => rfl
  | controlChange ch c v =>
    have hcfg : (s.withIngest p i).cfg = s.cfg := rfl
    simp only [emit, hcfg]
    split
    · rfl
    · split <;> rfl

theorem dispatch_withIngest (evs : List MidiEvent) (p : List Byte) (i : Ing) (s : State) :
    dispatch evs (s.withIngest p i) = (dispatch evs s).withIngest p i := by
  induction evs generalizing s with
  | nil => rfl
  | cons ev evs ih => exact (congrArg (dispatch evs) (emit_withIngest ev p i s)).trans (ih (emit ev s))

/-- Events write the voices and VOLUME alone (R230). -/
theorem dispatch_spec (evs : List MidiEvent) (s : State) :
    ∃ vs v, dispatch evs s = { s with voices := vs, volume := v } := by
  induction evs generalizing s with
  | nil => exact ⟨_, _, rfl⟩
  | cons ev evs ih =>
    obtain ⟨vs, v, h⟩ := ih (emit ev s)
    rw [emit_spec ev s] at h
    exact ⟨vs, v, (congrArg (dispatch evs) (emit_spec ev s)).trans h⟩

/-- A parse that takes nothing ends the parse run (R162). -/
theorem exec_parseApply_of_stop {s : State} (he : parseApplyEnabled s = true) (h : (parse s.cfg s.pbuf).2 = 0) :
    exec .parseApply s = .next (s.withIngest s.pbuf .read) := by
  rw [exec_parseApply_of_enabled he, if_pos h]
  rfl

/-- A parse that takes bytes goes on behind them, with its event applied (R162). -/
theorem exec_parseApply_of_advance {s : State} (he : parseApplyEnabled s = true) (h : (parse s.cfg s.pbuf).2 ≠ 0) :
    exec .parseApply s = .next
      ((dispatch (parse s.cfg s.pbuf).1.toList s).withIngest (s.pbuf.drop (parse s.cfg s.pbuf).2) .parse) := by
  have hconsume : consume (parse s.cfg s.pbuf).2 s = s.withIngest (s.pbuf.drop (parse s.cfg s.pbuf).2) .parse := by
    obtain ⟨-, -, hing⟩ := (parseApplyEnabled_iff s).mp he
    rw [consume, State.withIngest, ← hing]
  rw [exec_parseApply_of_enabled he, if_neg h, hconsume]
  cases (parse s.cfg s.pbuf).1 with
  | none => rfl
  | some ev => exact congrArg Host.Outcome.next (emit_withIngest ev _ _ s)

theorem parseSteps_of_next {s t : State} (h : exec .parseApply s = .next t) (n : Nat) :
    parseSteps (n + 1) s = parseSteps n t := by
  rw [parseSteps, h]

/-- Once back in READ, further steps of a parse run do nothing. -/
theorem parseSteps_of_disabled {s : State} (h : parseApplyEnabled s = false) (n : Nat) : parseSteps n s = s := by
  induction n with
  | zero => rfl
  | succ n ih => rw [parseSteps_of_next (exec_parseApply_of_disabled h), ih]

/-- A parse run with as many steps as it can need, and one to end it, applies the events of parseAll and leaves its
residue (R172). -/
theorem parseSteps_eq {n : Nat} {s : State} (he : parseApplyEnabled s = true) (hn : s.pbuf.length ≤ n) :
    parseSteps (n + 1) s =
      (dispatch (parseAll s.cfg s.pbuf).1 s).withIngest (parseAll s.cfg s.pbuf).2 .read := by
  induction n generalizing s with
  | zero =>
    have hnil : s.pbuf = [] := List.eq_nil_of_length_eq_zero (Nat.le_zero.mp hn)
    rw [parseSteps_of_next (exec_parseApply_of_stop he (by rw [hnil]; rfl)), hnil]
    rfl
  | succ n ih =>
    by_cases hstop : (parse s.cfg s.pbuf).2 = 0
    · rw [parseSteps_of_next (exec_parseApply_of_stop he hstop), parseAll_of_stop hstop]
      exact parseSteps_of_disabled (by simp [parseApplyEnabled, State.withIngest]) _
    · have hlt := length_drop_consumed_lt hstop
      rw [parseSteps_of_next (exec_parseApply_of_advance he hstop), parseAll_of_advance hstop, dispatch_append]
      obtain ⟨vs, v, hfirst⟩ := dispatch_spec (parse s.cfg s.pbuf).1.toList s
      obtain ⟨hmode, hrun, -⟩ := (parseApplyEnabled_iff s).mp he
      rw [ih ((parseApplyEnabled_iff _).mpr ⟨by rw [hfirst]; exact hmode, by rw [hfirst]; exact hrun, rfl⟩)
        (Nat.le_of_lt_succ (hlt.trans_le hn)), dispatch_withIngest, hfirst]
      rfl

/-- Settles O21: the parse run with len(PBUF) + 1 steps. -/
theorem parseRunAppliesItsEventsInOrder : Obligations.ParseRunAppliesItsEventsInOrder := by
  intro s hmode hrun hing
  exact parseSteps_eq ((parseApplyEnabled_iff s).mpr ⟨hmode, hrun, hing⟩) le_rfl

/-- A residue by its head byte's quotient (R172). -/
theorem isResidue_cases {bs : List Byte} (h : isResidue bs = true) :
    bs = [] ∨
      (∃ b, bs = [b] ∧ (b.toNat / 16 = 8 ∨ b.toNat / 16 = 9 ∨ b.toNat / 16 = 11 ∨ b.toNat / 16 = 12)) ∨
      ∃ b x, bs = [b, x] ∧ (b.toNat / 16 = 8 ∨ b.toNat / 16 = 9 ∨ b.toNat / 16 = 11) := by
  match bs with
  | [] => exact .inl rfl
  | [b] =>
    rcases headByte_cases b with hdrop | ⟨t, ch, rfl⟩
    · simp [isResidue, hdrop] at h
    · refine .inr (.inl ⟨_, rfl, ?_⟩)
      rw [toNat_statusByte_div]
      cases t <;> decide
  | [b, x] =>
    rcases headByte_cases b with hdrop | ⟨t, ch, rfl⟩
    · simp [isResidue, hdrop] at h
    · have ht : frameLength t = 3 := by simpa [isResidue] using h
      refine .inr (.inr ⟨_, x, rfl, ?_⟩)
      rw [toNat_statusByte_div]
      cases t with
      | programChange => cases ht
      | _ => decide
  | _ :: _ :: _ :: _ => cases h

/-- Settles O20: len(PBUF) + 1 steps leave what parseAll leaves (O21), of which a further parse takes nothing. -/
theorem parseRunsEndWithShortResidue : Obligations.ParseRunsEndWithShortResidue := by
  intro s hmode hrun hing
  refine ⟨s.pbuf.length + 1, le_rfl, ?_⟩
  rw [parseRunAppliesItsEventsInOrder s hmode hrun hing]
  exact ⟨rfl, isResidue_cases (isResidue_of_parse_zero (parse_residue s.cfg s.pbuf))⟩

end Sys2Proof.Machine
end

section
/-! O22: what the two steps that read the link append (40_detector.md R140, 41_parser.md R160). -/

namespace Sys2Proof.Machine

/-- A LinkRead whose draw is ok, scripted or free, with every field it changes (R71, R72). -/
theorem linkRead_of_nextRead {s : State} {k : Nat} (h : (nextRead s).1 = .ok k) (max : Nat) :
    linkRead max s = (.ok (s.link.take (min k max)), { s with
      readDraws := s.readDraws.tail
      oracle := if s.readDraws = [] then s.oracle + 1 else s.oracle
      link := s.link.drop (min k max) }) := by
  rw [linkRead, nextRead_eq, h]
  rfl

/-- Settles O22: both steps are enabled and append what their LinkRead delivers. -/
theorem linkReadsAppendLinkBytes : Obligations.LinkReadsAppendLinkBytes := by
  intro s k hdraw
  refine ⟨fun hmode hrun hing => ?_, fun hprobing hroom hopen => ?_⟩
  · have henabled : ingestReadEnabled s = true := by simp [ingestReadEnabled, hmode, hrun, hing]
    simp only [exec, execIngestRead, if_pos henabled, linkRead_of_nextRead hdraw]
  · have henabled : probeReadEnabled s = true := by simp [probeReadEnabled, hprobing, hroom, hopen]
    simp only [exec, execProbeRead, if_pos henabled, linkRead_of_nextRead hdraw]

end Sys2Proof.Machine
end

section
/-! O35: a block of one slot (42_voice.md R201). Its short-circuit is tested once, and its loop is an iteration of one
sample. -/

namespace Sys2Proof.Machine

/-- The loop of R201: its outputs are those of the iterates of one sample, and its slot is the last iterate. -/
theorem voiceRun_eq_iterate (cfg : Config) (n : Nat) (v : Voice) :
    voiceRun cfg n v =
      ((List.range n).map fun j => (voiceSample cfg ((fun u => (voiceSample cfg u).2)^[j] v)).1,
        (fun u => (voiceSample cfg u).2)^[n] v) := by
  induction n generalizing v with
  | zero => rfl
  | succ n ih => simp [voiceRun, ih, List.range_succ_eq_map, Function.comp_def]

theorem voiceSilent_iff (v : Voice) : voiceSilent v = true ↔ v.active = false ∧ fle v.env fZERO = true := by
  simp [voiceSilent]

theorem voiceBlock_of_silent {v : Voice} (h : voiceSilent v = true) (cfg : Config) (n : Nat) :
    voiceBlock cfg n v = (List.replicate n fZERO, v) := if_pos h

theorem voiceBlock_of_not_silent {v : Voice} (h : ¬ voiceSilent v = true) (cfg : Config) (n : Nat) :
    voiceBlock cfg n v = voiceRun cfg n v := if_neg h

/-- Settles O35: the two clauses are the two branches of the short-circuit. -/
theorem voiceBlockRunsItsSamples : Obligations.VoiceBlockRunsItsSamples := by
  intro cfg n v
  refine ⟨fun hidle hzero => voiceBlock_of_silent ((voiceSilent_iff v).mpr ⟨hidle, hzero⟩) cfg n, ?_⟩
  intro hruns
  have hsounds : ¬ voiceSilent v = true := by
    rw [voiceSilent_iff]
    rintro ⟨hidle, hzero⟩
    rcases hruns with hactive | hpositive
    · exact absurd (hactive.symm.trans hidle) (by decide)
    · exact absurd (hpositive.symm.trans hzero) (by decide)
  rw [voiceBlock_of_not_silent hsounds, voiceRun_eq_iterate]
  exact ⟨rfl, rfl⟩

end Sys2Proof.Machine
end

section
/-! O34: one sample of a slot, an equation for each branch of the envelope update (42_voice.md R194 to R197), and what
the update leaves alone. -/

namespace Sys2Proof.Machine

theorem envUpdate_of_attack {v : Voice} (h : v.est = .attack) (cfg : Config) :
    envUpdate cfg v = attackUpdate cfg v := by
  simp only [envUpdate, h]

theorem envUpdate_of_sustain {v : Voice} (h : v.est = .sustain) (cfg : Config) :
    envUpdate cfg v = sustainUpdate cfg v := by
  simp only [envUpdate, h]

theorem envUpdate_of_release {v : Voice} (h : v.est = .release) (cfg : Config) :
    envUpdate cfg v = releaseUpdate cfg v := by
  simp only [envUpdate, h]

/-- The envelope an attack sample reaches, before it is compared with 1.0 (R195). -/
def attackLevel (cfg : Config) (v : Voice) : F64 := fadd v.env (fdiv fONE (i2f (cfg.attackSamples : Int)))

/-- The envelope a release sample reaches, before it is compared with 0.0 (R197). -/
def releaseLevel (cfg : Config) (v : Voice) : F64 := fsub v.env (fdiv v.rsl (i2f (cfg.releaseSamples : Int)))

theorem attackUpdate_of_one_le {cfg : Config} {v : Voice} (h : fle fONE (attackLevel cfg v) = true) :
    attackUpdate cfg v = { v with env := fONE, est := .sustain } := if_pos h

theorem attackUpdate_of_not_one_le {cfg : Config} {v : Voice} (h : fle fONE (attackLevel cfg v) = false) :
    attackUpdate cfg v = { v with env := attackLevel cfg v } := if_neg (Bool.eq_false_iff.mp h)

theorem releaseUpdate_of_le_zero {cfg : Config} {v : Voice} (h : fle (releaseLevel cfg v) fZERO = true) :
    releaseUpdate cfg v = { v with env := fZERO, active := false } := if_pos h

theorem releaseUpdate_of_not_le_zero {cfg : Config} {v : Voice} (h : fle (releaseLevel cfg v) fZERO = false) :
    releaseUpdate cfg v = { v with env := releaseLevel cfg v } := if_neg (Bool.eq_false_iff.mp h)

/-- The envelope update writes env, est and active alone. -/
theorem envUpdate_frame (cfg : Config) (v : Voice) :
    ∃ env est active, envUpdate cfg v = { v with env := env, est := est, active := active } := by
  cases he : v.est with
  | attack =>
    rw [envUpdate_of_attack he]
    cases h : fle fONE (attackLevel cfg v) with
    | true => exact ⟨_, _, _, attackUpdate_of_one_le h⟩
    | false => exact ⟨_, _, _, attackUpdate_of_not_one_le h⟩
  | sustain => exact ⟨_, _, _, envUpdate_of_sustain he cfg⟩
  | release =>
    rw [envUpdate_of_release he]
    cases h : fle (releaseLevel cfg v) fZERO with
    | true => exact ⟨_, _, _, releaseUpdate_of_le_zero h⟩
    | false => exact ⟨_, _, _, releaseUpdate_of_not_le_zero h⟩

@[simp] theorem envUpdate_phase (cfg : Config) (v : Voice) : (envUpdate cfg v).phase = v.phase := by
  obtain ⟨_, _, _, h⟩ := envUpdate_frame cfg v
  rw [h]

@[simp] theorem envUpdate_vel (cfg : Config) (v : Voice) : (envUpdate cfg v).vel = v.vel := by
  obtain ⟨_, _, _, h⟩ := envUpdate_frame cfg v
  rw [h]

/-- One sample, from the slot its envelope update gives (R194). -/
theorem voiceSample_of_envUpdate {cfg : Config} {v u : Voice} (h : envUpdate cfg v = u) :
    voiceSample cfg v = (voiceOut cfg u, { u with phase := nextPhase cfg u }) := by
  rw [← h]
  rfl

/-- Settles O34: each clause is one branch of the envelope update, put into R194's order. -/
theorem sampleFollowsTheEnvelope : Obligations.SampleFollowsTheEnvelope := by
  refine ⟨rfl, rfl, fun cfg v => ?_⟩
  intro out phase up down
  refine ⟨fun he h => ?_, fun he h => ?_, fun he => ?_, fun he h => ?_, fun he h => ?_⟩
  · rw [voiceSample_of_envUpdate ((envUpdate_of_attack he cfg).trans (attackUpdate_of_one_le h))]
    rfl
  · rw [voiceSample_of_envUpdate ((envUpdate_of_attack he cfg).trans (attackUpdate_of_not_one_le h))]
    rfl
  · rw [voiceSample_of_envUpdate (envUpdate_of_sustain he cfg)]
    rfl
  · rw [voiceSample_of_envUpdate ((envUpdate_of_release he cfg).trans (releaseUpdate_of_le_zero h))]
    rfl
  · rw [voiceSample_of_envUpdate ((envUpdate_of_release he cfg).trans (releaseUpdate_of_not_le_zero h))]
    rfl

end Sys2Proof.Machine
end

section
/-! O38: the release (42_voice.md R197, R203). A difference rounds to at most its first operand, because that operand is
a pattern and rounding never passes a pattern. -/

namespace Sys2Proof.Machine

/-- R7's counts of samples. -/
theorem counts_of_configAdmitted {cfg : Config} (h : configAdmitted cfg = true) :
    1 ≤ cfg.attackSamples ∧ 1 ≤ cfg.releaseSamples := by
  simp only [configAdmitted, Bool.and_eq_true, decide_eq_true_eq] at h
  tauto

/-- Rounding never passes the magnitude of a pattern (R12). -/
theorem magBits_roundMag_le_mag {x : F64} {n d : Nat} (hd : 0 < d) (hx : isNaN x = false) (h : n ≤ mag x * d) :
    magBits (roundMag n d) ≤ mag x := by
  rw [mag_eq_magBits] at h ⊢
  exact magBits_roundMag_le hd (toNat_le_of_not_nan hx) h

/-- A sum that is at most 0 rounds to one that is at most 0 (R12). -/
theorem quanta_fadd_nonpos {x y : F64} (hx : isNaN x = false) (hy : isNaN y = false) (ix : isInf x = false)
    (iy : isInf y = false) (h : quanta x + quanta y ≤ 0) : quanta (fadd x y) ≤ 0 := by
  simp only [fadd, hx, hy, ix, iy, Bool.or_self, Bool.false_eq_true, if_false]
  split
  · rw [quanta_roundQ, magBits_roundMag_zero (by norm_num)]
    simp
  · rw [quanta_roundQ, decide_eq_true (by omega)]
    simp

/-- Taking away a value that is at least 0 never raises one that is at least 0. -/
theorem fsub_le {x y : F64} (hx : NonNeg x) (ix : isInf x = false) (hy : NonNeg y) (iy : isInf y = false) :
    fle (fsub x y) x = true := by
  have hny : isNaN (fneg y) = false := (fneg_isNaN y).trans hy.1
  have iny : isInf (fneg y) = false := (fneg_isInf y).trans iy
  obtain ⟨hn, hmag, hsign⟩ := fadd_finite hx.1 hny ix iny
  have hxq := hx.quanta_eq
  have hyq := hy.quanta_eq
  rw [fneg_quanta] at hmag hsign
  rw [fle_iff]
  refine ⟨hn, hx.1, ?_⟩
  rcases Int.le_total 0 (quanta x + -quanta y) with hpos | hneg
  · calc quanta (fsub x y) = (mag (fsub x y) : Int) := quanta_of_nonneg (hsign hpos)
      _ ≤ (mag x : Int) := by
        rw [fsub, hmag]
        exact_mod_cast magBits_roundMag_le_mag (by norm_num) hx.1 (by omega)
      _ = quanta x := hxq.symm
  · exact (quanta_fadd_nonpos hx.1 hny ix iny (by rwa [fneg_quanta])).trans hx.2

/-- The envelope a release sample reaches is at most the one it had (R197). -/
theorem releaseLevel_le {cfg : Config} {v : Voice} (hcount : 1 ≤ cfg.releaseSamples)
    (henv : (fle fZERO v.env && fle v.env fONE) = true) (hrsl : (fle fZERO v.rsl && fle v.rsl fONE) = true) :
    fle (releaseLevel cfg v) v.env = true := by
  obtain ⟨he, he1⟩ := (unit_iff _).mp henv
  obtain ⟨hr, hr1⟩ := (unit_iff _).mp hrsl
  obtain ⟨hi, hs, h1⟩ := i2f_pos hcount
  obtain ⟨hstep, hstep1, -⟩ := fdiv_range hr (unit_not_inf hr1) hi hs h1
  exact fsub_le he (unit_not_inf he1) hstep (unit_not_inf (hstep1 hr1))

/-- Settles O38: a release sample ends at 0.0, which is at most env, or at the level it reaches. -/
theorem releaseNeverRaisesTheEnvelope : Obligations.ReleaseNeverRaisesTheEnvelope := by
  intro dc cfg v ha hsafe hest
  obtain ⟨-, hcount⟩ := counts_of_configAdmitted ha
  obtain ⟨henv, -, -, -, -, hrsl, -⟩ := (voiceSafe_iff dc v).mp hsafe
  have hrelease := envUpdate_of_release hest cfg
  cases hend : fle (releaseLevel cfg v) fZERO with
  | true =>
    rw [voiceSample_of_envUpdate (hrelease.trans (releaseUpdate_of_le_zero hend))]
    exact ((Bool.and_eq_true _ _).mp henv).1
  | false =>
    rw [voiceSample_of_envUpdate (hrelease.trans (releaseUpdate_of_not_le_zero hend))]
    exact releaseLevel_le hcount henv hrsl

end Sys2Proof.Machine
end

section
/-! O37: the range of the output (42_voice.md R198, R199, R202, R204). The sawtooth, the clamped envelope and the
velocity all lie in [−1.0, 1.0], and a factor there never makes a product pass the other factor. -/

namespace Sys2Proof.Machine

/-- The pattern is no NaN and its value lies in [−1.0, 1.0]. -/
def WithinOne (x : F64) : Prop := isNaN x = false ∧ mag x ≤ quantaPerOne

theorem withinOne_of_unit {x : F64} (h : (fle fZERO x && fle x fONE) = true) : WithinOne x :=
  ((unit_iff x).mp h).imp_left And.left

/-- A factor in [−1.0, 1.0] never makes a magnitude greater (R12). -/
theorem WithinOne.fmul_le {x y : F64} (hx : WithinOne x) (hy : isNaN y = false) (iy : isInf y = false) :
    isNaN (fmul x y) = false ∧ mag (fmul x y) ≤ mag y := by
  obtain ⟨hxn, hx1⟩ := hx
  have hmul : fmul x y = roundQ (signBit x != signBit y) (mag x * mag y) quantaPerOne := by
    simp [Machine.fmul, hxn, hy, unit_not_inf hx1, iy]
  rw [hmul, mag_roundQ]
  refine ⟨isNaN_roundQ _ _ _, magBits_roundMag_le_mag quantaPerOne_pos hy ?_⟩
  rw [Nat.mul_comm]
  exact Nat.mul_le_mul_left _ hx1

theorem WithinOne.fmul {x y : F64} (hx : WithinOne x) (hy : WithinOne y) : WithinOne (fmul x y) :=
  (hx.fmul_le hy.1 (unit_not_inf hy.2)).imp_right fun h => h.trans hy.2

theorem WithinOne.fmax {x y : F64} (hx : WithinOne x) (hy : WithinOne y) : WithinOne (fmax x y) := by
  unfold Machine.fmax
  split
  · exact hy
  · exact hx

/-- PI is a finite pattern that is at least 1.0, and TWO_PI is exactly twice PI (R14). -/
theorem fPI_facts :
    isNaN fPI = false ∧ isInf fPI = false ∧ signBit fPI = false ∧ quantaPerOne ≤ mag fPI ∧
      mag fTWO_PI = 2 * mag fPI := by
  decide +kernel

/-- 2.0, in quanta, as the power that rounding is compared with. -/
theorem two_mul_quantaPerOne : 2 * quantaPerOne = 2 ^ (52 + 1023) := by rw [quantaPerOne, ← Nat.pow_succ']

/-- A legal phase is finite, at least 0 and below TWO_PI (R34). -/
theorem phase_range {p : F64} (h : (fle fZERO p && flt p fTWO_PI) = true) :
    NonNeg p ∧ isInf p = false ∧ mag p < mag fTWO_PI := by
  rw [Bool.and_eq_true, fle_iff, flt_iff, quanta_fZERO, quanta_fTWO_PI] at h
  obtain ⟨⟨-, hn, h0⟩, -, -, hlt⟩ := h
  have hp : NonNeg p := ⟨hn, h0⟩
  rw [hp.quanta_eq, Nat.cast_lt] at hlt
  have hbound : mag p ≤ 2 ^ 1077 := hlt.le.trans mag_fTWO_PI_le
  exact ⟨hp, isInf_eq_false (lt_of_le_of_lt hbound (pow_lt_inf (by norm_num))), hlt⟩

/-- `phase / PI` lies in [0.0, 2.0] (R198): it is below 2, and rounding does not pass 2. -/
theorem phase_div_pi_range {p : F64} (h : (fle fZERO p && flt p fTWO_PI) = true) :
    NonNeg (fdiv p fPI) ∧ mag (fdiv p fPI) ≤ 2 * quantaPerOne := by
  obtain ⟨hp, ip, hlt⟩ := phase_range h
  obtain ⟨hn, hi, hs, hone, htwice⟩ := fPI_facts
  have hpos : 0 < mag fPI := lt_of_lt_of_le quantaPerOne_pos hone
  have hpi : 0 ≤ quanta fPI := by
    rw [quanta, hs]
    exact Int.natCast_nonneg _
  have hdiv : fdiv p fPI = roundQ (signBit p != signBit fPI) (quantaPerOne * mag p) (mag fPI) := by
    rw [fdiv, hp.1, hn, ip, hi, if_neg (by decide), if_neg (by decide), if_neg (by decide), if_neg hpos.ne']
  refine ⟨(fdiv_range hp ip ⟨hn, hpi⟩ hs hone).1, ?_⟩
  rw [hdiv, mag_roundQ, two_mul_quantaPerOne]
  refine magBits_roundMag_le_pow hpos (by norm_num) ?_
  calc quantaPerOne * mag p ≤ quantaPerOne * mag fTWO_PI := Nat.mul_le_mul_left _ hlt.le
    _ = 2 ^ (52 + 1023) * mag fPI := by
      rw [htwice, ← two_mul_quantaPerOne, Nat.mul_left_comm, Nat.mul_assoc]

/-- The sawtooth lies in [−1.0, 1.0] (R198). -/
theorem waveform_withinOne {v : Voice} (h : (fle fZERO v.phase && flt v.phase fTWO_PI) = true) :
    WithinOne (waveform v) := by
  obtain ⟨hq, hq2⟩ := phase_div_pi_range h
  obtain ⟨hone, hone1⟩ := (unit_iff _).mp unit_fONE
  have htwo : 2 * quantaPerOne < infQuanta := two_mul_quantaPerOne ▸ pow_lt_inf (by norm_num)
  obtain ⟨hn, hmag, -⟩ := fadd_finite (y := fneg fONE) hq.1 ((fneg_isNaN _).trans hone.1)
    (isInf_eq_false (lt_of_le_of_lt hq2 htwo)) ((fneg_isInf _).trans (unit_not_inf hone1))
  refine ⟨hn, ?_⟩
  rw [waveform, fsub, hmag, fneg_quanta, quanta_fONE, hq.quanta_eq]
  exact magBits_roundMag_le_one (by norm_num) (by omega)

/-- The envelope update keeps env in [0.0, 1.0], whether the slot is active or not (R195 to R197, R202). -/
theorem envUpdate_env_unit {cfg : Config} {v : Voice} (ha : configAdmitted cfg = true)
    (hlv : levelsInRange cfg = true) (henv : (fle fZERO v.env && fle v.env fONE) = true)
    (hrsl : (fle fZERO v.rsl && fle v.rsl fONE) = true) :
    (fle fZERO (envUpdate cfg v).env && fle (envUpdate cfg v).env fONE) = true := by
  obtain ⟨hattack, hrelease⟩ := counts_of_configAdmitted ha
  cases he : v.est with
  | attack =>
    rw [envUpdate_of_attack he]
    exact attack_env hattack henv
  | sustain =>
    rw [envUpdate_of_sustain he]
    exact unit_sustain hlv
  | release =>
    rw [envUpdate_of_release he]
    exact release_env hrelease henv hrsl

/-- HEADROOM in range is a real number that is at least 0.0 (R199). -/
theorem headroom_range {cfg : Config} (h : levelsInRange cfg = true) :
    NonNeg cfg.headroom ∧ isInf cfg.headroom = false := by
  simp only [levelsInRange, Bool.and_eq_true, fle_iff, quanta_fZERO, isFinite, bne_iff_ne] at h
  obtain ⟨-, ⟨-, hn, h0⟩, hfin⟩ := h
  exact ⟨⟨hn, h0⟩, by simp [isInf, hfin]⟩

/-- A value whose magnitude is at most that of `h` lies in [−h, h]. -/
theorem within_of_mag_le {x h : F64} (hx : isNaN x = false) (hh : NonNeg h) (hle : mag x ≤ mag h) :
    fle (fneg h) x = true ∧ fle x h = true := by
  have hxq := quanta_natAbs x
  have hhq := hh.quanta_eq
  rw [fle_iff, fle_iff, fneg_isNaN, fneg_quanta]
  exact ⟨⟨hh.1, hx, by omega⟩, hx, hh.1, by omega⟩

/-- Settles O37: the three factors before HEADROOM lie in [−1.0, 1.0], so the product never passes HEADROOM. -/
theorem voiceOutputStaysWithinHeadroom : Obligations.VoiceOutputStaysWithinHeadroom := by
  intro cfg v ha hlv hsafe
  obtain ⟨henv, hphase, -, -, hvel, hrsl, -⟩ := (voiceSafe_iff .strict v).mp hsafe
  obtain ⟨hheadroom, hfinite⟩ := headroom_range hlv
  have hwave : WithinOne (waveform (envUpdate cfg v)) := waveform_withinOne (by rwa [envUpdate_phase])
  have hclamped : WithinOne (fmax (envUpdate cfg v).env fZERO) :=
    (withinOne_of_unit (envUpdate_env_unit ha hlv henv hrsl)).fmax (withinOne_of_unit unit_fZERO)
  have hvelocity : WithinOne (envUpdate cfg v).vel := by
    rw [envUpdate_vel]
    exact withinOne_of_unit hvel
  obtain ⟨hn, hle⟩ := ((hwave.fmul hclamped).fmul hvelocity).fmul_le hheadroom.1 hfinite
  exact within_of_mag_le hn hheadroom hle

end Sys2Proof.Machine
end

section
/-! O33 and O36: the FREQ table against its formula (42_voice.md R191) and the worked example (R206), by evaluation of
the model. -/

namespace Sys2Proof.Machine

/-- The 256 entries, each against R191's formula. -/
theorem freqOf_eq_freqFormula : ∀ n : Byte, freqOf n = freqFormula n := by decide +kernel

/-- Settles O33. -/
theorem frequencyTableIsItsFormula : Obligations.FrequencyTableIsItsFormula :=
  ⟨freqOf_eq_freqFormula, by decide, by decide, by decide⟩

/-- Settles O36: the note-on and its samples, run in binary64. -/
theorem workedVoiceExample : Obligations.WorkedVoiceExample := by
  unfold Obligations.WorkedVoiceExample
  decide +kernel

end Sys2Proof.Machine
end

section
/-! O54: every delivered sample is an i16 (43_pool.md R243, 44_raw_resampler.md R282, 20_memory.md R78). The two
generators alone write the sink. A GENERATE clips each sample; a RAW_STEP interpolates between sign-extended 16-bit
words or zeros, and an interpolated value never leaves an interval around 0 that holds the samples it lies between. -/

namespace Sys2Proof.Machine

/-- R11's clip, into an interval that is not empty. -/
theorem clip_mem_Icc {lo hi : Int} (h : lo ≤ hi) (v : Int) : clip v lo hi ∈ Set.Icc lo hi :=
  ⟨le_min (le_max_right v lo) h, min_le_right _ _⟩

theorem isI16_iff (x : Sample) : isI16 x = true ↔ x ∈ Set.Icc (-32768 : Int) 32767 := by simp [isI16]

/-- R240's samples are clipped to an i16. -/
theorem isI16_of_generateBlock {n : Nat} {s : State} {x : Sample} (hx : x ∈ generateBlock n s) : isI16 x = true := by
  obtain ⟨j, -, rfl⟩ := List.mem_map.mp hx
  exact (isI16_iff _).mpr (clip_mem_Icc (by norm_num) _)

/-- A raw slot holds the value of a 16-bit word, or 0 where the filter met it (R273, R274). -/
theorem isI16_rawValue (limit : Nat) (lo hi : Byte) : isI16 (rawValue limit lo hi) = true := by
  have hmin := BitVec.le_toInt (hi ++ lo)
  have hmax := BitVec.toInt_lt (x := hi ++ lo)
  rw [rawValue_eq, isI16_iff]
  split
  · exact ⟨by norm_num, by norm_num⟩
  · exact ⟨by omega, by omega⟩

section
variable {lo hi : Int}

/-- R11's rounding toward zero stays inside an interval around 0 that the exact quotient lies in. -/
theorem truncDiv_mem_Icc (h0 : (0 : Int) ∈ Set.Icc lo hi) {a : Int} {b : Nat}
    (ha : a ∈ Set.Icc (lo * b) (hi * b)) : truncDiv a b ∈ Set.Icc lo hi := by
  obtain ⟨hlo, hhi⟩ := h0
  obtain ⟨hal, hah⟩ := ha
  have hquotient (c : Int) (hc : |a| ≤ |c| * b) : a.natAbs / b ≤ c.natAbs :=
    Nat.div_le_of_le_mul (by zify; rwa [Int.mul_comm])
  unfold truncDiv
  split
  · have hq := hquotient lo (by rw [abs_of_nonpos hlo, abs_of_neg ‹_›]; linarith)
    generalize a.natAbs / b = q at hq ⊢
    exact ⟨by omega, by omega⟩
  · have hq := hquotient hi (by rw [abs_of_nonneg hhi, abs_of_nonneg (by omega)]; exact hah)
    generalize a.natAbs / b = q at hq ⊢
    exact ⟨by omega, by omega⟩

/-- A weighted sum of two values of an interval, with weights `q − k` and `k`, lies in `q` times the interval. -/
theorem interpolation_mem_Icc {x y : Int} (hx : x ∈ Set.Icc lo hi) (hy : y ∈ Set.Icc lo hi) {k q : Nat} (hk : k ≤ q) :
    x * (q : Int) + (y - x) * (k : Int) ∈ Set.Icc (lo * q) (hi * q) := by
  obtain ⟨m, rfl⟩ := Nat.exists_eq_add_of_le hk
  have hsum : x * ((k + m : Nat) : Int) + (y - x) * (k : Int) = x * m + y * k := by push_cast; ring
  have hxl := Int.mul_le_mul_of_nonneg_right hx.1 (Int.natCast_nonneg m)
  have hxh := Int.mul_le_mul_of_nonneg_right hx.2 (Int.natCast_nonneg m)
  have hyl := Int.mul_le_mul_of_nonneg_right hy.1 (Int.natCast_nonneg k)
  have hyh := Int.mul_le_mul_of_nonneg_right hy.2 (Int.natCast_nonneg k)
  rw [hsum]
  push_cast
  exact ⟨by linarith, by linarith⟩

theorem getD_mem_Icc (h0 : (0 : Int) ∈ Set.Icc lo hi) {s : List Sample} (hs : ∀ x ∈ s, x ∈ Set.Icc lo hi) (i : Nat) :
    s.getD i 0 ∈ Set.Icc lo hi := by
  rw [List.getD_eq_getElem?_getD]
  cases hi : s[i]? with
  | none => exact h0
  | some x => exact hs x (List.mem_of_getElem? hi)

theorem stepPoint_mem_Icc (h0 : (0 : Int) ∈ Set.Icc lo hi) {s : List Sample} (hs : ∀ x ∈ s, x ∈ Set.Icc lo hi)
    {r k : Nat} (hk : k ≤ r) (i : Nat) : stepPoint s r i k ∈ Set.Icc lo hi := by
  unfold stepPoint
  split
  · exact truncDiv_mem_Icc h0 (interpolation_mem_Icc (getD_mem_Icc h0 hs _) (getD_mem_Icc h0 hs _) hk)
  · exact getD_mem_Icc h0 hs _

theorem endpointPoint_mem_Icc (h0 : (0 : Int) ∈ Set.Icc lo hi) {s : List Sample} (hs : ∀ x ∈ s, x ∈ Set.Icc lo hi)
    {q : Nat} (hq : 0 < q) (j : Nat) : endpointPoint s q j ∈ Set.Icc lo hi := by
  simp only [endpointPoint]
  split
  · exact getD_mem_Icc h0 hs _
  · exact truncDiv_mem_Icc h0
      (interpolation_mem_Icc (getD_mem_Icc h0 hs _) (getD_mem_Icc h0 hs _) (Nat.mod_lt _ hq).le)

/-- On both grids the upsampled block stays inside any interval around 0 that holds the samples (R276, R277). -/
theorem upsample_mem_Icc (h0 : (0 : Int) ∈ Set.Icc lo hi) {s : List Sample} (hs : ∀ x ∈ s, x ∈ Set.Icc lo hi)
    (grid : ResampleGrid) (r : Nat) : ∀ x ∈ upsample grid s r, x ∈ Set.Icc lo hi := by
  intro x hx
  match s with
  | [] => cases hx
  | [y] =>
    rw [List.eq_of_mem_replicate hx]
    exact hs y (List.mem_singleton_self y)
  | y :: z :: rest =>
    cases grid with
    | step =>
      obtain ⟨j, hj, rfl⟩ := List.mem_map.mp hx
      have hr : 0 < r := Nat.pos_of_lt_mul_left (List.mem_range.mp hj)
      exact stepPoint_mem_Icc h0 hs (Nat.mod_lt j hr).le _
    | endpoint =>
      obtain ⟨j, hj, rfl⟩ := List.mem_map.mp hx
      have hr : 0 < r := Nat.pos_of_lt_mul_left (List.mem_range.mp hj)
      have hlen : 2 * 1 ≤ (y :: z :: rest).length * r := Nat.mul_le_mul (by simp) hr
      exact endpointPoint_mem_Icc h0 hs (by omega) j

end

/-- What holds of 0 and of every filtered word holds of every slot of a block in progress (R271 to R274). -/
theorem rawSlots_forall {P : Sample → Prop} (h0 : P 0) (n : Nat) {s : State}
    (hvalue : ∀ lo hi, P (rawValue s.cfg.noiseLimit lo hi)) (hs : ∀ x ∈ s.rawBlock, P x) :
    ∀ x ∈ (rawSlots n s).2.rawBlock, P x := by
  induction n generalizing s with
  | zero => exact hs
  | succ n ih =>
    cases hr : linkRead 2 s with
    | mk res t =>
      obtain ⟨ht, -⟩ := linkRead_spec hr
      have hcfg : t.cfg = s.cfg := by rw [ht]
      have hblock : t.rawBlock = s.rawBlock := by rw [ht]
      cases res with
      | err => simpa only [rawSlots, hr, hblock] using hs
      | ok bs =>
        simp only [rawSlots, hr]
        have hpush (v : Sample) (hv : P v) : ∀ x ∈ (pushSample v t).rawBlock, P x := by
          simp only [pushSample_rawBlock, hblock, List.mem_append, List.mem_singleton]
          rintro x (hx | rfl)
          · exact hs x hx
          · exact hv
        unfold rawSlot
        split
        · exact ih (by simpa [hcfg] using hvalue) (hpush _ (hcfg ▸ hvalue _ _))
        · exact ih (by simpa [hcfg] using hvalue) (hpush 0 h0)

/-- The block a RAW_STEP writes is upsampled from BLOCK_SAMPLES slots, of which holds what holds of 0 and of every
filtered word (R270 to R274). -/
theorem rawStep_sink {P : Sample → Prop} (h0 : P 0) {s t : State}
    (hvalue : ∀ lo hi, P (rawValue s.cfg.noiseLimit lo hi)) (h : exec .rawStep s = .next t) :
    t.sink = s.sink ∨ ∃ slots : List Sample, (∀ x ∈ slots, P x) ∧ slots.length = s.cfg.blockSamples ∧
      t.sink = s.sink ++ [upsample s.cfg.resampleGrid slots s.cfg.upsampleRatio] := by
  rcases rawStep_cases h with rfl | ⟨-, -, -, s1, hs1⟩
  · exact .inl rfl
  · obtain ⟨_, d, o, b, hslots, -, hlength⟩ := rawSlots_spec s.cfg.blockSamples { s with rawBlock := [] }
    have hall := rawSlots_forall (s := { s with rawBlock := [] }) h0 s.cfg.blockSamples hvalue (by simp)
    rcases hs1 with ⟨hrun, rfl⟩ | ⟨hrun, rfl⟩ <;> rw [hrun] at hslots hlength hall <;> cases hslots
    · exact .inl (by simp)
    · exact .inr ⟨b, hall, by simpa using hlength rfl, rfl⟩

/-- The blocks delivered so far hold i16 samples alone. -/
def SinkIsI16 (s : State) : Prop := ∀ b ∈ s.sink, ∀ x ∈ b, isI16 x = true

theorem SinkIsI16.append {s t : State} {block : Block} (hs : SinkIsI16 s) (hblock : ∀ x ∈ block, isI16 x = true)
    (ht : t.sink = s.sink ++ [block]) : SinkIsI16 t := by
  intro b hb
  rw [ht, List.mem_append, List.mem_singleton] at hb
  rcases hb with hb | rfl
  · exact hs b hb
  · exact hblock

theorem SinkIsI16.of_sink_eq {s t : State} (hs : SinkIsI16 s) (ht : t.sink = s.sink) : SinkIsI16 t := by
  rw [SinkIsI16, ht]
  exact hs

theorem exec_keeps_sinkIsI16 (x : Txn) {s t : State} (hs : SinkIsI16 s) (h : exec (txnInstr x) s = .next t) :
    SinkIsI16 t := by
  cases x with
  | generate n =>
    rcases generate_cases h with rfl | ⟨-, -, -, rfl⟩
    · exact hs
    · exact hs.append (fun _ => isI16_of_generateBlock) rfl
  | rawStep =>
    rcases rawStep_sink (P := (isI16 · = true)) rfl (isI16_rawValue _) h with hsame | ⟨slots, hslots, -, hsink⟩
    · exact hs.of_sink_eq hsame
    · refine hs.append (fun x hx => (isI16_iff x).mpr ?_) hsink
      exact upsample_mem_Icc (by norm_num) (fun y hy => (isI16_iff y).mp (hslots y hy)) _ _ x hx
  | _ => exact hs.of_sink_eq ((exec_writesOnlyItsOwn _ h).sink (by simp) (by simp))

/-- Settles O54: the scheduler's choice leaves the sink, and each transaction appends i16 samples alone. -/
theorem deliveredSamplesAreSixteenBit : Obligations.DeliveredSamplesAreSixteenBit := by
  intro s t hs hstep
  obtain ⟨-, x, sch, o, hexec⟩ := step_cases hstep
  exact exec_keeps_sinkIsI16 (s := { s with schedule := sch, oracle := o }) x hs hexec

end Sys2Proof.Machine
end

section
/-! O13 to O17: the frames, drops and WAIT (41_parser.md R163 to R170, 43_pool.md R230 to R237). Each is its bytes off
PBUF and its event dispatched, and each event is one update of the pool or of VOLUME. -/

namespace Sys2Proof.Machine

/-- A row of the MIDI path where PARSE_APPLY is enabled: it takes its bytes and dispatches its event, or takes none
and ends the parse run (R162). -/
theorem exec_of_onMidiPath {i : Instr} (hi : onMidiPath i = true) {s : State} (he : parseApplyEnabled s = true) :
    exec i s = .next
      (if consumedBy i = 0 then { s with ing := .read }
       else ((eventOf s.cfg i).elim id emit) (consume (consumedBy i) s)) := by
  cases i with
  | rawSample | linkOpen | probeRead | windowExpire | classify | sinkOpen | ingestRead | parseApply | generate | rawStep
  | stop | sinkFault => cases hi
  | _ => exact congrArg Host.Outcome.next (onFrame_of_enabled he _ _)

theorem emit_volume (ch : Nibble) (value : Byte) (s : State) :
    emit (.controlChange ch (ccVolumeNumber s.cfg) value) s = setVolume value s := if_pos rfl

theorem emit_panic {s : State} (h : s.cfg.ccPanic ≠ s.cfg.ccVolume) (ch : Nibble) (value : Byte) :
    emit (.controlChange ch (ccPanicNumber s.cfg) value) s = poolPanic s := by
  have hnumber : ccPanicNumber s.cfg ≠ ccVolumeNumber s.cfg := by
    simp only [ccPanicNumber, ccVolumeNumber]
    bv_omega
  rw [emit, if_neg hnumber, if_pos rfl]

theorem emit_ccOther {s : State} {ch : Nibble} {controller value : Byte}
    (h : wellFormed s.cfg (.ccOther ch controller value) = true) : emit (.controlChange ch controller value) s = s := by
  simp only [wellFormed, Bool.and_eq_true, bne_iff_ne] at h
  obtain ⟨⟨-, hvolume⟩, hpanic⟩ := h
  rw [emit, if_neg hvolume, if_neg hpanic]

/-- A note-on takes the first inactive slot (R231). -/
theorem allocate_of_first_inactive {before after : List Voice} {v : Voice} (hbefore : ∀ u ∈ before, u.active = true)
    (hv : v.active = false) : allocate (before ++ v :: after) = before.length := by
  have hnone : before.findIdx? (fun u => !u.active) = none := by simpa [List.findIdx?_eq_none_iff] using hbefore
  simp [allocate, List.findIdx?_append, hnone, List.findIdx?_cons, hv]

/-- With no slot inactive a note-on steals slot 0 (R231). -/
theorem allocate_of_all_active {vs : List Voice} (h : ∀ u ∈ vs, u.active = true) : allocate vs = 0 := by
  have hnone : vs.findIdx? (fun u => !u.active) = none := by simpa [List.findIdx?_eq_none_iff] using h
  rw [allocate, hnone]
  rfl

theorem modify_length_append {α : Type} (before after : List α) (v : α) (f : α → α) :
    (before ++ v :: after).modify before.length f = before ++ f v :: after := by
  induction before with
  | nil => rfl
  | cons b before ih => exact congrArg (b :: ·) ih

/-- R232 and R193 together: which slots a note-off moves, and how. -/
theorem noteOffSlot_eq (note : Byte) (v : Voice) :
    noteOffSlot note v =
      if v.active = true ∧ v.note = note ∧ v.est ≠ .release then { v with rsl := v.env, est := .release } else v := by
  by_cases hmatch : v.active = true ∧ v.note = note
  · by_cases hrel : v.est = .release
    · simp [noteOffSlot, voiceNoteOff, hrel]
    · simp [noteOffSlot, voiceNoteOff, hmatch, hrel]
  · rw [if_neg fun h => hmatch ⟨h.1, h.2.1⟩, noteOffSlot, if_neg (by simpa using hmatch)]

/-- Settles O13: the slot allocated is the first inactive one, or slot 0. -/
theorem noteOnStartsTheRightSlot : Obligations.NoteOnStartsTheRightSlot := by
  intro s ch note vel hmode hrun hing
  have hexec : exec (.noteOn ch note vel) s = .next (poolNoteOn note vel (consume 3 s)) :=
    exec_of_onMidiPath rfl ((parseApplyEnabled_iff s).mpr ⟨hmode, hrun, hing⟩)
  refine ⟨fun before v after hs hbefore hv => ?_, fun v after hs hall => ?_⟩
  · rw [hexec, poolNoteOn, consume_voices, hs, allocate_of_first_inactive hbefore hv, modify_length_append]
    rfl
  · rw [hexec, poolNoteOn, consume_voices, allocate_of_all_active hall, hs]
    rfl

/-- Settles O14: both rows dispatch one note-off. -/
theorem noteOffReleasesEveryMatchingSlot : Obligations.NoteOffReleasesEveryMatchingSlot := by
  intro s ch note relvel hmode hrun hing
  have he := (parseApplyEnabled_iff s).mpr ⟨hmode, hrun, hing⟩
  have heffect : poolNoteOff note (consume 3 s) = { s with
      pbuf := s.pbuf.drop 3
      voices := s.voices.map fun v =>
        if v.active = true ∧ v.note = note ∧ v.est ≠ .release then { v with rsl := v.env, est := .release }
        else v } := by
    rw [poolNoteOff, consume_voices, funext (noteOffSlot_eq note)]
    rfl
  dsimp only
  rw [← heffect]
  exact ⟨exec_of_onMidiPath rfl he, exec_of_onMidiPath rfl he⟩

/-- Settles O15. -/
theorem volumeControlWritesVolumeAlone : Obligations.VolumeControlWritesVolumeAlone := by
  intro s ch value hmode hrun hing
  rw [exec_of_onMidiPath rfl ((parseApplyEnabled_iff s).mpr ⟨hmode, hrun, hing⟩)]
  exact congrArg Host.Outcome.next (emit_volume ch value (consume 3 s))

/-- A panic's effect where PARSE_APPLY is enabled (R234). -/
theorem exec_ccPanic_of_enabled {s : State} (he : parseApplyEnabled s = true) (h : s.cfg.ccPanic ≠ s.cfg.ccVolume)
    (ch : Nibble) (value : Byte) : exec (.ccPanic ch value) s = .next (poolPanic (consume 3 s)) := by
  rw [exec_of_onMidiPath rfl he]
  exact congrArg Host.Outcome.next (emit_panic (s := consume 3 s) h ch value)

/-- Settles O16. -/
theorem panicKillsEverySlot : Obligations.PanicKillsEverySlot := by
  intro s ch value hmode hrun hing hnumbers
  exact exec_ccPanic_of_enabled ((parseApplyEnabled_iff s).mpr ⟨hmode, hrun, hing⟩) hnumbers ch value

/-- Settles O17: CC_OTHER is dispatched to no case; the other rows have no event or one that is ignored. -/
theorem silentRowsOnlyMoveTheBuffer : Obligations.SilentRowsOnlyMoveTheBuffer := by
  intro s hmode hrun hing
  have he := (parseApplyEnabled_iff s).mpr ⟨hmode, hrun, hing⟩
  refine ⟨fun ch c v hwf => ?_, fun ch p => exec_of_onMidiPath rfl he, fun b => exec_of_onMidiPath rfl he,
    fun n => exec_of_onMidiPath rfl he, fun n => exec_of_onMidiPath rfl he, fun n => exec_of_onMidiPath rfl he,
    fun n => exec_of_onMidiPath rfl he, fun t ch d1 d2 => exec_of_onMidiPath rfl he,
    fun t ch d1 => exec_of_onMidiPath rfl he⟩
  rw [exec_of_onMidiPath rfl he]
  exact congrArg Host.Outcome.next (emit_ccOther (s := consume 3 s) hwf)

end Sys2Proof.Machine
end

section
/-! O39, O40 and O41: the block of a GENERATE (43_pool.md R238 to R241), the empty one, and the one after a panic
(R234), whose slots are all silent and whose mix is +0.0. -/

namespace Sys2Proof.Machine

/-- GENERATE where it is enabled (R238). -/
theorem exec_generate_of_enabled {s : State} (hmode : s.mode = .midi) (hrun : s.runState = .running)
    (hsink : s.sinkOpen = true) (n : Nat) :
    exec (.generate n) s = .next { s with voices := voicesAfter n s, sink := s.sink ++ [generateBlock n s] } := by
  have he : generateEnabled s = true := by simp [generateEnabled, hmode, hrun, hsink]
  simp only [exec, execGenerate, if_pos he, sinkWrite]

/-- Settles O39: the mix of frame `j` is the fold over the slots themselves. -/
theorem generateDeliversTheMixedBlock : Obligations.GenerateDeliversTheMixedBlock := by
  intro s n hmode hrun hsink
  refine ⟨generateBlock n s, by simp [generateBlock], fun j hj => ?_, exec_generate_of_enabled hmode hrun hsink n⟩
  simp [generateBlock, hj, toSample, mixFrame, List.foldl_map]

theorem voiceBlock_zero (cfg : Config) (v : Voice) : voiceBlock cfg 0 v = ([], v) := by
  by_cases h : voiceSilent v = true
  · exact voiceBlock_of_silent h cfg 0
  · exact voiceBlock_of_not_silent h cfg 0

/-- Settles O40: a block of no frames moves no slot. -/
theorem generatingNoFramesChangesNoVoice : Obligations.GeneratingNoFramesChangesNoVoice := by
  intro s hmode hrun hsink
  have hvoices : voicesAfter 0 s = s.voices := by simp [voicesAfter, voiceBlock_zero]
  rw [exec_generate_of_enabled hmode hrun hsink, hvoices]
  rfl

/-- Every slot meets the short-circuit of R201. -/
def AllSilent (vs : List Voice) : Prop := ∀ v ∈ vs, voiceSilent v = true

theorem allSilent_poolPanic (s : State) : AllSilent (poolPanic s).voices := by
  intro v hv
  obtain ⟨u, -, rfl⟩ := List.mem_map.mp hv
  exact (voiceSilent_iff _).mpr ⟨rfl, show fle fZERO fZERO = true by decide⟩

/-- Silent slots do not move (R201). -/
theorem voicesAfter_of_allSilent {s : State} (h : AllSilent s.voices) (n : Nat) : voicesAfter n s = s.voices := by
  refine (List.map_congr_left fun v hv => ?_).trans (List.map_id s.voices)
  rw [voiceBlock_of_silent (h v hv)]
  rfl

/-- Every sample of a silent slot is +0.0 (R201). -/
theorem sample_of_silent {v : Voice} (h : voiceSilent v = true) (cfg : Config) (n j : Nat) :
    (voiceBlock cfg n v).1.getD j fZERO = fZERO := by
  rw [voiceBlock_of_silent h]
  by_cases hj : j < n <;> simp [hj]

theorem fadd_fZERO_fZERO : fadd fZERO fZERO = fZERO := by decide +kernel

/-- Silent slots mix to +0.0, because each of them adds +0.0 (R239). -/
theorem mixFrame_of_allSilent {vs : List Voice} (h : AllSilent vs) (cfg : Config) (n j : Nat) :
    mixFrame (vs.map fun v => (voiceBlock cfg n v).1) j = fZERO := by
  rw [mixFrame, List.foldl_map]
  induction vs with
  | nil => rfl
  | cons v vs ih =>
    rw [List.foldl_cons, sample_of_silent (h v List.mem_cons_self), fadd_fZERO_fZERO]
    exact ih fun u hu => h u (List.mem_cons_of_mem v hu)

/-- The pattern is one of the two zeros. -/
def IsZero (x : F64) : Prop := isNaN x = false ∧ mag x = 0

/-- A zero times a real number is a zero (R12). -/
theorem IsZero.fmul {x y : F64} (hx : IsZero x) (hy : isFinite y = true) : IsZero (fmul x y) := by
  obtain ⟨hn, h0⟩ := hx
  simp only [isFinite, bne_iff_ne] at hy
  have hmul : Machine.fmul x y = roundQ (signBit x != signBit y) 0 quantaPerOne := by
    have ix : isInf x = false := isInf_eq_false (h0 ▸ infQuanta_pos)
    have hyn : isNaN y = false := by simp [isNaN, hy]
    have iy : isInf y = false := by simp [isInf, hy]
    simp [Machine.fmul, hn, h0, ix, hyn, iy]
  rw [IsZero, hmul, mag_roundQ]
  exact ⟨isNaN_roundQ _ _ _, magBits_roundMag_zero quantaPerOne_pos⟩

theorem IsZero.f2iTrunc {x : F64} (h : IsZero x) : f2iTrunc x = 0 := by
  simp [Machine.f2iTrunc, h.1, h.2]

/-- A mix of +0.0 is delivered as 0 under any VOLUME that is a real number (R240). -/
theorem toSample_fZERO {volume : F64} (h : isFinite volume = true) : toSample volume fZERO = 0 := by
  have hzero : IsZero fZERO := ⟨by decide, by decide⟩
  rw [toSample, ((hzero.fmul h).fmul (by decide)).f2iTrunc]
  rfl

theorem generateBlock_of_allSilent {s : State} (h : AllSilent s.voices) (hvolume : isFinite s.volume = true) (n : Nat) :
    generateBlock n s = List.replicate n 0 := by
  simp [generateBlock, mixFrame_of_allSilent h, toSample_fZERO hvolume]

/-- Settles O41: a panic leaves every slot silent and VOLUME as it was. -/
theorem panicSilencesTheNextBlock : Obligations.PanicSilencesTheNextBlock := by
  intro s ch value n hmode hrun hing hnumbers hsink hvolume
  have he := (parseApplyEnabled_iff s).mpr ⟨hmode, hrun, hing⟩
  refine ⟨_, exec_ccPanic_of_enabled he hnumbers ch value, ?_⟩
  have hsilent := allSilent_poolPanic (consume 3 s)
  rw [exec_generate_of_enabled (by simpa) (by simpa) (by simpa), voicesAfter_of_allSilent hsilent,
    generateBlock_of_allSilent hsilent (by simpa)]

end Sys2Proof.Machine
end

section
/-! O46 and O47: the upsampler (44_raw_resampler.md R276 to R279). From two samples on, both grids are a table of
points, so that each clause is one entry of the table. -/

namespace Sys2Proof.Machine

/-- R11's `trunc_div` is the quotient rounded toward zero of the library. -/
theorem truncDiv_eq_tdiv (a : Int) (b : Nat) : truncDiv a b = a.tdiv b := by
  cases a with
  | ofNat m => rfl
  | negSucc m => exact if_pos (Int.negSucc_lt_zero m)

theorem truncDiv_mul_cancel (a : Int) {b : Nat} (hb : 0 < b) : truncDiv (a * b) b = a := by
  rw [truncDiv_eq_tdiv]
  exact Int.mul_tdiv_cancel a (by omega)

/-- R279's length, on both grids. -/
@[simp] theorem length_upsample (grid : ResampleGrid) (s : List Sample) (r : Nat) :
    (upsample grid s r).length = s.length * r := by
  match s with
  | [] => simp [upsample]
  | [x] => simp [upsample]
  | x :: y :: rest => cases grid <;> simp [upsample, upsampleStep, upsampleEndpoint]

theorem upsample_step_of_two_le {s : List Sample} (h : 2 ≤ s.length) (r : Nat) :
    upsample .step s r = upsampleStep s r := by
  match s, h with
  | _ :: _ :: _, _ => rfl

theorem upsample_endpoint_of_two_le {s : List Sample} (h : 2 ≤ s.length) (r : Nat) :
    upsample .endpoint s r = upsampleEndpoint s r := by
  match s, h with
  | _ :: _ :: _, _ => rfl

/-- Output `i·r + k` of the step grid is the k-th point of segment `i` (R276). -/
theorem upsample_step_getElem? {s : List Sample} (h : 2 ≤ s.length) {r i k : Nat} (hi : i < s.length) (hk : k < r) :
    (upsample .step s r)[i * r + k]? = some (stepPoint s r i k) := by
  have hindex : i * r + k < s.length * r := Nat.mul_comm r i ▸ Nat.mul_add_lt_mul_of_lt_of_lt hi hk
  have hdiv : (i * r + k) / r = i := by
    rw [Nat.mul_comm, Nat.mul_add_div (by omega), Nat.div_eq_of_lt hk, Nat.add_zero]
  have hmod : (i * r + k) % r = k := Nat.mul_add_mod_of_lt hk
  rw [upsample_step_of_two_le h, upsampleStep, List.getElem?_map, List.getElem?_range hindex, Option.map_some, hdiv,
    hmod]

/-- Output `j` of the endpoint grid (R277). -/
theorem upsample_endpoint_getElem? {s : List Sample} (h : 2 ≤ s.length) {r j : Nat} (hj : j < s.length * r) :
    (upsample .endpoint s r)[j]? = some (endpointPoint s (s.length * r - 1) j) := by
  rw [upsample_endpoint_of_two_le h, upsampleEndpoint, List.getElem?_map, List.getElem?_range hj, Option.map_some]

theorem getElem?_eq_some_getD {s : List Sample} {i : Nat} (hi : i < s.length) : s[i]? = some (s.getD i 0) := by
  simp [hi]

theorem getLast?_eq_some_getD {s : List Sample} (h : 2 ≤ s.length) : s.getLast? = some (s.getD (s.length - 1) 0) := by
  rw [List.getLast?_eq_getElem?, getElem?_eq_some_getD (by omega)]

/-- Inside a segment of the step grid (R276). -/
theorem stepPoint_of_lt {s : List Sample} {i : Nat} (hi : i + 1 < s.length) (r k : Nat) :
    stepPoint s r i k = (s.getD i 0 * r + (s.getD (i + 1) 0 - s.getD i 0) * k).tdiv r := by
  rw [stepPoint, if_pos (by omega), truncDiv_eq_tdiv]

/-- The last sample holds its value (R276). -/
theorem stepPoint_last (s : List Sample) (r k : Nat) :
    stepPoint s r (s.length - 1) k = s.getD (s.length - 1) 0 := if_neg (lt_irrefl _)

/-- A segment starts with its sample (R276). -/
theorem stepPoint_zero {s : List Sample} {r i : Nat} (hr : 1 ≤ r) (hi : i < s.length) :
    stepPoint s r i 0 = s.getD i 0 := by
  rcases Nat.lt_or_ge i (s.length - 1) with hlt | hge
  · rw [stepPoint, if_pos hlt, Nat.cast_zero, Int.mul_zero, Int.add_zero, truncDiv_mul_cancel _ hr]
  · obtain rfl : i = s.length - 1 := by omega
    exact stepPoint_last s r 0

/-- Before the last output of the endpoint grid the input position lies before the last sample (R277). -/
theorem endpointPoint_of_lt {s : List Sample} {q j : Nat} (h : 2 ≤ s.length) (hj : j < q) :
    endpointPoint s q j =
      (s.getD (j * (s.length - 1) / q) 0 * (q : Int) +
        (s.getD (j * (s.length - 1) / q + 1) 0 - s.getD (j * (s.length - 1) / q) 0) *
          ((j * (s.length - 1) % q : Nat) : Int)).tdiv q := by
  have hposition : j * (s.length - 1) / q < s.length - 1 := by
    rw [Nat.div_lt_iff_lt_mul (by omega), Nat.mul_comm]
    exact Nat.mul_lt_mul_of_pos_left hj (by omega)
  simp only [endpointPoint, if_neg hposition.ne, truncDiv_eq_tdiv]

/-- The last output of the endpoint grid is the last sample (R277). -/
theorem endpointPoint_last (s : List Sample) {q : Nat} (hq : 0 < q) :
    endpointPoint s q q = s.getD (s.length - 1) 0 := by
  simp [endpointPoint, Nat.mul_div_cancel_left _ hq]

/-- With one output per sample the endpoint grid has its points at the samples (R279). -/
theorem endpointPoint_ratio_one {s : List Sample} (h : 2 ≤ s.length) {j : Nat} (hj : j < s.length) :
    endpointPoint s (s.length - 1) j = s.getD j 0 := by
  have hq : 0 < s.length - 1 := by omega
  rcases Nat.lt_or_ge j (s.length - 1) with hlt | hge
  · rw [endpointPoint_of_lt h hlt, Nat.mul_div_cancel _ hq, Nat.mul_mod_left, Nat.cast_zero, Int.mul_zero, Int.add_zero,
      Int.mul_tdiv_cancel _ (by omega)]
  · obtain rfl : j = s.length - 1 := by omega
    exact endpointPoint_last s hq

/-- The step grid keeps every sample at its place (R276). -/
theorem upsample_step_keeps_samples {s : List Sample} {r i : Nat} (hi : i < s.length) (hr : 1 ≤ r) :
    (upsample .step s r)[i * r]? = s[i]? := by
  match s, hi with
  | [x], hi =>
    obtain rfl : i = 0 := by simpa using hi
    simp [upsample, show 0 < r from hr]
  | x :: y :: rest, hi =>
    have hpoint := upsample_step_getElem? (s := x :: y :: rest) (by simp) hi (show 0 < r from hr)
    rwa [Nat.add_zero, stepPoint_zero hr hi, ← getElem?_eq_some_getD hi] at hpoint

/-- R279: with ratio 1 both grids return the samples. -/
theorem upsample_one (grid : ResampleGrid) (s : List Sample) : upsample grid s 1 = s := by
  have hentry (i : Nat) (hi : i < s.length) : (upsample grid s 1)[i]? = s[i]? := by
    cases grid with
    | step => simpa using upsample_step_keeps_samples hi (le_refl 1)
    | endpoint =>
      match s, hi with
      | [x], _ => rfl
      | x :: y :: rest, hi =>
        have htwo : 2 ≤ (x :: y :: rest).length := by simp
        rw [upsample_endpoint_getElem? htwo (by omega), Nat.mul_one, endpointPoint_ratio_one htwo hi,
          ← getElem?_eq_some_getD hi]
  refine List.ext_getElem? fun i => ?_
  rcases Nat.lt_or_ge i s.length with hi | hi
  · exact hentry i hi
  · rw [List.getElem?_eq_none hi, List.getElem?_eq_none (by simpa using hi)]

/-- Settles O46. -/
theorem upsampleKeepsLengthAndSamples : Obligations.UpsampleKeepsLengthAndSamples := fun grid s r =>
  ⟨length_upsample grid s r, upsample_one grid s, fun _ => rfl, fun _ => upsample_step_keeps_samples⟩

/-- Settles O47: each clause is one entry of its grid's table. -/
theorem upsampleInterpolatesLinearly : Obligations.UpsampleInterpolatesLinearly := by
  intro s r htwo hr
  have hlength : 2 * 1 ≤ s.length * r := Nat.mul_le_mul htwo hr
  refine ⟨fun i k hi hk => ?_, fun k hk => ?_, fun j hj => ?_, ?_⟩
  · rw [upsample_step_getElem? htwo (by omega) hk, stepPoint_of_lt hi]
  · rw [upsample_step_getElem? htwo (by omega) hk, stepPoint_last, getLast?_eq_some_getD htwo]
  · rw [upsample_endpoint_getElem? htwo (by omega), endpointPoint_of_lt htwo (by omega)]
  · rw [upsample_endpoint_getElem? htwo (by omega), endpointPoint_last s (by omega), getLast?_eq_some_getD htwo]

end Sys2Proof.Machine
end

section
/-! O43, O44 and O45: a RAW_STEP under scripted draws (44_raw_resampler.md R270 to R275). Over a row of ok draws the
slots are a recursion on the link and the draws, `slotValues`, which `rawSlots_of_oks` ties to the machine; then either
the slots are all filled or an err ends the step. -/

namespace Sys2Proof.Machine

/-- RAW_STEP where it is enabled (R270). -/
theorem exec_rawStep_of_enabled {s : State} (hmode : s.mode = .rawAudio) (hrun : s.runState = .running)
    (hsink : s.sinkOpen = true) {filled : Bool} {t : State}
    (hslots : rawSlots s.cfg.blockSamples { s with rawBlock := [] } = (filled, t)) :
    exec .rawStep s = .next (if filled then rawFinish t else fatal causeLinkError { t with rawBlock := [] }) := by
  have henabled : rawStepEnabled s = true := by simp [rawStepEnabled, hmode, hrun, hsink]
  simp only [exec, execRawStep, if_pos henabled, hslots]
  cases filled <;> rfl

/-- The value of a slot by the bytes of its read (R271 to R274). -/
def slotValue (limit : Nat) (bs : List Byte) : Sample :=
  if bs.length = 2 then rawValue limit (bs.getD 0 0#8) (bs.getD 1 0#8) else 0

theorem slotValue_of_short {limit : Nat} {bs : List Byte} (h : bs.length < 2) : slotValue limit bs = 0 :=
  if_neg (by omega)

theorem rawSlot_eq_pushSample {bs : List Byte} (h : bs.length ≤ 2) (s : State) :
    rawSlot bs s = pushSample (slotValue s.cfg.noiseLimit bs) s := by
  match bs, h with
  | [], _ | [_], _ | [_, _], _ => rfl

/-- The bytes that ok draws ask for in a row of slot reads (R72, R271). -/
def bytesAsked (ks : List Nat) : Nat := (ks.map (min · 2)).sum

/-- The slots of a row of ok draws (R270 to R274). -/
def slotValues (limit : Nat) : Link → List Nat → List Sample
  | _, [] => []
  | l, k :: ks => slotValue limit (l.take (min k 2)) :: slotValues limit (l.drop (min k 2)) ks

@[simp] theorem length_slotValues (limit : Nat) (l : Link) (ks : List Nat) :
    (slotValues limit l ks).length = ks.length := by
  induction ks generalizing l with
  | nil => rfl
  | cons k ks ih => simp [slotValues, ih]

/-- A slot read whose draw is ok fills its slot and takes its bytes off the link (R271, R272). -/
theorem rawSlots_of_ok {s : State} {k : Nat} {ds : List ReadDraw} (h : s.readDraws = .ok k :: ds) (n : Nat) :
    rawSlots (n + 1) s = rawSlots n { s with
      link := s.link.drop (min k 2)
      readDraws := ds
      rawBlock := s.rawBlock ++ [slotValue s.cfg.noiseLimit (s.link.take (min k 2))] } := by
  have hlength : (s.link.take (min k 2)).length ≤ 2 := (s.link.take_length_le _).trans (Nat.min_le_right k 2)
  simp only [rawSlots, linkRead_ok h, rawSlot_eq_pushSample hlength]
  rfl

/-- A slot read whose draw is err is the last (R312). -/
theorem rawSlots_of_err {s : State} {ds : List ReadDraw} (h : s.readDraws = .err :: ds) (n : Nat) :
    rawSlots (n + 1) s = (false, { s with readDraws := ds }) := by
  simp [rawSlots, linkRead, nextRead_cons h]

/-- The slot reads over a row of ok draws, whatever follows it. -/
theorem rawSlots_of_oks (ks : List Nat) (n : Nat) {ds : List ReadDraw} {s : State}
    (h : s.readDraws = ks.map .ok ++ ds) :
    rawSlots (ks.length + n) s = rawSlots n { s with
      link := s.link.drop (bytesAsked ks)
      readDraws := ds
      rawBlock := s.rawBlock ++ slotValues s.cfg.noiseLimit s.link ks } := by
  induction ks generalizing s with
  | nil => simp [bytesAsked, slotValues, ← show s.readDraws = ds from h]
  | cons k ks ih =>
    rw [List.length_cons, Nat.add_right_comm, rawSlots_of_ok h, ih rfl]
    simp [bytesAsked, slotValues, Link.drop_drop]

/-- A RAW_STEP whose draws are all ok writes the upsampled block of its slots (R270 to R274). -/
theorem exec_rawStep_of_oks {s : State} {ks : List Nat} {ds : List ReadDraw} (hmode : s.mode = .rawAudio)
    (hrun : s.runState = .running) (hsink : s.sinkOpen = true) (hks : ks.length = s.cfg.blockSamples)
    (hdraws : s.readDraws = ks.map .ok ++ ds) :
    exec .rawStep s = .next { s with
      link := s.link.drop (bytesAsked ks)
      readDraws := ds
      rawBlock := []
      sink := s.sink ++
        [upsample s.cfg.resampleGrid (slotValues s.cfg.noiseLimit s.link ks) s.cfg.upsampleRatio] } := by
  have hslots := rawSlots_of_oks ks 0 (s := { s with rawBlock := [] }) hdraws
  rw [Nat.add_zero, hks] at hslots
  exact exec_rawStep_of_enabled hmode hrun hsink hslots

/-- Slot `j` reads at the sum of the earlier reads (R271). -/
theorem slotValues_eq_map (limit : Nat) (l : Link) (ks : List Nat) :
    slotValues limit l ks = (List.range ks.length).map fun j =>
      slotValue limit ((l.drop (bytesAsked (ks.take j))).take (min (ks.getD j 0) 2)) := by
  induction ks generalizing l with
  | nil => rfl
  | cons k ks ih =>
    rw [slotValues, ih, List.length_cons, List.range_succ_eq_map, List.map_cons, List.map_map]
    simp [bytesAsked, Link.drop_drop, Function.comp_def]

/-- A read of bytes that the link lists gives those bytes (R71). -/
theorem Link.take_of_bytes {l : Link} {a b : List Byte} (h : l.bytes = a ++ b) : l.take a.length = a := by
  obtain ⟨bs, f⟩ := l
  obtain rfl : bs = a ++ b := h
  cases f <;> simp [Link.take]

theorem Link.drop_of_bytes {l : Link} {a b : List Byte} (h : l.bytes = a ++ b) :
    l.drop a.length = { l with bytes := b } := by
  obtain ⟨bs, f⟩ := l
  obtain rfl : bs = a ++ b := h
  cases f <;> simp [Link.drop]

/-- Full reads fill the slots with the words that the link lists, and take exactly their bytes (R271, R273). -/
theorem slotValues_of_full {l : Link} {pairs : List (Byte × Byte)} {rest : List Byte}
    (h : l.bytes = pairs.flatMap (fun p => [p.1, p.2]) ++ rest) (limit : Nat) :
    slotValues limit l (List.replicate pairs.length 2) = pairs.map (fun p => rawValue limit p.1 p.2) ∧
      l.drop (bytesAsked (List.replicate pairs.length 2)) = { l with bytes := rest } := by
  induction pairs generalizing l with
  | nil => exact ⟨rfl, Link.drop_of_bytes (a := []) h⟩
  | cons p pairs ih =>
    have hhead : l.bytes = [p.1, p.2] ++ (pairs.flatMap (fun p => [p.1, p.2]) ++ rest) := h
    have htake : l.take 2 = [p.1, p.2] := Link.take_of_bytes hhead
    have hdrop : l.drop 2 = { l with bytes := pairs.flatMap (fun p => [p.1, p.2]) ++ rest } := Link.drop_of_bytes hhead
    obtain ⟨hvalues, hlink⟩ := ih (l := l.drop 2) (by rw [hdrop])
    refine ⟨?_, ?_⟩
    · rw [List.length_cons, List.replicate_succ, slotValues, Nat.min_self, hvalues, htake]
      rfl
    · rw [List.length_cons, List.replicate_succ, bytesAsked, List.map_cons, List.sum_cons, ← Link.drop_drop]
      exact hlink.trans (by rw [hdrop])

/-- Settles O43: the slots by their offsets, and where every read is full, by the words of the link. -/
theorem rawStepWritesTheUpsampledBlock : Obligations.RawStepWritesTheUpsampledBlock := by
  refine ⟨fun s ks ds hmode hrun hsink hks hdraws => ?_,
    fun s pairs rest ds hmode hrun hsink hpairs hbytes hdraws => ?_⟩
  · have hall : bytesAsked (ks.take ks.length) = bytesAsked ks := by rw [List.take_length]
    rw [exec_rawStep_of_oks hmode hrun hsink hks hdraws, slotValues_eq_map, ← hall, hks]
    rfl
  · obtain ⟨hvalues, hlink⟩ := slotValues_of_full hbytes s.cfg.noiseLimit
    rw [hpairs] at hvalues hlink
    rw [exec_rawStep_of_oks (ks := List.replicate s.cfg.blockSamples 2) hmode hrun hsink (by simp)
        (by simpa using hdraws), hvalues, hlink]

/-- Settles O45: an err after the ok draws leaves slots unfilled. -/
theorem rawLinkErrorWritesNoBlock : Obligations.RawLinkErrorWritesNoBlock := by
  intro s ks ds hmode hrun hsink hks hdraws
  obtain ⟨n, hn⟩ : ∃ n, s.cfg.blockSamples = ks.length + (n + 1) := Nat.exists_eq_add_of_lt hks
  have hslots := rawSlots_of_oks ks (n + 1) (s := { s with rawBlock := [] }) hdraws
  rw [rawSlots_of_err rfl, ← hn] at hslots
  rw [exec_rawStep_of_enabled hmode hrun hsink hslots, if_neg (by simp), fatal_eq]
  simp only [if_pos hsink]
  rfl

/-- Draws that are all short, as their counts (R272). -/
theorem exists_counts_of_short {short : List ReadDraw} (h : ∀ d ∈ short, d = .ok 0 ∨ d = .ok 1) :
    ∃ ks : List Nat, short = ks.map .ok ∧ ∀ k ∈ ks, k < 2 := by
  induction short with
  | nil => exact ⟨[], rfl, by simp⟩
  | cons d short ih =>
    obtain ⟨hd, hshort⟩ := List.forall_mem_cons.mp h
    obtain ⟨ks, rfl, hks⟩ := ih hshort
    rcases hd with rfl | rfl
    · exact ⟨0 :: ks, rfl, by simpa using hks⟩
    · exact ⟨1 :: ks, rfl, by simpa using hks⟩

/-- Short reads take their odd bytes alone (R272). -/
theorem bytesAsked_of_short {ks : List Nat} (h : ∀ k ∈ ks, k < 2) :
    bytesAsked ks = (ks.map ReadDraw.ok).count (.ok 1) := by
  induction ks with
  | nil => rfl
  | cons k ks ih =>
    obtain ⟨hk, hks⟩ := List.forall_mem_cons.mp h
    have hsum : bytesAsked (k :: ks) = min k 2 + bytesAsked ks := rfl
    rw [hsum, ih hks, List.map_cons, List.count_cons]
    interval_cases k <;> simp [Nat.add_comm]

/-- Short reads leave every slot 0 (R272). -/
theorem slotValues_of_short {ks : List Nat} (h : ∀ k ∈ ks, k < 2) (limit : Nat) (l : Link) :
    ∀ x ∈ slotValues limit l ks, x = 0 := by
  induction ks generalizing l with
  | nil => simp [slotValues]
  | cons k ks ih =>
    obtain ⟨hk, hks⟩ := List.forall_mem_cons.mp h
    have hread : (l.take (min k 2)).length < 2 := ((l.take_length_le _).trans (Nat.min_le_left k 2)).trans_lt hk
    exact List.forall_mem_cons.mpr ⟨slotValue_of_short hread, ih hks _⟩

/-- Silence is upsampled to silence: an interval that holds 0 alone holds the block (R275). -/
theorem upsample_of_zeros {s : List Sample} (h : ∀ x ∈ s, x = 0) (grid : ResampleGrid) (r : Nat) :
    upsample grid s r = List.replicate (s.length * r) 0 := by
  refine List.eq_replicate_iff.mpr ⟨length_upsample grid s r, fun x hx => ?_⟩
  have hx0 : x ∈ Set.Icc (0 : Int) 0 := upsample_mem_Icc (by simp) (fun y hy => by simp [h y hy]) grid r x hx
  exact le_antisymm hx0.2 hx0.1

/-- Settles O44. -/
theorem shortReadsGiveSilence : Obligations.ShortReadsGiveSilence := by
  intro s short ds hmode hrun hsink hlength hshort hdraws
  obtain ⟨ks, rfl, hks⟩ := exists_counts_of_short hshort
  have hslots : ks.length = s.cfg.blockSamples := by simpa using hlength
  rw [exec_rawStep_of_oks hmode hrun hsink hslots hdraws, upsample_of_zeros (slotValues_of_short hks _ _),
    length_slotValues, hslots, bytesAsked_of_short hks]

end Sys2Proof.Machine
end

section
/-! O48 and O59: what every raw step keeps: the noise limit of the delivered blocks (44_raw_resampler.md R282), and the
registers of the MIDI path (R283), whose writers all run in that mode. -/

namespace Sys2Proof.Machine

/-- R274: no slot's magnitude is above the limit. -/
theorem abs_rawValue_le (limit : Nat) (lo hi : Byte) : |rawValue limit lo hi| ≤ (limit : Int) := by
  rw [rawValue_eq]
  split
  · simp
  · exact not_lt.mp ‹_›

/-- Settles O48: the slots are within the limit, and upsampling stays between them. -/
theorem rawBlocksStayWithinTheNoiseLimit : Obligations.RawBlocksStayWithinTheNoiseLimit := by
  intro s t h
  rcases rawStep_sink (P := fun x => |x| ≤ (s.cfg.noiseLimit : Int)) (by simp) (abs_rawValue_le _) h with
    hsame | ⟨slots, hslots, hlength, hsink⟩
  · exact .inl hsame
  · refine .inr ⟨_, hsink, by rw [length_upsample, hlength], fun x hx => abs_le.mpr ?_⟩
    exact upsample_mem_Icc (by simp) (fun y hy => abs_le.mp (hslots y hy)) _ _ x hx

/-- The registers that only the MIDI path writes have the same values in both states (R283). -/
structure SameMidiState (s t : State) : Prop where
  voices : t.voices = s.voices
  volume : t.volume = s.volume
  pbuf : t.pbuf = s.pbuf
  ing : t.ing = s.ing

theorem SameMidiState.refl (s : State) : SameMidiState s s := ⟨rfl, rfl, rfl, rfl⟩

theorem SameMidiState.trans {s t u : State} (hst : SameMidiState s t) (htu : SameMidiState t u) :
    SameMidiState s u where
  voices := htu.voices.trans hst.voices
  volume := htu.volume.trans hst.volume
  pbuf := htu.pbuf.trans hst.pbuf
  ing := htu.ing.trans hst.ing

/-- Every writer of the MIDI path's registers needs that mode (R321). -/
theorem exec_sameMidiState (x : Txn) {s t : State} (hmode : s.mode ≠ .midi) (h : exec (txnInstr x) s = .next t) :
    SameMidiState s t := by
  cases x with
  | ingestRead =>
    rcases ingestRead_cases h with rfl | ⟨hmidi, -⟩
    · exact .refl _
    · exact absurd hmidi hmode
  | parseApply =>
    rcases parseApply_cases h with rfl | ⟨hmidi, -⟩
    · exact .refl _
    · exact absurd hmidi hmode
  | generate n =>
    rcases generate_cases h with rfl | ⟨hmidi, -⟩
    · exact .refl _
    · exact absurd hmidi hmode
  | _ =>
    have hw := exec_writesOnlyItsOwn _ h
    obtain ⟨hpbuf, hing⟩ := hw.ingestion (by simp) (by simp)
    exact ⟨hw.voices (by simp) (by simp), hw.volume (by simp), hpbuf, hing⟩

theorem step_sameMidiState {s t : State} (hmode : s.mode ≠ .midi) (h : step s = .next t) : SameMidiState s t := by
  obtain ⟨-, x, sch, o, hexec⟩ := step_cases h
  obtain ⟨hvoices, hvolume, hpbuf, hing⟩ :=
    exec_sameMidiState x (s := { s with schedule := sch, oracle := o }) hmode hexec
  exact ⟨hvoices, hvolume, hpbuf, hing⟩

/-- Settles O59: MODE stays raw, and no step of a raw run writes the MIDI path's registers. -/
theorem rawRunsLeaveThePoolAlone : Obligations.RawRunsLeaveThePoolAlone := by
  intro s n hinv hmode
  have hdecided : DecidedAs .rawAudio s := hmode ▸ decidedAs_of_runInv hinv (by simp [hmode])
  have hkept : DecidedAs .rawAudio (runSteps n s) ∧ SameMidiState s (runSteps n s) := by
    refine runSteps_induct (P := fun u => DecidedAs .rawAudio u ∧ SameMidiState s u) ?_ n ⟨hdecided, .refl s⟩
    rintro t u ⟨ht, hst⟩ hstep
    exact ⟨step_keeps_decidedAs ht hstep, hst.trans (step_sameMidiState (by simp [ht.mode]) hstep)⟩
  obtain ⟨-, hvoices, hvolume, hpbuf, hing⟩ := hkept
  exact ⟨hvoices, hvolume, hpbuf, hing⟩

end Sys2Proof.Machine
end

section
/-! O8, O9, O11 and O12: which instructions move the machine (60_exceptions.md R310, R321 to R325). Every transaction is
one test of its enabling condition with the old state in the other branch; nothing is enabled in a terminal state, and
the rows that PARSE_APPLY and RAW_STEP read act only while those two are enabled. -/

namespace Sys2Proof.Machine

/-- A transaction that R321 does not enable leaves the state as it is. -/
theorem exec_of_not_enabled (x : Txn) {s : State} (h : enabled x s = false) : exec (txnInstr x) s = .next s := by
  have hx : ¬ enabled x s = true := Bool.eq_false_iff.mp h
  cases x with
  | windowExpire | classify | stop | sinkFault => exact congrArg Host.Outcome.next (if_neg hx)
  | _ => exact if_neg hx

/-- Settles O11: each premise is the failure of one row of R321's table. -/
theorem disabledStepsChangeNothing : Obligations.DisabledStepsChangeNothing := by
  intro s
  refine ⟨fun h => exec_of_not_enabled .linkOpen ?_, fun h => exec_of_not_enabled .probeRead ?_,
    fun h => exec_of_not_enabled .windowExpire ?_, fun h => exec_of_not_enabled .classify ?_,
    fun h => exec_of_not_enabled .sinkOpen ?_, fun h => exec_of_not_enabled .ingestRead ?_,
    fun h => exec_of_not_enabled .parseApply ?_, fun h n => exec_of_not_enabled (.generate n) ?_,
    fun h => exec_of_not_enabled .rawStep ?_, fun h => exec_of_not_enabled .sinkFault ?_,
    fun h => exec_of_not_enabled .stop ?_⟩
  · simpa [enabled, linkOpenEnabled] using h
  · simpa [enabled, probeReadEnabled, imp_iff_not_or, or_assoc] using h
  · simpa [enabled, windowExpireEnabled, imp_iff_not_or] using h
  · simpa [enabled, classifyEnabled, imp_iff_not_or] using h
  · simpa [enabled, sinkOpenEnabled] using h
  · simpa [enabled, ingestReadEnabled, imp_iff_not_or, or_assoc] using h
  · simpa [enabled, parseApplyEnabled, imp_iff_not_or, or_assoc] using h
  · simpa [enabled, generateEnabled, imp_iff_not_or, or_assoc] using h
  · simpa [enabled, rawStepEnabled, imp_iff_not_or, or_assoc] using h
  · simpa [enabled, sinkFaultEnabled] using h
  · simpa [enabled, stopEnabled, terminal, imp_iff_not_or] using h

/-- Every transaction answers a next state, enabled or not (R325). -/
theorem exec_answers_next (x : Txn) (s : State) : ∃ t, exec (txnInstr x) s = .next t := by
  cases henabled : enabled x s with
  | false => exact ⟨s, exec_of_not_enabled x henabled⟩
  | true =>
    cases x with
    | windowExpire | classify | stop | sinkFault => exact ⟨_, rfl⟩
    | generate n => exact ⟨_, if_pos henabled⟩
    | parseApply => exact ⟨_, exec_parseApply_of_enabled henabled⟩
    | linkOpen | probeRead | sinkOpen | ingestRead | rawStep =>
      simp only [enabled] at henabled
      simp only [txnInstr, exec, execLinkOpen, execProbeRead, execSinkOpen, execIngestRead, execRawStep, if_pos henabled]
      split <;> exact ⟨_, rfl⟩

/-- Settles O8: an admitted step is a transaction, and `configAdmitted` is the conjunction written out. -/
theorem everyAdmittedStepAnswersNext : Obligations.EveryAdmittedStepAnswersNext := by
  refine ⟨fun s ha => ?_, fun s ha => ?_, fun c => ?_⟩
  · rw [step, if_pos ha]
    exact exec_answers_next _ _
  · rw [step, if_neg (Bool.eq_false_iff.mp ha)]
  · simp [configAdmitted, configTyped, and_assoc]

/-- With nothing scripted the choice is the next free value (R321). -/
theorem nextTxn_nil {s : State} (h : s.schedule = []) :
    nextTxn s = (Config.freeTxn s.oracle, { s with oracle := s.oracle + 1 }) := by simp [nextTxn, h]

/-- Settles O9: the two forms of the scheduler's choice. -/
theorem stepRunsTheScheduledInstruction : Obligations.StepRunsTheScheduledInstruction := by
  refine fun s ha => ⟨fun t ts hs => ?_, fun hs => ?_⟩
  · rw [step, if_pos ha, nextTxn_cons hs]
  · rw [step, if_pos ha, nextTxn_nil hs]

/-- No transaction is enabled in STOPPED or FAILED (R310, R321). -/
theorem not_enabled_of_terminal {s : State} (h : s.runState = .stopped ∨ s.runState = .failed) (x : Txn) :
    enabled x s = false := by
  cases x with
  | stop => simpa [enabled, stopEnabled, terminal, imp_iff_not_or] using h
  | _ =>
    rcases h with h | h <;>
      simp [enabled, linkOpenEnabled, probeReadEnabled, windowExpireEnabled, classifyEnabled, sinkOpenEnabled,
        ingestReadEnabled, parseApplyEnabled, generateEnabled, rawStepEnabled, sinkFaultEnabled, h]

/-- A row of the MIDI path does nothing where PARSE_APPLY is not enabled (R162). -/
theorem exec_of_onMidiPath_of_disabled {i : Instr} (hi : onMidiPath i = true) {s : State}
    (he : parseApplyEnabled s = false) : exec i s = .next s := by
  cases i with
  | rawSample | linkOpen | probeRead | windowExpire | classify | sinkOpen | ingestRead | parseApply | generate | rawStep
  | stop | sinkFault => cases hi
  | _ => exact congrArg Host.Outcome.next (onFrame_of_disabled he _ _)

/-- A raw sample does nothing where RAW_STEP is not enabled (R270). -/
theorem exec_rawSample_of_disabled {s : State} (h : rawStepEnabled s = false) (lo hi : Byte) :
    exec (.rawSample lo hi) s = .next s :=
  congrArg Host.Outcome.next (if_neg (Bool.eq_false_iff.mp h))

/-- The rows of the table are those that the parser reads, the raw sample, and the transactions (R105, R110, R113). -/
theorem instr_cases (i : Instr) :
    onMidiPath i = true ∨ (∃ lo hi, i = .rawSample lo hi) ∨ ∃ x, i = txnInstr x := by
  cases i with
  | rawSample lo hi => exact .inr (.inl ⟨lo, hi, rfl⟩)
  | linkOpen => exact .inr (.inr ⟨.linkOpen, rfl⟩)
  | probeRead => exact .inr (.inr ⟨.probeRead, rfl⟩)
  | windowExpire => exact .inr (.inr ⟨.windowExpire, rfl⟩)
  | classify => exact .inr (.inr ⟨.classify, rfl⟩)
  | sinkOpen => exact .inr (.inr ⟨.sinkOpen, rfl⟩)
  | ingestRead => exact .inr (.inr ⟨.ingestRead, rfl⟩)
  | parseApply => exact .inr (.inr ⟨.parseApply, rfl⟩)
  | generate n => exact .inr (.inr ⟨.generate n, rfl⟩)
  | rawStep => exact .inr (.inr ⟨.rawStep, rfl⟩)
  | stop => exact .inr (.inr ⟨.stop, rfl⟩)
  | sinkFault => exact .inr (.inr ⟨.sinkFault, rfl⟩)
  | _ => exact .inl rfl

/-- R310: no instruction of any kind has an effect in a terminal state. -/
theorem exec_of_terminal (i : Instr) {s : State} (h : s.runState = .stopped ∨ s.runState = .failed) :
    exec i s = .next s := by
  rcases instr_cases i with hmidi | ⟨lo, hi, rfl⟩ | ⟨x, rfl⟩
  · exact exec_of_onMidiPath_of_disabled hmidi (not_enabled_of_terminal h .parseApply)
  · exact exec_rawSample_of_disabled (not_enabled_of_terminal h .rawStep) lo hi
  · exact exec_of_not_enabled x (not_enabled_of_terminal h x)

/-- Settles O12: `exec_of_terminal`, and the exit status by RUN_STATE, with EXIT_FAIL nonzero by admission. -/
theorem terminalStatesNeverMove : Obligations.TerminalStatesNeverMove := by
  refine ⟨fun i s h => exec_of_terminal i h, fun s ha => ⟨fun h => ?_, fun h => ⟨?_, ?_⟩, fun hstopped hfailed => ?_⟩⟩
  · simp [exitStatus, h]
  · simp [exitStatus, h]
  · simp only [configAdmitted, configTyped, Bool.and_eq_true, decide_eq_true_eq] at ha
    obtain ⟨-, -, hexit⟩ := ha
    exact hexit
  · cases hrun : s.runState with
    | stopped => exact absurd hrun hstopped
    | failed => exact absurd hrun hfailed
    | _ => simp [exitStatus, hrun]

end Sys2Proof.Machine
end

section
/-! O23, O30, O31 and O32: the ends of a run (60_exceptions.md R302 to R309, R314). A step that
fails is `fatal` of a state that differs from the old one only in what the step used up of its environment. -/

namespace Sys2Proof.Machine

/-- A LinkRead whose draw is err, scripted or free, with every field it changes (R72). -/
theorem linkRead_of_err {s : State} (h : (nextRead s).1 = .err) (max : Nat) :
    linkRead max s = (.err, { s with
      readDraws := s.readDraws.tail
      oracle := if s.readDraws = [] then s.oracle + 1 else s.oracle }) := by
  rw [linkRead, nextRead_eq, h]

/-- Settles O23: both steps are enabled and their LinkRead errs (R305). -/
theorem linkErrorEndsTheRun : Obligations.LinkErrorEndsTheRun := by
  rintro s i hdraw (⟨rfl, hprobing, hroom, hopen⟩ | ⟨rfl, hmode, hrun, hing⟩)
  · have henabled : probeReadEnabled s = true := by simp [probeReadEnabled, hprobing, hroom, hopen]
    simp only [exec, execProbeRead, if_pos henabled, linkRead_of_err hdraw, fatal_eq]
    rfl
  · have henabled : ingestReadEnabled s = true := by simp [ingestReadEnabled, hmode, hrun, hing]
    simp only [exec, execIngestRead, if_pos henabled, linkRead_of_err hdraw, fatal_eq]
    rfl

/-- Settles O30: both steps are enabled and their open fails (R303, R304). -/
theorem openFailureEndsTheRun : Obligations.OpenFailureEndsTheRun := by
  intro s hdraw
  refine ⟨fun hinit => ?_, fun hstarting => ?_⟩
  · have henabled : linkOpenEnabled s = true := by simp [linkOpenEnabled, hinit]
    rw [exec, execLinkOpen, if_pos henabled, nextOpen_eq, hdraw]
    simp only [fatal_eq]
    rfl
  · have henabled : sinkOpenEnabled s = true := by simp [sinkOpenEnabled, hstarting]
    rw [exec, execSinkOpen, if_pos henabled, nextOpen_eq, hdraw]
    simp only [fatal_eq]
    rfl

/-- STOP where it is enabled (R308). -/
theorem exec_stop_of_enabled {s : State} (h : stopEnabled s = true) :
    exec .stop s = .next { teardown { s with stopReq := true } with runState := .stopped } :=
  congrArg Host.Outcome.next (if_pos h)

/-- SINK_FAULT where it is enabled (R307). -/
theorem exec_sinkFault_of_enabled {s : State} (h : sinkFaultEnabled s = true) :
    exec .sinkFault s = .next (fatal causeSinkError s) :=
  congrArg Host.Outcome.next (if_pos h)

/-- Settles O31: both are enabled, and the rest is the teardown and the fatal sequence, field by field. -/
theorem stopAndSinkFaultEndTheRun : Obligations.StopAndSinkFaultEndTheRun := by
  intro s
  refine ⟨fun hstopped hfailed => ?_, fun hrun => ?_⟩
  · rw [exec_stop_of_enabled (by simp [stopEnabled, terminal, hstopped, hfailed]), teardown_eq]
  · rw [exec_sinkFault_of_enabled (by simp [sinkFaultEnabled, hrun]), fatal_eq]
    rfl

/-- `u` is `s` but for the environment: the link, the draws, the schedule, the counter of free values and the recorded
calls. -/
def EnvironmentMoved (s u : State) : Prop :=
  u = { s with
    link := u.link
    schedule := u.schedule
    readDraws := u.readDraws
    openDraws := u.openDraws
    oracle := u.oracle
    calls := u.calls }

/-- The codes of R302 other than NONE. -/
abbrev IsFaultCause (c : Byte) : Prop := 1 ≤ c.toNat ∧ c.toNat ≤ 4

/-- The fatal sequence after a moved environment changes R314's list alone. -/
theorem EnvironmentMoved.fatal_frame {s u : State} (h : EnvironmentMoved s u) (c : Byte) :
    fatal c u = { s with
      faultCause := c
      linkOpen := false
      sinkOpen := false
      runState := .failed
      link := (fatal c u).link
      schedule := (fatal c u).schedule
      readDraws := (fatal c u).readDraws
      openDraws := (fatal c u).openDraws
      oracle := (fatal c u).oracle
      calls := (fatal c u).calls } := by
  rw [fatal_eq, h]

/-- A successful open of the link does not end the run (R342). -/
theorem linkOpened_not_failed (s : State) : (linkOpened s).runState ≠ .failed := by
  unfold linkOpened
  split <;> simp

/-- A transaction that ends in FAILED is the fatal sequence, entered with one of the four causes after reading the
environment alone (R303 to R307). The block in progress of a RAW_STEP is emptied, which is no change between steps
(R48). -/
theorem exec_failed (x : Txn) {s t : State} (h : exec (txnInstr x) s = .next t) (hblock : s.rawBlock = [])
    (hs : s.runState ≠ .failed) (ht : t.runState = .failed) :
    ∃ c u, t = fatal c u ∧ IsFaultCause c ∧ EnvironmentMoved s u := by
  cases x with
  | linkOpen =>
    rcases linkOpen_cases h with rfl | ⟨-, d, o, rfl | rfl⟩
    · exact absurd ht hs
    · exact absurd ht (linkOpened_not_failed _)
    · exact ⟨causeLinkOpenFail, _, rfl, by decide, rfl⟩
  | probeRead =>
    rcases probeRead_cases h with rfl | ⟨-, -, -, l, d, o, ⟨rfl, -⟩ | ⟨k, -, -, rfl⟩⟩
    · exact absurd ht hs
    · exact ⟨causeLinkError, _, rfl, by decide, rfl⟩
    · exact absurd ht hs
  | classify =>
    rcases classify_cases h with rfl | ⟨-, rfl⟩
    · exact absurd ht hs
    · cases ht
  | sinkOpen =>
    rcases sinkOpen_cases h with rfl | ⟨-, d, o, rfl | rfl⟩
    · exact absurd ht hs
    · cases ht
    · exact ⟨causeDeviceOpenFail, _, rfl, by decide, rfl⟩
  | ingestRead =>
    rcases ingestRead_cases h with rfl | ⟨-, -, -, l, d, o, ⟨rfl, -⟩ | ⟨k, -, -, rfl⟩⟩
    · exact absurd ht hs
    · exact ⟨causeLinkError, _, rfl, by decide, rfl⟩
    · exact absurd ht hs
  | rawStep =>
    rcases rawStep_outcome h with rfl | ⟨-, k, d, o, ⟨b, rfl⟩ | rfl⟩
    · exact absurd ht hs
    · exact absurd ht hs
    · exact ⟨causeLinkError, _, rfl, by decide, by simp [EnvironmentMoved, hblock]⟩
  | stop =>
    rcases stop_cases h with rfl | ⟨-, -, rfl⟩
    · exact absurd ht hs
    · cases ht
  | sinkFault =>
    rcases sinkFault_cases h with rfl | ⟨-, rfl⟩
    · exact absurd ht hs
    · exact ⟨causeSinkError, _, rfl, by decide, rfl⟩
  | _ => exact absurd (((exec_writesOnlyItsOwn _ h).runState (by simp)).symm.trans ht) hs

/-- Settles O32: the scheduler's choice moves the environment too, and a step takes link bytes off the head (O55). -/
theorem fatalStepsArePrecise : Obligations.FatalStepsArePrecise := by
  intro s t hblock hs hstep ht
  obtain ⟨hlink, -⟩ := streamsOnlyMoveForward s t hstep
  obtain ⟨-, x, sch, o, hexec⟩ := step_cases hstep
  obtain ⟨c, u, rfl, ⟨hlow, hhigh⟩, hmoved⟩ := exec_failed x hexec hblock hs ht
  have hmoved : EnvironmentMoved s u := hmoved
  rw [fatal_faultCause]
  exact ⟨hlink, hlow, hhigh, hmoved.fatal_frame c⟩

end Sys2Proof.Machine
end

section
/-! O28 and O29: the two opens that succeed (70_reset_and_hazards.md R342, R343, 40_detector.md R148). Each is enabled
in one RUN_STATE, uses up its draw, records its call, and then writes what `linkOpened` or `sinkOpened` says. -/

namespace Sys2Proof.Machine

/-- What a successful open of the link writes, register by register (R342). -/
theorem linkOpened_eq (s : State) :
    linkOpened s = { s with
      linkOpen := true
      mode := if s.cfg.forceMode = .midi then .midi else if s.cfg.forceMode = .raw then .rawAudio else s.mode
      runState := if s.cfg.forceMode = .auto then .probing else .starting } := by
  cases hforce : s.cfg.forceMode <;> simp [linkOpened, hforce]

/-- LINK_OPEN where it is enabled and its draw is ok (R321, R342). -/
theorem exec_linkOpen_of_ok {s : State} (hinit : s.runState = .init) (hdraw : (nextOpen s).1 = .ok) :
    exec .linkOpen s = .next (linkOpened (record .openLink (nextOpen s).2)) := by
  have henabled : linkOpenEnabled s = true := by simp [linkOpenEnabled, hinit]
  rw [exec, execLinkOpen, if_pos henabled, nextOpen_eq, hdraw]

/-- SINK_OPEN where it is enabled and its draw is ok (R321, R343). -/
theorem exec_sinkOpen_of_ok {s : State} (hstarting : s.runState = .starting) (hdraw : (nextOpen s).1 = .ok) :
    exec .sinkOpen s = .next (sinkOpened (record (sinkOpenCall (nextOpen s).2) (nextOpen s).2)) := by
  have henabled : sinkOpenEnabled s = true := by simp [sinkOpenEnabled, hstarting]
  rw [exec, execSinkOpen, if_pos henabled, nextOpen_eq, hdraw]

/-- Settles O28: `linkOpened_eq` after the draw and the record of the call, neither of which FORCE_MODE sees. -/
theorem linkOpenFollowsForceMode : Obligations.LinkOpenFollowsForceMode := by
  intro s hinit hdraw
  rw [exec_linkOpen_of_ok hinit hdraw, linkOpened_eq, nextOpen_eq]
  rfl

/-- Settles O29: MODE selects the parameters of the call, and on the MIDI path the callback's record after it. -/
theorem sinkOpenStartsTheRun : Obligations.SinkOpenStartsTheRun := by
  refine fun s hstarting hdraw => ⟨fun hmode => ?_, fun hmode => ?_⟩
  · rw [exec_sinkOpen_of_ok hstarting hdraw, nextOpen_eq]
    simp [sinkOpened, sinkOpenCall, record, hmode]
  · rw [exec_sinkOpen_of_ok hstarting hdraw, nextOpen_eq]
    simp [sinkOpened, sinkOpenCall, record, hmode]

end Sys2Proof.Machine
end

section
/-! O51 and O57: the run control over a step (70_reset_and_hazards.md R341, 10_state.md R36 to R39, R43,
60_exceptions.md R302). A step that writes none of these registers keeps `runInv` as it stands; each of the others has
one lemma for the RUN_STATE it leads to, and the six that can fail share `runInv_fatal`. -/

namespace Sys2Proof.Machine

/-- The host has asked for a stop only where the run has stopped (R43, R308). -/
theorem stopReq_of_runInv {s : State} (hs : runInv s = true) (hrun : s.runState ≠ .stopped) : s.stopReq = false := by
  cases hr : s.runState with
  | stopped => exact absurd hr hrun
  | _ => simp_all [runInv]

/-- A cause is set only where the run has failed (R38, R302). -/
theorem faultCause_of_runInv {s : State} (hs : runInv s = true) (hrun : s.runState ≠ .failed) :
    s.faultCause = causeNone := by
  cases hr : s.runState with
  | failed => exact absurd hr hrun
  | _ => simp_all [runInv]

/-- FAILED is legal after any fatal cause, where the host has not asked for a stop (R302, R306, R309). -/
theorem runInv_fatal {s : State} {c : Byte} (hc : IsFaultCause c) (hstop : s.stopReq = false) :
    runInv (fatal c s) = true := by
  simpa [runInv, hstop] using hc

/-- STOPPED is legal unless the run has failed (R302, R308, R309). -/
theorem runInv_stopped {s : State} (hs : runInv s = true) (hrun : s.runState ≠ .failed) :
    runInv { teardown { s with stopReq := true } with runState := .stopped } = true := by
  simp [runInv, faultCause_of_runInv hs hrun]

/-- A successful open of the link from INIT leads to PROBING, or decides MODE and leads to STARTING (R148, R342). -/
theorem runInv_linkOpened {s : State} (hs : runInv s = true) (hinit : s.runState = .init) :
    runInv (linkOpened s) = true := by
  simp only [runInv, hinit, Bool.and_eq_true, beq_iff_eq, Bool.not_eq_true'] at hs
  obtain ⟨⟨⟨⟨⟨hmode, -⟩, hsink⟩, hcause⟩, hstop⟩, -⟩ := hs
  cases hforce : s.cfg.forceMode <;> simp [linkOpened, hforce, runInv, hmode, hsink, hcause, hstop]

/-- A successful open of the sink from STARTING leads to RUNNING (R343). -/
theorem runInv_sinkOpened {s : State} (hs : runInv s = true) (hstarting : s.runState = .starting) :
    runInv (sinkOpened s) = true := by
  simp only [runInv, hstarting, Bool.and_eq_true, bne_iff_ne, beq_iff_eq, Bool.not_eq_true'] at hs
  obtain ⟨⟨⟨⟨hmode, hlink⟩, -⟩, hcause⟩, hstop⟩ := hs
  simp [sinkOpened, runInv, hmode, hlink, hcause, hstop]

/-- The detector always decides (R142). -/
theorem classify_ne_undecided (cfg : Config) (p : List Byte) : classify cfg p ≠ .undecided := by
  simp only [classify]
  split_ifs <;> simp

/-- The decision from PROBING leads to STARTING (R147). -/
theorem runInv_classified {s : State} (hs : runInv s = true) (hprobing : s.runState = .probing) :
    runInv { s with mode := classify s.cfg s.probeBuf, probeBuf := [], runState := .starting } = true := by
  simp only [runInv, hprobing, Bool.and_eq_true, beq_iff_eq, Bool.not_eq_true'] at hs
  obtain ⟨⟨⟨⟨-, hlink⟩, hsink⟩, hcause⟩, hstop⟩ := hs
  simp [runInv, classify_ne_undecided, hlink, hsink, hcause, hstop]

/-- The end of the probe's window is free in PROBING (R43, R141). -/
theorem runInv_windowExpired {s : State} (hs : runInv s = true) (hprobing : s.runState = .probing) :
    runInv { s with windowExpired := true } = true := by
  simpa only [runInv, hprobing] using hs

theorem exec_keeps_runInv (x : Txn) {s t : State} (hs : runInv s = true) (h : exec (txnInstr x) s = .next t) :
    runInv t = true := by
  cases x with
  | linkOpen =>
    rcases linkOpen_cases h with rfl | ⟨hinit, d, o, rfl | rfl⟩
    · exact hs
    · exact runInv_linkOpened hs hinit
    · exact runInv_fatal (by decide) (stopReq_of_runInv hs (by simp [hinit]))
  | probeRead =>
    rcases probeRead_cases h with rfl | ⟨hprobing, -, -, l, d, o, ⟨rfl, -⟩ | ⟨k, -, -, rfl⟩⟩
    · exact hs
    · exact runInv_fatal (by decide) (stopReq_of_runInv hs (by simp [hprobing]))
    · exact hs
  | windowExpire =>
    rcases windowExpire_cases h with rfl | ⟨hprobing, -, rfl⟩
    · exact hs
    · exact runInv_windowExpired hs hprobing
  | classify =>
    rcases classify_cases h with rfl | ⟨hprobing, rfl⟩
    · exact hs
    · exact runInv_classified hs hprobing
  | sinkOpen =>
    rcases sinkOpen_cases h with rfl | ⟨hstarting, d, o, rfl | rfl⟩
    · exact hs
    · exact runInv_sinkOpened hs hstarting
    · exact runInv_fatal (by decide) (stopReq_of_runInv hs (by simp [hstarting]))
  | ingestRead =>
    rcases ingestRead_cases h with rfl | ⟨-, hrunning, -, l, d, o, ⟨rfl, -⟩ | ⟨k, -, -, rfl⟩⟩
    · exact hs
    · exact runInv_fatal (by decide) (stopReq_of_runInv hs (by simp [hrunning]))
    · exact hs
  | parseApply =>
    obtain ⟨p, i, vs, v, rfl, -⟩ := parseApply_outcome h
    exact hs
  | generate n =>
    rcases generate_cases h with rfl | ⟨-, -, -, rfl⟩ <;> exact hs
  | rawStep =>
    rcases rawStep_outcome h with rfl | ⟨hrunning, k, d, o, ⟨b, rfl⟩ | rfl⟩
    · exact hs
    · exact hs
    · exact runInv_fatal (by decide) (stopReq_of_runInv hs (by simp [hrunning]))
  | stop =>
    rcases stop_cases h with rfl | ⟨-, hfailed, rfl⟩
    · exact hs
    · exact runInv_stopped hs hfailed
  | sinkFault =>
    rcases sinkFault_cases h with rfl | ⟨hrunning, rfl⟩
    · exact hs
    · exact runInv_fatal (by decide) (stopReq_of_runInv hs (by simp [hrunning]))

/-- Settles O51: the scheduler's choice touches no register of the run control, and each transaction keeps it legal. -/
theorem stepKeepsTheRunControl : Obligations.StepKeepsTheRunControl := by
  intro s t hs hstep
  obtain ⟨-, x, sch, o, hexec⟩ := step_cases hstep
  exact exec_keeps_runInv x (s := { s with schedule := sch, oracle := o }) hs hexec

/-- Settles O57: `exec_runState` looks at each transaction's outcomes. -/
theorem runStateMovesAsTheTableSays : Obligations.RunStateMovesAsTheTableSays :=
  fun x _ _ h => exec_runState x h

end Sys2Proof.Machine
end
